-- ==== Sys2Proof/Config.lean ====
section
/-! DEFINITION. What an instance of LZWBLIT fixes (00_scope.md R7, R8) and the free values (93_implementation_defined.md). -/

namespace Sys2Proof.Config

/-- The two configuration arguments of the block (R7, R8, U10): the largest canvas width and height. -/
structure Params where
  maxW : Nat
  maxH : Nat
deriving DecidableEq, Repr

/-- The defaults of R7: 800 by 600. -/
def defaults : Params := { maxW := 800, maxH := 600 }

/-- `CANVAS_CELLS = MAX_W * MAX_H` (R7, R52). -/
def Params.canvasCells (p : Params) : Nat := p.maxW * p.maxH

/-- `MAX_CHAIN_DEPTH` (R7): the document's bound on a prefix walk. -/
def maxChainDepth : Nat := 4096

/-- The free values: what the spec leaves as "any value" (U2, U3, U4), one for each draw number. No body on purpose:
nothing can be proved about a value of it (log 3). -/
opaque freeWord : Nat → BitVec 32

/-- The free contents of the dictionary (U5, R38 "unspecified"): for each draw number and code, the 20 bits an entry
holds that no insertion has written since that draw (log 4). -/
opaque freeEntry : Nat → Nat → BitVec 20

end Sys2Proof.Config
end

