-- ==== Sys2Proof/Word.lean ====
section
/-! DEFINITION. Word types of LZWBLIT and the names the spec gives its enumerations, registers and host events. -/

namespace Sys2Proof

/-- One byte: a stream byte, a palette index, a canvas cell (R7 `INDEX_BITS`, R50, R52). -/
abbrev Byte := BitVec 8

/-- The data of the host register port, 32 bits (R7, R32). -/
abbrev Word := BitVec 32

/-- A code value, 0 to 4095 (R7 `DICT_SIZE`, R73). -/
abbrev Code := BitVec 12

/-- `STATE` (R20, R34). -/
inductive RunState where
  | idle | busy | done | error
deriving DecidableEq, Repr

/-- `FSTATE` (R20, R27): what the next stream byte is. -/
inductive FState where
  | mcs | len | data
deriving DecidableEq, Repr

/-- The error kinds of R161, in the order of their codes 0 to 11. -/
inductive ErrorKind where
  | success | invalidParameter | outOfMemory | fileNotFound | earlyEOF | badFileFormat | fileTooWide | emptyFrame
  | decodeError | unsupportedFeature | displayNotSet | unknownError
deriving DecidableEq, Repr

/-- One dictionary entry (R35): a 12-bit prefix code and an 8-bit suffix index. -/
structure DictEntry where
  prefixCode : Code
  suffix : Byte
deriving DecidableEq, Repr

/-- The registers of the map of R32, in the order of their numbers 0x00 to 0x11. -/
inductive RegName where
  | cmd | status | error | dataIn | canvasW | canvasH | frameX | frameY | frameW | frameH | frameFlags | transpIdx
  | pixcnt | pos | mincode | width | next | prev
deriving DecidableEq, Repr

/-- A register number as the host presents it: a register of the map, or a number not in the map (R32). -/
inductive RegSel where
  | reg (r : RegName)
  | unmapped (n : Nat)
deriving DecidableEq, Repr

/-- The configuration registers 0x04 to 0x0B (R31, R32, R92). -/
inductive CfgReg where
  | canvasW | canvasH | frameX | frameY | frameW | frameH | frameFlags | transpIdx
deriving DecidableEq, Repr

/-- The host events of R9. Register numbers and cell addresses have no width in the spec (log 14). -/
inductive HostEvent where
  | hardReset
  | regWrite (n : Nat) (v : Word)
  | regRead (n : Nat)
  | canvasRead (a : Nat)
  | canvasWrite (a : Nat) (v : Word)
deriving DecidableEq, Repr

/-- What a read event returned to the host (R10 (a)): a register's value, or a canvas cell's. -/
inductive ReadResult where
  | reg (r : RegSel) (v : Word)
  | cell (a : Nat) (v : Byte)
deriving DecidableEq, Repr

end Sys2Proof
end

