-- ==== Sys2Proof/Syntax.lean ====
section
/-! DEFINITION. The instructions of LZWBLIT: one constructor for each row of spec/opcode_table.json. -/

namespace Sys2Proof

/-- The 21 rows of the opcode table: four byte-level items (R71), six code-level items (R77), eleven host events (R90). -/
inductive Instr where
  /-- MCS, the minimum-code-size byte (R111). -/
  | mcs (b : Byte)
  /-- SBLEN, a sub-block length 1 to 255 (R112). -/
  | sblen (b : Byte)
  /-- SBTERM, the zero length that ends the chain (R113). -/
  | sbterm
  /-- SBDATA, a payload byte (R114). -/
  | sbdata (b : Byte)
  /-- CLR, the Clear code (R128). -/
  | clr
  /-- END, the End code (R129). -/
  | endCode
  /-- FIRST, the first non-special code after a reset of the dictionary (R130). -/
  | firstCode (c : Code)
  /-- DICT, a known code with a previous code (R131). -/
  | dictCode (c : Code)
  /-- KWKWK, the code about to be assigned (R132). -/
  | kwkwk (c : Code)
  /-- BAD, a corrupt code (R135). -/
  | bad (c : Code)
  /-- START (R94). -/
  | start
  /-- EOS (R96). -/
  | eos
  /-- RESET, the soft reset (R97). -/
  | reset
  /-- A reserved command value (R98). -/
  | cmdReserved (v : Byte)
  /-- PUSH, the next stream byte (R95). -/
  | push (b : Byte)
  /-- A write to a configuration register (R92). -/
  | cfgwrite (r : CfgReg) (v : Word)
  /-- A write to a read-only or unknown register (R93). -/
  | rowrite (r : RegSel) (v : Word)
  /-- A register read (R91). -/
  | regread (r : RegSel)
  /-- The hard reset (R99). -/
  | hardreset
  /-- A canvas read by the host (R100). -/
  | canvasread (a : Nat)
  /-- A canvas write by the host (R100). -/
  | canvaswrite (a : Nat) (v : Byte)
deriving DecidableEq, Repr

end Sys2Proof
end

