-- ==== Sys2Proof/WellFormed.lean ====
section
/-! DEFINITION. Which instructions are well formed: on their own, and in a decoding context. -/

namespace Sys2Proof

/-- What decoding reads beside the bits themselves (R71, R77): the registers FSTATE, M, WIDTH, NEXT, PREV_VALID. -/
structure DecodeCtx where
  fstate : FState
  m : BitVec 4
  width : BitVec 4
  next : BitVec 13
  prevValid : Bool
deriving DecidableEq, Repr

/-- `CLEAR = 2^M` (R21). -/
def DecodeCtx.clear (x : DecodeCtx) : Nat := 2 ^ x.m.toNat

/-- `END = CLEAR + 1` (R21). -/
def DecodeCtx.endVal (x : DecodeCtx) : Nat := x.clear + 1

/-- A context in which codes are fetched has the ranges of R138. -/
def DecodeCtx.codesOk (x : DecodeCtx) : Bool :=
  decide (2 ≤ x.m.toNat ∧ x.m.toNat ≤ 8 ∧ x.m.toNat + 1 ≤ x.width.toNat ∧ x.width.toNat ≤ 12 ∧
    x.clear + 2 ≤ x.next.toNat ∧ x.next.toNat ≤ 2 ^ x.width.toNat)

/-- A code is a `WIDTH`-bit value and not a special code (R73, R77). -/
def DecodeCtx.plainCode (x : DecodeCtx) (c : Code) : Bool :=
  decide (c.toNat < 2 ^ x.width.toNat ∧ c.toNat ≠ x.clear ∧ c.toNat ≠ x.endVal)

/-- The registers a write is ignored by (R93): 0x01, 0x02, 0x0C to 0x11, and numbers not in the map. -/
def RegName.readOnly : RegName → Bool
  | .status | .error | .pixcnt | .pos | .mincode | .width | .next | .prev => true
  | .cmd | .dataIn | .canvasW | .canvasH | .frameX | .frameY | .frameW | .frameH | .frameFlags | .transpIdx => false

/-- A number not in the map of R32 is above 0x11. -/
def RegSel.wellFormed : RegSel → Bool
  | .reg _ => true
  | .unmapped n => decide (0x11 < n)

/-- A target of ROWRITE (R93). -/
def RegSel.ignoresWrites : RegSel → Bool
  | .reg r => r.readOnly
  | .unmapped n => decide (0x11 < n)

/-- The conditions the table puts on an instruction's fields whatever the context: SBLEN is not zero (R112), a FIRST code
is below CLEAR and so below 256 (R130), a KWKWK or BAD code is at or above NEXT and so at least 6 (R132, R135), a
reserved command is none of 1, 2, 3 (R98), ROWRITE names a register that ignores writes (R93), an unmapped number is not
in the map (R32). -/
def Instr.wellFormed : Instr → Bool
  | .mcs _ => true
  | .sblen b => decide (b ≠ 0)
  | .sbterm => true
  | .sbdata _ => true
  | .clr => true
  | .endCode => true
  | .firstCode c => decide (c.toNat < 256)
  | .dictCode _ => true
  | .kwkwk c => decide (6 ≤ c.toNat)
  | .bad c => decide (6 ≤ c.toNat)
  | .start => true
  | .eos => true
  | .reset => true
  | .cmdReserved v => decide (v ≠ 1 ∧ v ≠ 2 ∧ v ≠ 3)
  | .push _ => true
  | .cfgwrite _ _ => true
  | .rowrite r _ => r.ignoresWrites
  | .regread r => r.wellFormed
  | .hardreset => true
  | .canvasread _ => true
  | .canvaswrite _ _ => true

/-- The condition column of the table (R71, R77) for the context an item stands in. -/
def Instr.fitsContext (x : DecodeCtx) : Instr → Bool
  | .mcs _ => decide (x.fstate = .mcs)
  | .sblen _ => decide (x.fstate = .len)
  | .sbterm => decide (x.fstate = .len)
  | .sbdata _ => decide (x.fstate = .data)
  | .clr => x.codesOk
  | .endCode => x.codesOk
  | .firstCode c => x.codesOk && x.plainCode c && !x.prevValid && decide (c.toNat < x.next.toNat)
  | .dictCode c => x.codesOk && x.plainCode c && x.prevValid && decide (c.toNat < x.next.toNat)
  | .kwkwk c => x.codesOk && x.plainCode c && x.prevValid && decide (c.toNat = x.next.toNat)
  | .bad c => x.codesOk && x.plainCode c &&
      (decide (x.next.toNat < c.toNat) || (decide (c.toNat = x.next.toNat) && !x.prevValid))
  | .start => true
  | .eos => true
  | .reset => true
  | .cmdReserved _ => true
  | .push _ => true
  | .cfgwrite _ _ => true
  | .rowrite _ _ => true
  | .regread _ => true
  | .hardreset => true
  | .canvasread _ => true
  | .canvaswrite _ _ => true

end Sys2Proof
end

