-- ==== Sys2Proof/Decode.lean ====
section
/-! DEFINITION. The decoder (bytes, codes and host events to instructions), and after it the encoder. -/

namespace Sys2Proof

/-- What is decoded: a stream byte, a code of WIDTH bits taken from the bitstream, or a host event. -/
inductive RawItem where
  | byte (b : Byte)
  | code (c : Code)
  | event (e : HostEvent)
deriving DecidableEq, Repr

/-- Why a raw item is no instruction. -/
inductive DecodeReject where
  /-- The value has more than WIDTH bits, so it is no code in this context (R73). -/
  | codeWiderThanWidth
deriving DecidableEq, Repr

/-- The decoder's answer. -/
inductive Decoded where
  | instr (i : Instr)
  | rejected (r : DecodeReject)
deriving DecidableEq, Repr

/-! ### Numbers of the enumerations -/

/-- The two bits of STATE (R20, R33). -/
def RunState.num : RunState → BitVec 2
  | .idle => 0 | .busy => 1 | .done => 2 | .error => 3

/-- The two bits of FSTATE (R20, R33). -/
def FState.num : FState → BitVec 2
  | .mcs => 0 | .len => 1 | .data => 2

/-- The error codes of R161. -/
def ErrorKind.num : ErrorKind → BitVec 4
  | .success => 0 | .invalidParameter => 1 | .outOfMemory => 2 | .fileNotFound => 3 | .earlyEOF => 4
  | .badFileFormat => 5 | .fileTooWide => 6 | .emptyFrame => 7 | .decodeError => 8 | .unsupportedFeature => 9
  | .displayNotSet => 10 | .unknownError => 11

/-- The register numbers of R32. -/
def RegName.num : RegName → Nat
  | .cmd => 0x00 | .status => 0x01 | .error => 0x02 | .dataIn => 0x03 | .canvasW => 0x04 | .canvasH => 0x05
  | .frameX => 0x06 | .frameY => 0x07 | .frameW => 0x08 | .frameH => 0x09 | .frameFlags => 0x0A | .transpIdx => 0x0B
  | .pixcnt => 0x0C | .pos => 0x0D | .mincode => 0x0E | .width => 0x0F | .next => 0x10 | .prev => 0x11

/-- The number a selector stands for. -/
def RegSel.num : RegSel → Nat
  | .reg r => r.num
  | .unmapped n => n

/-- The register a number selects (R32). -/
def RegSel.ofNum (n : Nat) : RegSel :=
  match n with
  | 0x00 => .reg .cmd
  | 0x01 => .reg .status
  | 0x02 => .reg .error
  | 0x03 => .reg .dataIn
  | 0x04 => .reg .canvasW
  | 0x05 => .reg .canvasH
  | 0x06 => .reg .frameX
  | 0x07 => .reg .frameY
  | 0x08 => .reg .frameW
  | 0x09 => .reg .frameH
  | 0x0A => .reg .frameFlags
  | 0x0B => .reg .transpIdx
  | 0x0C => .reg .pixcnt
  | 0x0D => .reg .pos
  | 0x0E => .reg .mincode
  | 0x0F => .reg .width
  | 0x10 => .reg .next
  | 0x11 => .reg .prev
  | n => .unmapped n

/-- The register number of a configuration register (R32). -/
def CfgReg.num : CfgReg → Nat
  | .canvasW => 0x04 | .canvasH => 0x05 | .frameX => 0x06 | .frameY => 0x07 | .frameW => 0x08 | .frameH => 0x09
  | .frameFlags => 0x0A | .transpIdx => 0x0B

/-! ### Byte level (R71, R72) -/

/-- The four byte-level items of R71. -/
inductive ByteClass where
  | mcs | sblen | sbterm | sbdata
deriving DecidableEq, Repr

/-- Which item a byte is depends on FSTATE, and in `F_LEN` on the byte being zero (R71, R95). -/
def classifyByte (f : FState) (b : Byte) : ByteClass :=
  match f with
  | .mcs => .mcs
  | .len => if b = 0 then .sbterm else .sblen
  | .data => .sbdata

/-- The instruction of a byte-level item. -/
def ByteClass.toInstr (b : Byte) : ByteClass → Instr
  | .mcs => .mcs b
  | .sblen => .sblen b
  | .sbterm => .sbterm
  | .sbdata => .sbdata b

/-! ### Code level (R77, R78) -/

/-- The six code-level instructions of R77. -/
inductive CodeClass where
  | clr | endCode | firstCode | dictCode | kwkwk | bad
deriving DecidableEq, Repr

/-- The classifier of R78, in the order its tests are written there. -/
def classify (x : DecodeCtx) (c : Code) : CodeClass :=
  if c.toNat = x.clear then .clr
  else if c.toNat = x.endVal then .endCode
  else if x.next.toNat < c.toNat then .bad
  else if c.toNat = x.next.toNat then (if x.prevValid then .kwkwk else .bad)
  else if x.prevValid then .dictCode
  else .firstCode

/-- The instruction of a classified code. -/
def CodeClass.toInstr (c : Code) : CodeClass → Instr
  | .clr => .clr
  | .endCode => .endCode
  | .firstCode => .firstCode c
  | .dictCode => .dictCode c
  | .kwkwk => .kwkwk c
  | .bad => .bad c

/-! ### Host events (R83, R90) -/

/-- The command in the low byte of a write to CMD (R83). -/
def decodeCommand (v : Byte) : Instr :=
  if v = 1 then .start
  else if v = 2 then .eos
  else if v = 3 then .reset
  else .cmdReserved v

/-- A register write, by the register written (R83, R90, R92, R93). -/
def decodeRegWrite (r : RegSel) (v : Word) : Instr :=
  match r with
  | .reg .cmd => decodeCommand (v.setWidth 8)
  | .reg .dataIn => .push (v.setWidth 8)
  | .reg .canvasW => .cfgwrite .canvasW v
  | .reg .canvasH => .cfgwrite .canvasH v
  | .reg .frameX => .cfgwrite .frameX v
  | .reg .frameY => .cfgwrite .frameY v
  | .reg .frameW => .cfgwrite .frameW v
  | .reg .frameH => .cfgwrite .frameH v
  | .reg .frameFlags => .cfgwrite .frameFlags v
  | .reg .transpIdx => .cfgwrite .transpIdx v
  | .reg .status => .rowrite (.reg .status) v
  | .reg .error => .rowrite (.reg .error) v
  | .reg .pixcnt => .rowrite (.reg .pixcnt) v
  | .reg .pos => .rowrite (.reg .pos) v
  | .reg .mincode => .rowrite (.reg .mincode) v
  | .reg .width => .rowrite (.reg .width) v
  | .reg .next => .rowrite (.reg .next) v
  | .reg .prev => .rowrite (.reg .prev) v
  | .unmapped n => .rowrite (.unmapped n) v

/-- A host event as an instruction. -/
def decodeEvent : HostEvent → Instr
  | .hardReset => .hardreset
  | .regWrite n v => decodeRegWrite (RegSel.ofNum n) v
  | .regRead n => .regread (RegSel.ofNum n)
  | .canvasRead a => .canvasread a
  | .canvasWrite a v => .canvaswrite a (v.setWidth 8)

/-- The decoder: total, and rejecting by name. -/
def decode (x : DecodeCtx) : RawItem → Decoded
  | .byte b => .instr ((classifyByte x.fstate b).toInstr b)
  | .code c => if c.toNat < 2 ^ x.width.toNat then .instr ((classify x c).toInstr c) else .rejected .codeWiderThanWidth
  | .event e => .instr (decodeEvent e)

/-! ### The encoder (R71, R73, R77, R83) -/

/-- The raw item of an instruction. CLR and END take their code value from M (R77). -/
def encode (x : DecodeCtx) : Instr → RawItem
  | .mcs b => .byte b
  | .sblen b => .byte b
  | .sbterm => .byte 0
  | .sbdata b => .byte b
  | .clr => .code (BitVec.ofNat 12 x.clear)
  | .endCode => .code (BitVec.ofNat 12 x.endVal)
  | .firstCode c => .code c
  | .dictCode c => .code c
  | .kwkwk c => .code c
  | .bad c => .code c
  | .start => .event (.regWrite 0x00 1)
  | .eos => .event (.regWrite 0x00 2)
  | .reset => .event (.regWrite 0x00 3)
  | .cmdReserved v => .event (.regWrite 0x00 (v.setWidth 32))
  | .push b => .event (.regWrite 0x03 (b.setWidth 32))
  | .cfgwrite r v => .event (.regWrite r.num v)
  | .rowrite r v => .event (.regWrite r.num v)
  | .regread r => .event (.regRead r.num)
  | .hardreset => .event .hardReset
  | .canvasread a => .event (.canvasRead a)
  | .canvaswrite a v => .event (.canvasWrite a (v.setWidth 32))

/-! ### Packing a code list into a frame's input (R84) -/

/-- The width, NEXT and PREV_VALID after code `c`, as `pack` of R84 tracks them: the classifier's rules with insertions
counted and nothing stored. -/
def packNext (x : DecodeCtx) (c : Code) : DecodeCtx :=
  match classify x c with
  | .clr => { x with next := BitVec.ofNat 13 (x.clear + 2), width := x.m + 1, prevValid := false }
  | .endCode => x
  | .bad => x
  | .firstCode => { x with prevValid := true }
  | .dictCode | .kwkwk =>
    if x.next.toNat ≤ 4095 then
      { x with
        next := x.next + 1
        width := if x.next.toNat + 1 = 2 ^ x.width.toNat ∧ x.width.toNat < 12 then x.width + 1 else x.width }
    else x

/-- A code's bits, least significant first (R55, R84). -/
def codeBits (width : Nat) (c : Code) : List Bool := (List.range width).map fun j => c.getLsbD j

/-- The payload bit string of a code list (R84). -/
def packBits (x : DecodeCtx) : List Code → List Bool
  | [] => []
  | c :: cs => codeBits x.width.toNat c ++ packBits (packNext x c) cs

/-- A byte from at most eight bits, the first one bit 0, padded with zero bits (R55, R84). -/
def byteOfBits : List Bool → Byte
  | [] => 0
  | b :: bs => (byteOfBits bs <<< 1) ||| (if b then 1 else 0)

/-- The bytes of a bit string: eight bits a byte, the last padded with zero bits (R84). The first argument bounds the
number of bytes. -/
def bytesOfBits : Nat → List Bool → List Byte
  | 0, _ => []
  | _, [] => []
  | n + 1, bs => byteOfBits (bs.take 8) :: bytesOfBits n (bs.drop 8)

/-- The sub-block chain of a payload in blocks of `k` bytes, the terminator included (R70, R84). The first argument
bounds the number of blocks. -/
def chainOf : Nat → Nat → List Byte → List Byte
  | 0, _, _ => [0]
  | _, _, [] => [0]
  | n + 1, k, ds => BitVec.ofNat 8 (ds.take k).length :: ds.take k ++ chainOf n k (ds.drop k)

/-- `pack` of R84: the frame input of a code list, with minimum code size `m` and sub-blocks of `k` bytes. -/
def pack (m : BitVec 4) (k : Nat) (cs : List Code) : List Byte :=
  let x : DecodeCtx :=
    { fstate := .mcs, m := m, width := m + 1, next := BitVec.ofNat 13 (2 ^ m.toNat + 2), prevValid := false }
  let bits := packBits x cs
  let payload := bytesOfBits bits.length bits
  m.setWidth 8 :: chainOf payload.length k payload

/-! ### Words numbered as the opcode table numbers them -/

/-- A table word as a raw item (log 13). Eight bits are a stream byte. Forty bits are a register write, the register
number in bits 7..0 and the value in bits 39..8. The table gives the other formats no fixed number of bits. -/
def rawOfTableWord (nbits w : Nat) : Option RawItem :=
  match nbits with
  | 8 => some (.byte (BitVec.ofNat 8 w))
  | 40 => some (.event (.regWrite (w % 256) (BitVec.ofNat 32 (w / 256))))
  | _ => none

/-- The context a table word is decoded in (log 13): the table's word has no context of its own, and a byte is read where
a sub-block length is due, the one context in which the table fixes bits (SBTERM). -/
def tableCtx : DecodeCtx := { fstate := .len, m := 2, width := 3, next := 6, prevValid := false }

/-- The instruction the decoder reads from a table word. -/
def decodeTableWord (nbits w : Nat) : Option Instr :=
  match rawOfTableWord nbits w with
  | none => none
  | some raw =>
    match decode tableCtx raw with
    | .instr i => some i
    | .rejected _ => none

end Sys2Proof
end

