-- ==== Sys2Proof/Machine/State.lean ====
section
/-! DEFINITION. The state of LZWBLIT (10_state.md R20), its faults and refusals, and the state after reset (R38). -/

namespace Sys2Proof.Machine

/-- The canvas memory as plain data: a list of (address, byte) cells in the canonical form of `Memory.wf`. -/
abbrev Memory := List Host.Cell

/-- Why the machine stops with a fault. All four are raised only in states no run from reset reaches (log 10), and are
safe: a claim about such a state cannot be proved. -/
inductive Fault where
  /-- Raised by the BLIT stage's canvas write (R146) at an address at or above CANVAS_CELLS, which does not exist (R52).
  Safe; R149 shows no frame accepted by START reaches it. -/
  | canvasOutOfRange
  /-- Raised by `exp` and `first` (R126, R127) when a prefix walk takes more than MAX_CHAIN_DEPTH links (R7) without
  meeting a singleton. Safe; R37 bounds every walk. -/
  | chainTooDeep
  /-- Raised by the fetch loop (R116) when it could run for ever, which needs WIDTH = 0. Safe; R138 has WIDTH at least 3. -/
  | fetchStalled
  /-- Raised by `emit_index` (R146) when PIXCNT is above FRAME_W * FRAME_H, outside the domain of `position` (R147). Safe;
  R153 bounds PIXCNT. -/
  | indexPastFrame
deriving DecidableEq, Repr

/-- Why the machine gives an event no meaning. -/
inductive Refusal where
  /-- Raised by `exec` for an instruction that has no meaning in this model; safe. No instruction is left so. -/
  | notModelled (mnemonic : String)
  /-- Raised by CANVASREAD and CANVASWRITE while STATE = BUSY (R100, R191, U6); safe. -/
  | canvasPortBusy
  /-- Raised by CANVASREAD and CANVASWRITE at an address at or above CANVAS_CELLS (R100, R191, U7); safe. -/
  | canvasPortAddress
deriving DecidableEq, Repr

/-- The state of LZWBLIT: the components of R20, then the model's own fields (INVENTORY.md). -/
structure State where
  /-- `STATE` -/
  runState : RunState
  /-- `ERROR` -/
  error : ErrorKind
  /-- `CANVAS_W` -/
  canvasW : BitVec 16
  /-- `CANVAS_H` -/
  canvasH : BitVec 16
  /-- `FRAME_X` -/
  frameX : BitVec 16
  /-- `FRAME_Y` -/
  frameY : BitVec 16
  /-- `FRAME_W` -/
  frameW : BitVec 16
  /-- `FRAME_H` -/
  frameH : BitVec 16
  /-- `INTERLACE` -/
  interlace : Bool
  /-- `TRANSP_EN` -/
  transpEn : Bool
  /-- `TRANSP_IDX` -/
  transpIdx : Byte
  /-- `POS` -/
  pos : BitVec 32
  /-- `FSTATE` -/
  fstate : FState
  /-- `REM` -/
  rem : BitVec 8
  /-- `ACC` -/
  acc : BitVec 19
  /-- `NBITS` -/
  nbits : BitVec 5
  /-- `M` -/
  m : BitVec 4
  /-- `WIDTH` -/
  width : BitVec 4
  /-- `NEXT` -/
  next : BitVec 13
  /-- `PREV` -/
  prev : Code
  /-- `PREV_VALID` -/
  prevValid : Bool
  /-- `ENDED` -/
  ended : Bool
  /-- `DICT`: the entries written, codes strictly rising; an entry not listed holds a free value (`dictEra`). -/
  dict : List (Nat × DictEntry)
  /-- `PIXCNT` -/
  pixcnt : BitVec 32
  /-- `CANVAS` -/
  canvas : Memory
  /-- MAX_W and MAX_H, never written (log 2). -/
  params : Config.Params
  /-- The host events not yet taken, oldest first (log 1). -/
  inputs : List HostEvent
  /-- What RegRead and CanvasRead have returned, oldest first (R10 (a), log 9). -/
  returned : List ReadResult
  /-- The IDX trace, oldest first (R10 (b), log 9). -/
  idxTrace : List Byte
  /-- The CW trace, oldest first (R10 (c), log 9). -/
  cwTrace : List (Nat × Byte)
  /-- The number of free values drawn (log 3). -/
  draws : Nat
  /-- The draw that fills the unwritten entries of DICT (log 4). -/
  dictEra : Nat
deriving DecidableEq, Repr

/-- The machine right after `HardReset` (R38, R186), with no event pending and nothing traced yet. -/
def State.reset : State where
  runState := .idle
  error := .success
  canvasW := 0
  canvasH := 0
  frameX := 0
  frameY := 0
  frameW := 0
  frameH := 0
  interlace := false
  transpEn := false
  transpIdx := 0
  pos := 0
  fstate := .mcs
  rem := 0
  acc := 0
  nbits := 0
  m := 0
  width := 0
  next := 0
  prev := 0
  prevValid := false
  ended := false
  dict := []
  pixcnt := 0
  canvas := []
  params := Config.defaults
  inputs := []
  returned := []
  idxTrace := []
  cwTrace := []
  draws := 1
  dictEra := 0

end Sys2Proof.Machine
end

