-- ==== Sys2Proof/Machine/Ops.lean ====
section
/-! DEFINITION. The named operations over the state: canvas memory, dictionary, free values, the error entry and the two
resets that leave it, `lzw_init`, `insert`, `grow`, the bit accumulator, and the host ports. -/

namespace Sys2Proof.Machine

/-! ### How a piece of pseudocode ends -/

/-- How a procedure of the spec ends: it returns (`go`), it has raised an error, which ends the host event (`raised`,
R12, R163), or the model stops (`stop`). -/
inductive Flow where
  | go (s : State)
  | raised (s : State)
  | stop (f : Fault)
deriving DecidableEq, Repr

/-- Sequencing: after a raise or a stop nothing more is executed (R163). -/
def Flow.bind (x : Flow) (k : State → Flow) : Flow :=
  match x with
  | .go s => k s
  | .raised s => .raised s
  | .stop f => .stop f

/-- The outcome of a host event whose processing ended so: a raised error is a next state (R163). -/
def Flow.outcome : Flow → Host.Outcome State Fault Refusal
  | .go s => .next s
  | .raised s => .next s
  | .stop f => .fault f

/-! ### Derived quantities -/

/-- What decoding reads of the state (R71, R77). -/
def State.ctx (s : State) : DecodeCtx :=
  { fstate := s.fstate, m := s.m, width := s.width, next := s.next, prevValid := s.prevValid }

/-- `CLEAR = 2^M` (R21). -/
def State.clear (s : State) : Nat := 2 ^ s.m.toNat

/-- `END = CLEAR + 1` (R21). -/
def State.endVal (s : State) : Nat := s.clear + 1

/-- `CANVAS_CELLS` (R7, R52). -/
def State.canvasCells (s : State) : Nat := s.params.canvasCells

/-- `FRAME_W * FRAME_H`, which does not wrap (R129, R153). -/
def State.framePixels (s : State) : Nat := s.frameW.toNat * s.frameH.toNat

/-! ### The canvas memory (R52, R53) -/

/-- What an unlisted cell reads as: the value every cell has after `HardReset` (R38). -/
abbrev Memory.unlisted : Byte := 0

/-- The canonical form with all listed addresses at or above the one given. -/
def Memory.wfAbove : Nat → Memory → Bool
  | _, [] => true
  | lo, (a, v) :: rest => decide (lo ≤ a) && decide (v ≠ Memory.unlisted) && Memory.wfAbove (a + 1) rest

/-- The canonical form: addresses strictly rising, and no cell listed that holds what an unlisted one reads as. -/
def Memory.wf (m : Memory) : Bool := Memory.wfAbove 0 m

/-- One cell. -/
def Memory.read (m : Memory) (a : Nat) : Byte :=
  match m with
  | [] => Memory.unlisted
  | (b, v) :: rest => if a = b then v else Memory.read rest a

/-- Put a cell in front of a memory, unless it holds what an unlisted cell reads as. -/
def Memory.cons (a : Nat) (v : Byte) (m : Memory) : Memory := if v = Memory.unlisted then m else (a, v) :: m

/-- Write one cell, keeping the canonical form. -/
def Memory.write (m : Memory) (a : Nat) (v : Byte) : Memory :=
  match m with
  | [] => Memory.cons a v []
  | (b, w) :: rest =>
    if a < b then Memory.cons a v ((b, w) :: rest)
    else if a = b then Memory.cons a v rest
    else (b, w) :: Memory.write rest a v

/-- `MemWrite(a, 1, v)` of R12: the cell takes the value and the CW trace records it. An address at or above CANVAS_CELLS
does not exist (R52). -/
def memWrite (a : Nat) (v : Byte) (s : State) : Flow :=
  if a < s.canvasCells then .go { s with canvas := s.canvas.write a v, cwTrace := s.cwTrace ++ [(a, v)] }
  else .stop .canvasOutOfRange

/-! ### The dictionary (R35, R51) -/

/-- The entries written, as a table from codes. -/
def dictLookup (d : List (Nat × DictEntry)) (c : Nat) : Option DictEntry :=
  match d with
  | [] => none
  | (k, e) :: rest => if c = k then some e else dictLookup rest c

/-- The free contents of an entry that no insertion has written (U5, log 4). -/
def freeDictEntry (era c : Nat) : DictEntry :=
  { prefixCode := (Config.freeEntry era c).extractLsb' 8 12, suffix := (Config.freeEntry era c).setWidth 8 }

/-- `DICT[c]` (R35). -/
def State.dictAt (s : State) (c : Nat) : DictEntry := (dictLookup s.dict c).getD (freeDictEntry s.dictEra c)

/-- Write one entry, codes kept strictly rising. -/
def dictWrite (d : List (Nat × DictEntry)) (c : Nat) (e : DictEntry) : List (Nat × DictEntry) :=
  match d with
  | [] => [(c, e)]
  | (k, f) :: rest =>
    if c < k then (c, e) :: (k, f) :: rest
    else if c = k then (c, e) :: rest
    else (k, f) :: dictWrite rest c e

/-- `lzw_init()` of R26. -/
def lzwInit (s : State) : State :=
  { s with width := s.m + 1, next := BitVec.ofNat 13 (s.clear + 2), prevValid := false }

/-- `grow()` of R134, without early change (D9). -/
def grow (s : State) : State :=
  if s.next.toNat = 2 ^ s.width.toNat ∧ s.width.toNat < 12 then { s with width := s.width + 1 } else s

/-- The entry part of `insert(k)` (R133): `DICT[NEXT] <- (PREV, k)` and `NEXT <- NEXT + 1`. -/
def addEntry (k : Byte) (s : State) : State :=
  { s with
    dict := dictWrite s.dict s.next.toNat { prefixCode := s.prev, suffix := k }
    next := s.next + 1 }

/-- `insert(k)` of R133: nothing when the dictionary is full. -/
def insert (k : Byte) (s : State) : State := if s.next.toNat ≤ 4095 then grow (addEntry k s) else s

/-! ### The error entry and the ways out of it (R163, R171) -/

/-- An FSTATE drawn from a free word (log 6). -/
def freeFState (w : Word) : FState :=
  match w.toNat % 3 with
  | 0 => .mcs
  | 1 => .len
  | _ => .data

/-- What becomes undefined at an error (R163, U2): each of these registers takes a free value of its own, and DICT a free
content (log 5). -/
def scramble (s : State) : State :=
  { s with
    m := (Config.freeWord s.draws).setWidth 4
    width := (Config.freeWord (s.draws + 1)).setWidth 4
    next := (Config.freeWord (s.draws + 2)).setWidth 13
    prev := (Config.freeWord (s.draws + 3)).setWidth 12
    prevValid := (Config.freeWord (s.draws + 4)).getLsbD 0
    ended := (Config.freeWord (s.draws + 5)).getLsbD 0
    fstate := freeFState (Config.freeWord (s.draws + 6))
    rem := (Config.freeWord (s.draws + 7)).setWidth 8
    acc := (Config.freeWord (s.draws + 8)).setWidth 19
    nbits := (Config.freeWord (s.draws + 9)).setWidth 5
    dict := []
    dictEra := s.draws + 10
    draws := s.draws + 11 }

/-- `raise E()` of R163, the block's one trap mechanism: `ERROR` takes the kind, `STATE` becomes ERROR, the working
registers become undefined; PIXCNT, POS, the configuration and the canvas are kept. -/
def raise (e : ErrorKind) (s : State) : State := { scramble s with error := e, runState := .error }

/-- The registers that the command RESET and `HardReset` both put at their reset value (R38). -/
def clearRun (s : State) : State :=
  { s with
    runState := .idle
    error := .success
    pos := 0
    fstate := .mcs
    rem := 0
    acc := 0
    nbits := 0
    m := 0
    width := 0
    next := 0
    prev := 0
    prevValid := false
    ended := false
    pixcnt := 0 }

/-- The command RESET (R97; column "after command RESET" of R38): configuration, canvas and dictionary are kept. -/
def softReset (s : State) : State := clearRun s

/-- `HardReset` (R99; column "after HardReset" of R38): every register and every cell at its reset value, DICT
unspecified. -/
def hardReset (s : State) : State :=
  { clearRun s with
    canvasW := 0
    canvasH := 0
    frameX := 0
    frameY := 0
    frameW := 0
    frameH := 0
    interlace := false
    transpEn := false
    transpIdx := 0
    canvas := []
    dict := []
    dictEra := s.draws
    draws := s.draws + 1 }

/-- What START sets before its checks (R94). -/
def beginFrame (s : State) : State :=
  { s with
    pos := 0
    pixcnt := 0
    ended := false
    prevValid := false
    acc := 0
    nbits := 0
    rem := 0
    fstate := .mcs }

/-! ### The bit accumulator (R115, R116) -/

/-- The first two statements of `feed(b)` (R115): the byte goes above the bits already waiting. -/
def addByte (b : Byte) (s : State) : State :=
  { s with acc := s.acc ||| (b.setWidth 19 <<< s.nbits.toNat), nbits := s.nbits + 8 }

/-- `c = ACC[WIDTH-1:0]` (R74, R116). -/
def nextCode (s : State) : Code := BitVec.ofNat 12 (s.acc.toNat % 2 ^ s.width.toNat)

/-- The accumulator after a fetch (R116). -/
def dropCode (s : State) : State :=
  { s with acc := s.acc >>> s.width.toNat, nbits := s.nbits - s.width.setWidth 5 }

/-! ### The host's side -/

/-- The next host event, taken from the head of the pending ones (R9, log 1). -/
def fetchEvent (s : State) : Option (HostEvent × State) :=
  match s.inputs with
  | [] => none
  | e :: rest => some (e, { s with inputs := rest })

/-- A read event hands a value to the host (R10 (a)); nothing else changes (R61). -/
def giveBack (r : ReadResult) (s : State) : State := { s with returned := s.returned ++ [r] }

/-- A stream byte counted: `POS <- (POS + 1) mod 2^32` (R28, R95). -/
def countByte (s : State) : State := { s with pos := s.pos + 1 }

/-- The canvas port's gating (R53, R100, R191): refused while BUSY, and at an address that does not exist. -/
def canvasPort (a : Nat) (s : State) (k : State) : Host.Outcome State Fault Refusal :=
  if s.runState = .busy then .refused .canvasPortBusy
  else if a < s.canvasCells then .next k
  else .refused .canvasPortAddress

end Sys2Proof.Machine
end

