-- ==== Sys2Proof/Machine/Operands.lean ====
section
/-! DEFINITION. Operands: the expansion of a code (R126, R127), where an index goes (R147, R150, R152), and the register
file's read and write ports (R32). -/

namespace Sys2Proof.Machine

/-! ### What a code stands for -/

/-- `exp(c)` of R126, with a bound on the number of links walked; none when the bound is met before a singleton. -/
def expand (s : State) : Nat → Nat → Option (List Byte)
  | 0, c => if c < s.clear then some [BitVec.ofNat 8 c] else none
  | n + 1, c =>
    if c < s.clear then some [BitVec.ofNat 8 c]
    else (expand s n (s.dictAt c).prefixCode.toNat).map (· ++ [(s.dictAt c).suffix])

/-- `exp(c)` (R126), its walk bounded by MAX_CHAIN_DEPTH (R7). -/
def expOf (s : State) (c : Code) : Option (List Byte) := expand s Config.maxChainDepth c.toNat

/-- `first(c)` of R127 with the same bound. -/
def walkFirst (s : State) : Nat → Nat → Option Byte
  | 0, c => if c < s.clear then some (BitVec.ofNat 8 c) else none
  | n + 1, c => if c < s.clear then some (BitVec.ofNat 8 c) else walkFirst s n (s.dictAt c).prefixCode.toNat

/-- `first(c)` (R127). -/
def firstOf (s : State) (c : Code) : Option Byte := walkFirst s Config.maxChainDepth c.toNat

/-! ### Where an index goes -/

/-- `ilrow(k, H)` of R150. -/
def ilrow (k h : Nat) : Nat :=
  let n1 := (h + 7) / 8
  let n2 := (h + 3) / 8
  let n3 := (h + 1) / 4
  if k < n1 then 8 * k
  else if k < n1 + n2 then 8 * (k - n1) + 4
  else if k < n1 + n2 + n3 then 4 * (k - n1 - n2) + 2
  else 2 * (k - n1 - n2 - n3) + 1

/-- The column of index number `n` (R147). -/
def State.colOf (s : State) (n : Nat) : Nat := n % s.frameW.toNat

/-- The destination row of index number `n` (R147). -/
def State.rowOf (s : State) (n : Nat) : Nat :=
  if s.interlace then ilrow (n / s.frameW.toNat) s.frameH.toNat else n / s.frameW.toNat

/-- The canvas cell of a frame pixel (R52, R148). -/
def State.pixelAddr (s : State) (col row : Nat) : Nat :=
  (s.frameY.toNat + row) * s.canvasW.toNat + (s.frameX.toNat + col)

/-- The canvas cell index number `n` goes to (R146, R147). -/
def State.indexAddr (s : State) (n : Nat) : Nat := s.pixelAddr (s.colOf n) (s.rowOf n)

/-- The transparency mask (R148): such an index is not written. -/
def State.transparent (s : State) (v : Byte) : Bool := s.transpEn && decide (v = s.transpIdx)

/-! ### The incremental form of `position` (R152) -/

/-- The cursor of R152: a column, and for the row a pass (1 to 4) with its destination row. A frame that is not
interlaced has the one pass 0. -/
structure RowCursor where
  col : Nat
  pass : Nat
  row : Nat
deriving DecidableEq, Repr

/-- The start of a frame (R152). -/
def RowCursor.start (interlace : Bool) : RowCursor := { col := 0, pass := if interlace then 1 else 0, row := 0 }

/-- The step of a pass (R152). -/
def passStep : Nat → Nat
  | 1 => 8
  | 2 => 8
  | 3 => 4
  | 4 => 2
  | _ => 1

/-- The first row of a pass (R152). -/
def passFirst : Nat → Nat
  | 2 => 4
  | 3 => 2
  | 4 => 1
  | _ => 0

/-- "While the row is `>= FRAME_H` and the pass is below 4, go to the next pass" (R152); at most three times. -/
def skipPasses (h : Nat) : Nat → RowCursor → RowCursor
  | 0, p => p
  | n + 1, p =>
    if h ≤ p.row ∧ 1 ≤ p.pass ∧ p.pass < 4 then
      skipPasses h n { p with pass := p.pass + 1, row := passFirst (p.pass + 1) }
    else p

/-- The cursor after one index (R152). -/
def RowCursor.advance (w h : Nat) (p : RowCursor) : RowCursor :=
  if p.col + 1 = w then skipPasses h 3 { col := 0, pass := p.pass, row := p.row + passStep p.pass }
  else { p with col := p.col + 1 }

/-- The cursor after `n` indices (R152). -/
def RowCursor.after (w h : Nat) (interlace : Bool) : Nat → RowCursor
  | 0 => RowCursor.start interlace
  | n + 1 => (RowCursor.after w h interlace n).advance w h

/-! ### The register file (R32) -/

/-- FRAME_FLAGS as a word (R32): bit 0 INTERLACE, bit 1 TRANSP_EN, the rest 0. -/
def State.frameFlags (s : State) : Word :=
  (if s.interlace then 1 else 0) ||| (if s.transpEn then 2 else 0)

/-- A configuration register takes the low bits of the value written (R32, R92). -/
def writeConfig (r : CfgReg) (v : Word) (s : State) : State :=
  match r with
  | .canvasW => { s with canvasW := v.setWidth 16 }
  | .canvasH => { s with canvasH := v.setWidth 16 }
  | .frameX => { s with frameX := v.setWidth 16 }
  | .frameY => { s with frameY := v.setWidth 16 }
  | .frameW => { s with frameW := v.setWidth 16 }
  | .frameH => { s with frameH := v.setWidth 16 }
  | .frameFlags => { s with interlace := v.getLsbD 0, transpEn := v.getLsbD 1 }
  | .transpIdx => { s with transpIdx := v.setWidth 8 }

end Sys2Proof.Machine
end

