-- ==== Sys2Proof/Machine/Flags.lean ====
section
/-! DEFINITION. The flags and conditions: STATUS (R33), when a register reads as any value (R33, U2 to U4), what a register
read returns (R32, R91), and the checks of START and END (R94, R129). -/

namespace Sys2Proof.Machine

/-- A Bool as one bit. -/
def bit (b : Bool) : BitVec 1 := BitVec.ofBool b

/-- STATUS (R33): bits 1:0 STATE, bit 2 ENDED, bit 3 PREV_VALID, bits 5:4 FSTATE, the rest 0. -/
def State.statusWord (s : State) : Word :=
  (s.fstate.num ++ bit s.prevValid ++ bit s.ended ++ s.runState.num : BitVec 6).setWidth 32

/-- STATUS after an error (R33, U2): bits 1:0 are STATE, bits 5:2 any value `w`, the rest 0. -/
def freeStatusWord (s : State) (w : Word) : Word :=
  (w.setWidth 4 ++ s.runState.num : BitVec 6).setWidth 32

/-- M, WIDTH and NEXT read as any value after an error (U2) and between START and the minimum-code-size byte (U4). -/
def State.lzwUnknown (s : State) : Bool :=
  decide (s.runState = .error) || (decide (s.runState = .busy) && decide (s.fstate = .mcs))

/-- PREV reads as any value after an error (U2), and while PREV_VALID = 0 (U3) once a frame has been started (log 7). -/
def State.prevUnknown (s : State) : Bool :=
  decide (s.runState = .error) || (!s.prevValid && !decide (s.runState = .idle))

/-- Whether a read of the register returns a free value, in whole or (STATUS) in part. -/
def State.readsFree (s : State) (r : RegSel) : Bool :=
  match r with
  | .reg .status => decide (s.runState = .error)
  | .reg .mincode => s.lzwUnknown
  | .reg .width => s.lzwUnknown
  | .reg .next => s.lzwUnknown
  | .reg .prev => s.prevUnknown
  | .reg .cmd => false
  | .reg .error => false
  | .reg .dataIn => false
  | .reg .canvasW => false
  | .reg .canvasH => false
  | .reg .frameX => false
  | .reg .frameY => false
  | .reg .frameW => false
  | .reg .frameH => false
  | .reg .frameFlags => false
  | .reg .transpIdx => false
  | .reg .pixcnt => false
  | .reg .pos => false
  | .unmapped _ => false

/-- What a register reads as where its value is defined: its content zero-extended; 0 for a write-only register and for a
number not in the map (R32, R91). -/
def State.regWord (s : State) (r : RegSel) : Word :=
  match r with
  | .reg .cmd => 0
  | .reg .status => s.statusWord
  | .reg .error => s.error.num.setWidth 32
  | .reg .dataIn => 0
  | .reg .canvasW => s.canvasW.setWidth 32
  | .reg .canvasH => s.canvasH.setWidth 32
  | .reg .frameX => s.frameX.setWidth 32
  | .reg .frameY => s.frameY.setWidth 32
  | .reg .frameW => s.frameW.setWidth 32
  | .reg .frameH => s.frameH.setWidth 32
  | .reg .frameFlags => s.frameFlags
  | .reg .transpIdx => s.transpIdx.setWidth 32
  | .reg .pixcnt => s.pixcnt
  | .reg .pos => s.pos
  | .reg .mincode => s.m.setWidth 32
  | .reg .width => s.width.setWidth 32
  | .reg .next => s.next.setWidth 32
  | .reg .prev => s.prev.setWidth 32
  | .unmapped _ => 0

/-- What a register reads as where it reads as any value: a free word `w` cut to the register's width and zero-extended
(R32, R33; "any value" is of the right width, 93_implementation_defined.md). -/
def State.freeRegWord (s : State) (r : RegSel) (w : Word) : Word :=
  match r with
  | .reg .status => freeStatusWord s w
  | .reg .mincode => (w.setWidth 4).setWidth 32
  | .reg .width => (w.setWidth 4).setWidth 32
  | .reg .next => (w.setWidth 13).setWidth 32
  | .reg .prev => (w.setWidth 12).setWidth 32
  | r => s.regWord r

/-- START's first check (R94, cause E1): the canvas exceeds MAX_W or MAX_H. -/
def State.canvasTooBig (s : State) : Bool :=
  decide (s.params.maxW < s.canvasW.toNat ∨ s.params.maxH < s.canvasH.toNat)

/-- START's second check (R94, cause E2): the frame rectangle is not inside the canvas; the sums do not wrap. -/
def State.frameOutside (s : State) : Bool :=
  decide (s.canvasW.toNat < s.frameX.toNat + s.frameW.toNat ∨ s.canvasH.toNat < s.frameY.toNat + s.frameH.toNat)

/-- Every pixel has been delivered: `PIXCNT = FRAME_W * FRAME_H` (R129, R146). -/
def State.frameFull (s : State) : Bool := decide (s.pixcnt.toNat = s.framePixels)

end Sys2Proof.Machine
end

