-- ==== Sys2Proof/Machine/Blit.lean ====
section
/-! DEFINITION. The BLIT stage (43_blitter.md): `emit_index` and `emit`. -/

namespace Sys2Proof.Machine

/-- The placing of an index (R146 to R148): written at its cell, unless it is the transparent one. -/
def placeIndex (v : Byte) (s : State) : Flow :=
  if s.transparent v then .go s else memWrite (s.indexAddr s.pixcnt.toNat) v s

/-- `trace IDX(v)` (R146). -/
def traceIndex (v : Byte) (s : State) : State := { s with idxTrace := s.idxTrace ++ [v] }

/-- `PIXCNT <- PIXCNT + 1` (R146). -/
def countIndex (s : State) : State := { s with pixcnt := s.pixcnt + 1 }

/-- `emit_index(v)` of R146. -/
def emitIndex (v : Byte) (s : State) : Flow :=
  if s.frameFull then .raised (raise .decodeError s)
  else if s.framePixels < s.pixcnt.toNat then .stop .indexPastFrame
  else (placeIndex v (traceIndex v s)).bind fun t => .go (countIndex t)

/-- `emit(s)` of R136: first to last; after a raise the rest is not delivered. -/
def emit : List Byte → State → Flow
  | [], s => .go s
  | v :: vs, s => (emitIndex v s).bind (emit vs)

/-! ### The same in closed form, for claims -/

/-- The canvas writes of a sequence of indices, the first being index number `n` (R146 to R148). -/
def State.blitWrites (s : State) : Nat → List Byte → List (Nat × Byte)
  | _, [] => []
  | n, v :: vs =>
    if s.transparent v then s.blitWrites (n + 1) vs else (s.indexAddr n, v) :: s.blitWrites (n + 1) vs

/-- The canvas after a list of writes, in order (R63). -/
def Memory.writeAll (m : Memory) (ws : List (Nat × Byte)) : Memory := ws.foldl (fun m w => m.write w.1 w.2) m

/-- The state after the indices `ix` were accepted: they are on the IDX trace, their writes are on the CW trace and in the
canvas, PIXCNT has counted them, and nothing else has changed (R146, R63). -/
def State.accept (s : State) (ix : List Byte) : State :=
  { s with
    idxTrace := s.idxTrace ++ ix
    cwTrace := s.cwTrace ++ s.blitWrites s.pixcnt.toNat ix
    canvas := s.canvas.writeAll (s.blitWrites s.pixcnt.toNat ix)
    pixcnt := s.pixcnt + BitVec.ofNat 32 ix.length }

end Sys2Proof.Machine
end

