-- ==== Sys2Proof/Machine/Lzw.lean ====
section
/-! DEFINITION. The LZW codes (42_lzw_codes.md): the six code-level instructions and `exec_code`. -/

namespace Sys2Proof.Machine

/-- `PREV <- c` (R130 to R132). -/
def setPrev (c : Code) (s : State) : State := { s with prev := c }

/-- `PREV <- c; PREV_VALID <- 1` (R130). -/
def setFirstPrev (c : Code) (s : State) : State := { s with prev := c, prevValid := true }

/-- `do_clr()` of R128. -/
def doClr (s : State) : Flow :=
  .go { s with next := BitVec.ofNat 13 (s.clear + 2), width := s.m + 1, prevValid := false }

/-- `do_end()` of R129. -/
def doEnd (s : State) : Flow :=
  if s.frameFull then .go { s with ended := true } else .raised (raise .decodeError s)

/-- `do_first(c)` of R130. -/
def doFirst (c : Code) (s : State) : Flow :=
  (emit [c.setWidth 8] s).bind fun t => .go (setFirstPrev c t)

/-- `do_dict(c)` of R131: the expansion is taken before the insertion. -/
def doDict (c : Code) (s : State) : Flow :=
  match expOf s c, firstOf s c with
  | some ix, some k => (emit ix (insert k s)).bind fun t => .go (setPrev c t)
  | _, _ => .stop .chainTooDeep

/-- `do_kwkwk(c)` of R132. -/
def doKwkwk (c : Code) (s : State) : Flow :=
  match expOf s s.prev, firstOf s s.prev with
  | some ix, some k => (emit (ix ++ [k]) (insert k s)).bind fun t => .go (setPrev c t)
  | _, _ => .stop .chainTooDeep

/-- `do_bad(c)` of R135. -/
def doBad (_c : Code) (s : State) : Flow := .raised (raise .decodeError s)

/-- `exec_code(c)` of R125: the class is decided on the state before the code runs. -/
def execCode (c : Code) (s : State) : Flow :=
  match classify s.ctx c with
  | .clr => doClr s
  | .endCode => doEnd s
  | .firstCode => doFirst c s
  | .dictCode => doDict c s
  | .kwkwk => doKwkwk c s
  | .bad => doBad c s

/-- CLR (R128). -/
def execClr (s : State) : Host.Outcome State Fault Refusal := (doClr s).outcome

/-- END (R129). -/
def execEnd (s : State) : Host.Outcome State Fault Refusal := (doEnd s).outcome

/-- FIRST (R130). -/
def execFirst (c : Code) (s : State) : Host.Outcome State Fault Refusal := (doFirst c s).outcome

/-- DICT (R131). -/
def execDict (c : Code) (s : State) : Host.Outcome State Fault Refusal := (doDict c s).outcome

/-- KWKWK (R132). -/
def execKwkwk (c : Code) (s : State) : Host.Outcome State Fault Refusal := (doKwkwk c s).outcome

/-- BAD (R135). -/
def execBad (c : Code) (s : State) : Host.Outcome State Fault Refusal := (doBad c s).outcome

end Sys2Proof.Machine
end

