-- ==== Sys2Proof/Machine/Framing.lean ====
section
/-! DEFINITION. Stream framing and code fetch (41_stream_framing.md): the four byte-level instructions. -/

namespace Sys2Proof.Machine

/-- `fetch_loop()` of R116. The first argument bounds the iterations: each takes WIDTH bits, so NBITS + 1 rounds are
enough when WIDTH is not 0 (R195). -/
def fetchLoop : Nat → State → Flow
  | 0, _ => .stop .fetchStalled
  | n + 1, s =>
    if s.ended = false ∧ s.width.toNat ≤ s.nbits.toNat then
      (execCode (nextCode s) (dropCode s)).bind (fetchLoop n)
    else .go s

/-- `feed(b)` of R115. -/
def feed (b : Byte) (s : State) : Flow :=
  fetchLoop ((addByte b s).nbits.toNat + 1) (addByte b s)

/-- `M <- b[3:0]` (R111). -/
def setMinCode (b : Byte) (s : State) : State := { s with m := b.setWidth 4 }

/-- `do_mcs(b)` of R111. -/
def doMcs (b : Byte) (s : State) : Flow :=
  if b.toNat < 2 ∨ 8 < b.toNat then .raised (raise .decodeError s)
  else .go { lzwInit (setMinCode b s) with fstate := .len }

/-- `do_sblen(b)` of R112. -/
def doSblen (b : Byte) (s : State) : Flow := .go { s with rem := b, fstate := .data }

/-- `do_sbterm()` of R113. -/
def doSbterm (s : State) : Flow :=
  if s.ended then .go { s with runState := .done } else .raised (raise .decodeError s)

/-- The sub-block bookkeeping of `do_sbdata` (R114). -/
def countData (s : State) : State :=
  { s with rem := s.rem - 1, fstate := if s.rem - 1 = 0 then .len else s.fstate }

/-- `do_sbdata(b)` of R114. -/
def doSbdata (b : Byte) (s : State) : Flow :=
  if s.ended then .go (countData s) else feed b (countData s)

/-- The item a byte is, run (R95, R110). -/
def runByte (b : Byte) (s : State) : Flow :=
  match classifyByte s.fstate b with
  | .mcs => doMcs b s
  | .sblen => doSblen b s
  | .sbterm => doSbterm s
  | .sbdata => doSbdata b s

/-- MCS (R111). -/
def execMcs (b : Byte) (s : State) : Host.Outcome State Fault Refusal := (doMcs b s).outcome

/-- SBLEN (R112). -/
def execSblen (b : Byte) (s : State) : Host.Outcome State Fault Refusal := (doSblen b s).outcome

/-- SBTERM (R113). -/
def execSbterm (s : State) : Host.Outcome State Fault Refusal := (doSbterm s).outcome

/-- SBDATA (R114). -/
def execSbdata (b : Byte) (s : State) : Host.Outcome State Fault Refusal := (doSbdata b s).outcome

end Sys2Proof.Machine
end

