-- ==== Sys2Proof/Machine/HostPort.lean ====
section
/-! DEFINITION. The host events and commands (40_host_commands.md). An event that R90 has ignored leaves the state as it
is. -/

namespace Sys2Proof.Machine

/-- START (R94): the checks are made in the order written, on the frame's state already begun. -/
def execStart (s : State) : Host.Outcome State Fault Refusal :=
  if s.runState = .idle ∨ s.runState = .done then
    if s.canvasTooBig then .next (raise .fileTooWide (beginFrame s))
    else if s.frameOutside then .next (raise .decodeError (beginFrame s))
    else .next { beginFrame s with runState := .busy }
  else .next s

/-- EOS (R96). -/
def execEos (s : State) : Host.Outcome State Fault Refusal :=
  if s.runState = .busy then .next (raise .earlyEOF s) else .next s

/-- RESET (R97), accepted in every STATE. -/
def execReset (s : State) : Host.Outcome State Fault Refusal := .next (softReset s)

/-- A reserved command value (R98): ignored in every STATE. -/
def execCmdReserved (_v : Byte) (s : State) : Host.Outcome State Fault Refusal := .next s

/-- PUSH (R95): the byte is counted, then run as the item FSTATE makes it. -/
def execPush (b : Byte) (s : State) : Host.Outcome State Fault Refusal :=
  if s.runState = .busy then (runByte b (countByte s)).outcome else .next s

/-- A write to a configuration register (R92, R190): ignored while BUSY. -/
def execCfgwrite (r : CfgReg) (v : Word) (s : State) : Host.Outcome State Fault Refusal :=
  if s.runState = .busy then .next s else .next (writeConfig r v s)

/-- A write to a read-only or unknown register (R93): ignored in every STATE. -/
def execRowrite (_r : RegSel) (_v : Word) (s : State) : Host.Outcome State Fault Refusal := .next s

/-- A register read (R91): the value goes to the host; where it is any value (R33, U2 to U4) a free value is drawn. -/
def execRegread (r : RegSel) (s : State) : Host.Outcome State Fault Refusal :=
  if s.readsFree r then
    .next (giveBack (.reg r (s.freeRegWord r (Config.freeWord s.draws))) { s with draws := s.draws + 1 })
  else .next (giveBack (.reg r (s.regWord r)) s)

/-- The hard reset (R99), accepted in every STATE. -/
def execHardreset (s : State) : Host.Outcome State Fault Refusal := .next (hardReset s)

/-- A canvas read (R100). -/
def execCanvasread (a : Nat) (s : State) : Host.Outcome State Fault Refusal :=
  canvasPort a s (giveBack (.cell a (s.canvas.read a)) s)

/-- A canvas write (R100): no CW trace event. -/
def execCanvaswrite (a : Nat) (v : Byte) (s : State) : Host.Outcome State Fault Refusal :=
  canvasPort a s { s with canvas := s.canvas.write a v }

end Sys2Proof.Machine
end

