-- ==== Sys2Proof/Machine/Dispatch.lean ====
section
/-! DEFINITION. One arm per instruction: each calls its meaning. -/

namespace Sys2Proof.Machine

/-- What an instruction does. -/
def exec (i : Instr) (s : State) : Host.Outcome State Fault Refusal :=
  match i with
  -- byte-level items (41_stream_framing.md)
  | .mcs b => Sys2Proof.Machine.execMcs b s
  | .sblen b => Sys2Proof.Machine.execSblen b s
  | .sbterm => Sys2Proof.Machine.execSbterm s
  | .sbdata b => Sys2Proof.Machine.execSbdata b s
  -- code-level items (42_lzw_codes.md)
  | .clr => Sys2Proof.Machine.execClr s
  | .endCode => Sys2Proof.Machine.execEnd s
  | .firstCode c => Sys2Proof.Machine.execFirst c s
  | .dictCode c => Sys2Proof.Machine.execDict c s
  | .kwkwk c => Sys2Proof.Machine.execKwkwk c s
  | .bad c => Sys2Proof.Machine.execBad c s
  -- host events (40_host_commands.md)
  | .start => Sys2Proof.Machine.execStart s
  | .eos => Sys2Proof.Machine.execEos s
  | .reset => Sys2Proof.Machine.execReset s
  | .cmdReserved v => Sys2Proof.Machine.execCmdReserved v s
  | .push b => Sys2Proof.Machine.execPush b s
  | .cfgwrite r v => Sys2Proof.Machine.execCfgwrite r v s
  | .rowrite r v => Sys2Proof.Machine.execRowrite r v s
  | .regread r => Sys2Proof.Machine.execRegread r s
  | .hardreset => Sys2Proof.Machine.execHardreset s
  | .canvasread a => Sys2Proof.Machine.execCanvasread a s
  | .canvaswrite a v => Sys2Proof.Machine.execCanvaswrite a v s

end Sys2Proof.Machine
end

