-- ==== Sys2Proof/Machine/Step.lean ====
section
/-! DEFINITION. One step: one host event (R9, R60), and how a table word is placed to run next. -/

namespace Sys2Proof.Machine

/-- One step: the oldest pending host event is taken, decoded and run. With no event pending the block does nothing: it
never acts on its own (R9, R193; log 1). -/
def step (s : State) : Host.Outcome State Fault Refusal :=
  match fetchEvent s with
  | none => .next s
  | some (e, t) => exec (decodeEvent e) t

/-- The state with a table word placed so that the next step runs it (log 13): a stream byte is pushed into a block that
is BUSY and due a sub-block length, the context `decodeTableWord` reads it in; a register write is the next host event.
Other lengths of word are no raw item and change nothing. -/
def State.withFetchWord (s : State) (nbits w : Nat) : State :=
  match rawOfTableWord nbits w with
  | some (.byte b) =>
    { s with runState := .busy, fstate := tableCtx.fstate, inputs := .regWrite 0x03 (b.setWidth 32) :: s.inputs }
  | some (.event e) => { s with inputs := e :: s.inputs }
  | _ => s

end Sys2Proof.Machine
end

