-- ==== Sys2Proof/Safety.lean ====
section
/-! DEFINITION. What counts as a safe run: the invariants the spec states (R24, R29, R34, R37, R38, R138, R149, R153), and
the relations between states that the statements use. -/

namespace Sys2Proof.Machine

/-! ### What two states share -/

/-- The same configuration registers and parameters. -/
def SameConfig (s t : State) : Prop :=
  t.canvasW = s.canvasW ∧ t.canvasH = s.canvasH ∧ t.frameX = s.frameX ∧ t.frameY = s.frameY ∧ t.frameW = s.frameW ∧
    t.frameH = s.frameH ∧ t.interlace = s.interlace ∧ t.transpEn = s.transpEn ∧ t.transpIdx = s.transpIdx ∧
    t.params = s.params

/-- The same working registers of the LZW stage, ENDED among them, and the same dictionary. -/
def SameLzw (s t : State) : Prop :=
  t.m = s.m ∧ t.width = s.width ∧ t.next = s.next ∧ t.prev = s.prev ∧ t.prevValid = s.prevValid ∧
    t.ended = s.ended ∧ t.dict = s.dict ∧ t.dictEra = s.dictEra

/-- The same stream cursor. -/
def SameCursor (s t : State) : Prop :=
  t.pos = s.pos ∧ t.fstate = s.fstate ∧ t.rem = s.rem ∧ t.acc = s.acc ∧ t.nbits = s.nbits

/-- The same canvas, pixel count and traces. -/
def SameBlit (s t : State) : Prop :=
  t.canvas = s.canvas ∧ t.pixcnt = s.pixcnt ∧ t.idxTrace = s.idxTrace ∧ t.cwTrace = s.cwTrace

/-- The same run state and error. -/
def SameRun (s t : State) : Prop := t.runState = s.runState ∧ t.error = s.error

/-- The same pending events and returned values. -/
def SameHost (s t : State) : Prop := t.inputs = s.inputs ∧ t.returned = s.returned

/-- What an error entry leaves (R163): ERROR and STATE set; PIXCNT, POS, configuration, canvas and traces kept. -/
def ErrorEntry (e : ErrorKind) (s t : State) : Prop :=
  t.error = e ∧ t.runState = .error ∧ t.pos = s.pos ∧ SameConfig s t ∧ SameBlit s t ∧ SameHost s t

/-- The same state but for where the byte stream stands: POS, REM, FSTATE (R117). -/
def SameButFraming (s t : State) : Prop := t = { s with pos := t.pos, rem := t.rem, fstate := t.fstate }

/-- The same state but for what no rule reads: DICT outside CLEAR+2 to NEXT-1 (R36) and PREV while PREV_VALID = 0 (R24). -/
def SameLive (s t : State) : Prop :=
  t = { s with dict := t.dict, dictEra := t.dictEra, prev := t.prev } ∧
    (s.prevValid = true → t.prev = s.prev) ∧
    ∀ e, s.clear + 2 ≤ e → e < s.next.toNat → t.dictAt e = s.dictAt e

/-- The interlace pass a destination row belongs to (R150, table). -/
def rowPass (row : Nat) : Nat :=
  if row % 8 = 0 then 1 else if row % 8 = 4 then 2 else if row % 4 = 2 then 3 else 4

/-! ### The accumulator as bits -/

/-- The payload bits waiting in ACC, oldest first (R27). -/
def State.waiting (s : State) : List Bool := (List.range s.nbits.toNat).map fun j => s.acc.getLsbD j

/-- The bits of a payload byte, bit 0 first (R55). -/
def byteBits (b : Byte) : List Bool := (List.range 8).map fun j => b.getLsbD j

/-! ### The states of a fetch loop -/

/-- The fetch loop that starts in `s` comes to `u` after some rounds, none of which raised an error: each takes a code that
is complete while ENDED = 0, and goes on from the state the code left (R116). -/
inductive FetchReaches (s : State) : State → Prop where
  | start : FetchReaches s s
  | round {u v : State} : FetchReaches s u → u.ended = false → u.width.toNat ≤ u.nbits.toNat →
      execCode (nextCode u) (dropCode u) = .go v → FetchReaches s v

/-- Why the code `c` raises DecodeError in `s`: it is BAD (E4), END on a frame that is not full (E6), or its indices are more
than the frame has room for (E5): the one index of FIRST, the expansion of DICT, the expansion of PREV and one more of
KWKWK (R162). -/
def CodeError (c : Code) (s : State) : Prop :=
  classify s.ctx c = .bad ∨
  classify s.ctx c = .endCode ∧ s.pixcnt.toNat ≠ s.framePixels ∨
  classify s.ctx c = .firstCode ∧ s.pixcnt.toNat = s.framePixels ∨
  (classify s.ctx c = .dictCode ∧ ∃ ix, expOf s c = some ix ∧ s.framePixels < s.pixcnt.toNat + ix.length) ∨
  (classify s.ctx c = .kwkwk ∧ ∃ ix, expOf s s.prev = some ix ∧ s.framePixels < s.pixcnt.toNat + (ix.length + 1))

/-! ### Invariants -/

/-- A code that is neither CLEAR nor END. -/
def State.plain (s : State) (c : Nat) : Prop := c ≠ s.clear ∧ c ≠ s.endVal

/-- The invariants of the LZW stage (R138, R24, R37). -/
structure LzwOk (s : State) : Prop where
  mLow : 2 ≤ s.m.toNat
  mHigh : s.m.toNat ≤ 8
  widthLow : s.m.toNat + 1 ≤ s.width.toNat
  widthHigh : s.width.toNat ≤ 12
  nextLow : s.clear + 2 ≤ s.next.toNat
  nextHigh : s.next.toNat ≤ 2 ^ s.width.toNat
  nextTop : s.next.toNat = 2 ^ s.width.toNat → s.width.toNat = 12
  grown : s.m.toNat + 1 < s.width.toNat → 2 ^ (s.width.toNat - 1) ≤ s.next.toNat
  prevOk : s.prevValid = true → s.prev.toNat < s.next.toNat ∧ s.plain s.prev.toNat
  fresh : s.prevValid = false → s.next.toNat = s.clear + 2 ∧ s.width.toNat = s.m.toNat + 1
  dictOk : ∀ e, s.clear + 2 ≤ e → e < s.next.toNat →
    (s.dictAt e).prefixCode.toNat < e ∧ s.plain (s.dictAt e).prefixCode.toNat ∧ (s.dictAt e).suffix.toNat < s.clear

/-- The frame rectangle lies in a canvas that the memory holds (the checks of START, R94), and PIXCNT does not exceed the
frame (R153). -/
structure FrameOk (s : State) : Prop where
  wide : s.canvasW.toNat ≤ s.params.maxW
  high : s.canvasH.toNat ≤ s.params.maxH
  across : s.frameX.toNat + s.frameW.toNat ≤ s.canvasW.toNat
  down : s.frameY.toNat + s.frameH.toNat ≤ s.canvasH.toNat
  count : s.pixcnt.toNat ≤ s.framePixels

/-- The stream cursor between events while codes are being received (R27, R29). -/
structure CursorOk (s : State) : Prop where
  accHigh : s.acc.toNat < 2 ^ s.nbits.toNat
  fewBits : s.ended = false → s.nbits.toNat < s.width.toNat
  moreData : s.fstate = .data → 1 ≤ s.rem.toNat

/-- The cursor and counters between START and the minimum-code-size byte (R94, R38). -/
structure AtFrameStart (s : State) : Prop where
  noBytes : s.pos = 0
  noIndices : s.pixcnt = 0
  notEnded : s.ended = false
  noPrev : s.prevValid = false
  noAcc : s.acc = 0
  noBits : s.nbits = 0
  noRem : s.rem = 0

/-- The dictionary's entries have rising codes, all below DICT_SIZE (R35). -/
def dictForm : Nat → List (Nat × DictEntry) → Bool
  | _, [] => true
  | lo, (k, _) :: rest => decide (lo ≤ k) && decide (k < 4096) && dictForm (k + 1) rest

/-- The invariant of LZWBLIT: holds at reset, and every host event keeps it. -/
structure MachineInv (s : State) : Prop where
  /-- The canvas memory is in canonical form. -/
  canvasForm : s.canvas.wf = true
  /-- No cell outside the canvas space was ever written. -/
  canvasRange : ∀ a, s.canvasCells ≤ a → s.canvas.read a = 0
  /-- The dictionary is a table of 4096 codes. -/
  dictTable : dictForm 0 s.dict = true
  /-- `STATE = ERROR` if and only if `ERROR != 0` (R34). -/
  errorIff : s.runState = .error ↔ s.error ≠ .success
  /-- IDLE is entered by the resets only, which leave the run registers at their reset values (R34, R38). -/
  idleFresh : s.runState = .idle → s = clearRun s
  /-- While BUSY the frame is the one START checked (R94, R190). -/
  busyFrame : s.runState = .busy → FrameOk s
  /-- END was executed with the frame full (R129). -/
  endedFull : s.runState = .busy → s.ended = true → s.frameFull = true
  /-- Between START and the minimum-code-size byte. -/
  startOk : s.runState = .busy → s.fstate = .mcs → AtFrameStart s
  /-- From the minimum-code-size byte on, and in DONE (R24, R138). -/
  lzwOk : (s.runState = .busy ∧ s.fstate ≠ .mcs) ∨ s.runState = .done → LzwOk s
  /-- The cursor while codes are received. -/
  cursorOk : s.runState = .busy → s.fstate ≠ .mcs → CursorOk s
  /-- DONE follows END and the terminator (R34, R113). -/
  doneEnded : s.runState = .done → s.ended = true ∧ s.fstate = .len

/-! ### A frame as drawn (R155) -/

/-- Index number `n` of the frame is the one that goes to canvas cell `a`, and is not transparent. -/
def State.drawsAt (s : State) (ix : List Byte) (a n : Nat) : Prop :=
  ∃ v, ix[n]? = some v ∧ s.indexAddr n = a ∧ s.transparent v = false

/-- `s` has drawn the indices accepted since START on the canvas `c0`, after a trace `t0`: each cell that an index that is
not transparent goes to holds that index, every other cell holds what it held before (R155). -/
def FrameDrawn (c0 : Memory) (t0 : List Byte) (s : State) : Prop :=
  ∃ ix, s.idxTrace = t0 ++ ix ∧ ix.length = s.pixcnt.toNat ∧
    (∀ a n v, ix[n]? = some v → s.indexAddr n = a → s.transparent v = false → s.canvas.read a = v) ∧
    (∀ a, (∀ n, ¬ s.drawsAt ix a n) → s.canvas.read a = c0.read a)

end Sys2Proof.Machine
end

