-- ==== Sys2Proof/Certificates/Slice0/Obligations.lean ====
section
/-! DEFINITION. The statements about LZWBLIT for the provers; each docstring names the rule of spec/ it formalises. -/

section

open Sys2Proof Sys2Proof.Machine

/-! ### Encoding -/

/-- Words written out from the spec's encodings (R71, R76, R77, R83) decode to the instructions they stand for: the bytes
of the worked frame `02 03 44 02 05 00`, its codes, and one register write of each kind. -/
def Obligations.SpecWordsDecode : Prop :=
  let atM2 : DecodeCtx := { fstate := .mcs, m := 2, width := 3, next := 6, prevValid := false }
  decode atM2 (.byte 0x02) = .instr (.mcs 0x02) ∧
  decode { atM2 with fstate := .len } (.byte 0x03) = .instr (.sblen 0x03) ∧
  decode { atM2 with fstate := .len } (.byte 0x00) = .instr .sbterm ∧
  decode { atM2 with fstate := .data } (.byte 0x44) = .instr (.sbdata 0x44) ∧
  decode atM2 (.code 0b100) = .instr .clr ∧
  decode atM2 (.code 0b101) = .instr .endCode ∧
  decode atM2 (.code 0b001) = .instr (.firstCode 1) ∧
  decode { atM2 with prevValid := true } (.code 0b001) = .instr (.dictCode 1) ∧
  decode { atM2 with prevValid := true } (.code 0b110) = .instr (.kwkwk 6) ∧
  decode atM2 (.code 0b110) = .instr (.bad 6) ∧
  decode atM2 (.code 0b1000) = .rejected .codeWiderThanWidth ∧
  decode atM2 (.event (.regWrite 0x00 0x00ABCD01)) = .instr .start ∧
  decode atM2 (.event (.regWrite 0x00 0x00000002)) = .instr .eos ∧
  decode atM2 (.event (.regWrite 0x00 0x00000003)) = .instr .reset ∧
  decode atM2 (.event (.regWrite 0x00 0x00000104)) = .instr (.cmdReserved 0x04) ∧
  decode atM2 (.event (.regWrite 0x03 0xFFFFFF44)) = .instr (.push 0x44) ∧
  decode atM2 (.event (.regWrite 0x08 0x0001000A)) = .instr (.cfgwrite .frameW 0x0001000A) ∧
  decode atM2 (.event (.regWrite 0x0C 7)) = .instr (.rowrite (.reg .pixcnt) 7) ∧
  decode atM2 (.event (.regRead 0x40)) = .instr (.regread (.unmapped 0x40)) ∧
  decode atM2 (.event .hardReset) = .instr .hardreset ∧
  decode atM2 (.event (.canvasRead 5)) = .instr (.canvasread 5) ∧
  decode atM2 (.event (.canvasWrite 5 0x1AB)) = .instr (.canvaswrite 5 0xAB)

/-- Decode and encode agree, for every instruction: whatever its operands, a well-formed instruction that fits its context
is what its own encoding decodes to (R71, R77, R83). -/
def Obligations.DecodeOfEncodeIsTheInstruction : Prop :=
  ∀ (x : DecodeCtx) (i : Instr), i.wellFormed = true → i.fitsContext x = true → decode x (encode x i) = .instr i

/-- Whatever decodes is well formed and fits its context: a byte and a host event always, a code where the LZW registers
have the ranges of R138 and R24. -/
def Obligations.DecodedItemsAreWellFormed : Prop :=
  ∀ (x : DecodeCtx) (raw : RawItem) (i : Instr),
    (∀ c, raw = .code c → x.codesOk = true ∧ (x.prevValid = false → x.next.toNat = x.clear + 2)) →
    decode x raw = .instr i → i.wellFormed = true ∧ i.fitsContext x = true

/-- R77: every value of a code at every machine state is exactly one of the six classes, by the condition its row of the
table gives. -/
def Obligations.CodeClassesAreDisjointAndCover : Prop :=
  ∀ (x : DecodeCtx) (c : Code),
    (classify x c = .clr ↔ c.toNat = x.clear) ∧
    (classify x c = .endCode ↔ c.toNat = x.endVal) ∧
    (classify x c = .firstCode ↔
      c.toNat ≠ x.clear ∧ c.toNat ≠ x.endVal ∧ x.prevValid = false ∧ c.toNat < x.next.toNat) ∧
    (classify x c = .dictCode ↔
      c.toNat ≠ x.clear ∧ c.toNat ≠ x.endVal ∧ x.prevValid = true ∧ c.toNat < x.next.toNat) ∧
    (classify x c = .kwkwk ↔
      c.toNat ≠ x.clear ∧ c.toNat ≠ x.endVal ∧ x.prevValid = true ∧ c.toNat = x.next.toNat) ∧
    (classify x c = .bad ↔ c.toNat ≠ x.clear ∧ c.toNat ≠ x.endVal ∧
      (x.next.toNat < c.toNat ∨ c.toNat = x.next.toNat ∧ x.prevValid = false))

/-! ### The step -/

/-- One step takes the oldest pending host event and runs the instruction it decodes to; with no event pending nothing
happens, since the block never acts on its own (R9, R60; the pending events are log 1's). -/
def Obligations.StepRunsTheDecodedEvent : Prop :=
  ∀ s : State,
    (∀ e rest, s.inputs = e :: rest → step s = exec (decodeEvent e) { s with inputs := rest }) ∧
    (s.inputs = [] → step s = .next s)

/-- R95: PUSH is a write to DATA_IN with the byte in the low bits. Outside BUSY it is ignored and not counted; in BUSY it counts the byte and runs the item FSTATE makes it, and
POS keeps the incremented value whatever the item does, an error included. -/
def Obligations.PushCountsAndRunsTheItem : Prop :=
  ∀ (s : State) (b : Byte),
    (∀ v : Word, v.extractLsb' 0 8 = b → decodeEvent (.regWrite 0x03 v) = .push b) ∧
    (s.runState ≠ .busy → exec (.push b) s = .next s) ∧
    (s.runState = .busy →
      (s.fstate = .mcs → exec (.push b) s = exec (.mcs b) { s with pos := s.pos + 1 }) ∧
      (s.fstate = .len → b = 0 → exec (.push b) s = exec .sbterm { s with pos := s.pos + 1 }) ∧
      (s.fstate = .len → b ≠ 0 → exec (.push b) s = exec (.sblen b) { s with pos := s.pos + 1 }) ∧
      (s.fstate = .data → exec (.push b) s = exec (.sbdata b) { s with pos := s.pos + 1 }) ∧
      (∀ t, exec (.push b) s = .next t → t.pos = s.pos + 1))

/-- R116: while ENDED = 0 and at least WIDTH bits wait, the fetch loop takes the code `ACC[WIDTH-1:0]` out of the
accumulator, runs it, and goes on with the WIDTH the code left; otherwise it ends. The first argument bounds the rounds
(log 10). A code runs as the instruction it is classified to on the state before it (R125). -/
def Obligations.FetchLoopRunsTheClassifiedCode : Prop :=
  (∀ (n : Nat) (s : State), s.ended = false → s.width.toNat ≤ s.nbits.toNat →
    fetchLoop (n + 1) s =
      (execCode (BitVec.ofNat 12 (s.acc.toNat % 2 ^ s.width.toNat))
        { s with acc := s.acc >>> s.width.toNat, nbits := s.nbits - s.width.setWidth 5 }).bind (fetchLoop n)) ∧
  (∀ (n : Nat) (s : State), ¬ (s.ended = false ∧ s.width.toNat ≤ s.nbits.toNat) → fetchLoop (n + 1) s = .go s) ∧
  (∀ (c : Code) (s : State), (execCode c s).outcome = exec ((classify s.ctx c).toInstr c) s)

/-! ### Resets and commands -/

/-- R99: `HardReset` is accepted in every STATE, puts every register at the value in the column "after HardReset" of R38 and
every cell at 0, and leaves DICT unspecified. The form of "unspecified" in the last clause, a new free content for every
entry, is the model's choice (log 4). -/
def Obligations.HardResetSetsEverything : Prop :=
  ∀ s : State, ∃ t, exec .hardreset s = .next t ∧
    t.runState = .idle ∧ t.error = .success ∧ t.canvasW = 0 ∧ t.canvasH = 0 ∧ t.frameX = 0 ∧ t.frameY = 0 ∧
    t.frameW = 0 ∧ t.frameH = 0 ∧ t.interlace = false ∧ t.transpEn = false ∧ t.transpIdx = 0 ∧ t.pos = 0 ∧
    t.fstate = .mcs ∧ t.rem = 0 ∧ t.acc = 0 ∧ t.nbits = 0 ∧ t.m = 0 ∧ t.width = 0 ∧ t.next = 0 ∧ t.prev = 0 ∧
    t.prevValid = false ∧ t.ended = false ∧ t.pixcnt = 0 ∧ (∀ a, t.canvas.read a = 0) ∧
    (∀ c, t.dictAt c = freeDictEntry s.draws c)

/-- R97: the command RESET (low byte 3) is accepted in every STATE; it puts STATE, ERROR and the run registers at their
reset values and keeps the configuration, the canvas and the dictionary. It is the only command that leaves ERROR. -/
def Obligations.SoftResetKeepsConfigurationAndCanvas : Prop :=
  ∀ s : State,
    (∀ v : Word, v.extractLsb' 0 8 = (3 : Byte) → decodeEvent (.regWrite 0x00 v) = .reset) ∧
    exec .reset s = .next
      { s with
        runState := .idle, error := .success, pos := 0, fstate := .mcs, rem := 0, acc := 0, nbits := 0, m := 0,
        width := 0, next := 0, prev := 0, prevValid := false, ended := false, pixcnt := 0 } ∧
    (s.runState = .error → ∀ (v : Word) (t : State), v.extractLsb' 0 8 ≠ (3 : Byte) →
      exec (decodeEvent (.regWrite 0x00 v)) s = .next t → t.runState = .error)

/-- R94: START is the command 1. In BUSY or ERROR it is ignored; in IDLE or DONE it begins a frame, and its checks are made in the order
written on sums that do not wrap: FileTooWide, then DecodeError, then BUSY. -/
def Obligations.StartChecksThenBeginsAFrame : Prop :=
  ∀ s : State,
    (∀ v : Word, v.extractLsb' 0 8 = (1 : Byte) → decodeEvent (.regWrite 0x00 v) = .start) ∧
    (s.runState = .busy ∨ s.runState = .error → exec .start s = .next s) ∧
    (s.runState = .idle ∨ s.runState = .done →
      ((s.params.maxW < s.canvasW.toNat ∨ s.params.maxH < s.canvasH.toNat) →
        ∃ t, exec .start s = .next t ∧ ErrorEntry .fileTooWide { s with pos := 0, pixcnt := 0 } t) ∧
      (s.canvasW.toNat ≤ s.params.maxW → s.canvasH.toNat ≤ s.params.maxH →
        (s.canvasW.toNat < s.frameX.toNat + s.frameW.toNat ∨ s.canvasH.toNat < s.frameY.toNat + s.frameH.toNat) →
        ∃ t, exec .start s = .next t ∧ ErrorEntry .decodeError { s with pos := 0, pixcnt := 0 } t) ∧
      (s.canvasW.toNat ≤ s.params.maxW → s.canvasH.toNat ≤ s.params.maxH →
        s.frameX.toNat + s.frameW.toNat ≤ s.canvasW.toNat → s.frameY.toNat + s.frameH.toNat ≤ s.canvasH.toNat →
        exec .start s = .next
          { s with
            runState := .busy, pos := 0, pixcnt := 0, ended := false, prevValid := false, acc := 0, nbits := 0,
            rem := 0, fstate := .mcs }))

/-- R96: EOS is the command 2. In BUSY it raises EarlyEOF, always; in any other STATE it is ignored. -/
def Obligations.EosRaisesEarlyEof : Prop :=
  ∀ s : State,
    (∀ v : Word, v.extractLsb' 0 8 = (2 : Byte) → decodeEvent (.regWrite 0x00 v) = .eos) ∧
    (s.runState = .busy → ∃ t, exec .eos s = .next t ∧ ErrorEntry .earlyEOF s t) ∧
    (s.runState ≠ .busy → exec .eos s = .next s)

/-- R98: a write to CMD whose low byte is none of 1, 2, 3 is ignored in every STATE, and is the instruction CMD_RESERVED. -/
def Obligations.ReservedCommandsAreIgnored : Prop :=
  ∀ (s : State) (v : Word), v.setWidth 8 ≠ (1 : Byte) → v.setWidth 8 ≠ (2 : Byte) → v.setWidth 8 ≠ (3 : Byte) →
    decodeEvent (.regWrite 0x00 v) = .cmdReserved (v.setWidth 8) ∧
    exec (.cmdReserved (v.setWidth 8)) s = .next s

/-- R93: a write to a read-only register or to a number not in the map is ignored in every STATE, and is the instruction
ROWRITE. -/
def Obligations.ReadOnlyWritesAreIgnored : Prop :=
  ∀ (s : State) (n : Nat) (v : Word), n = 0x01 ∨ n = 0x02 ∨ 0x0C ≤ n →
    decodeEvent (.regWrite n v) = .rowrite (RegSel.ofNum n) v ∧ exec (.rowrite (RegSel.ofNum n) v) s = .next s

/-- R92: a write to a configuration register is ignored in BUSY; in any other STATE the register takes the low bits of the
value (16 bits, FRAME_FLAGS bits 1 and 0, TRANSP_IDX 8 bits), and nothing else changes, an error included. -/
def Obligations.ConfigWriteTakesTheLowBits : Prop :=
  ∀ (s : State) (v : Word),
    (s.runState = .busy → ∀ r, exec (.cfgwrite r v) s = .next s) ∧
    (s.runState ≠ .busy →
      exec (decodeEvent (.regWrite 0x04 v)) s = .next { s with canvasW := v.extractLsb' 0 16 } ∧
      exec (decodeEvent (.regWrite 0x05 v)) s = .next { s with canvasH := v.extractLsb' 0 16 } ∧
      exec (decodeEvent (.regWrite 0x06 v)) s = .next { s with frameX := v.extractLsb' 0 16 } ∧
      exec (decodeEvent (.regWrite 0x07 v)) s = .next { s with frameY := v.extractLsb' 0 16 } ∧
      exec (decodeEvent (.regWrite 0x08 v)) s = .next { s with frameW := v.extractLsb' 0 16 } ∧
      exec (decodeEvent (.regWrite 0x09 v)) s = .next { s with frameH := v.extractLsb' 0 16 } ∧
      exec (decodeEvent (.regWrite 0x0A v)) s = .next { s with interlace := v.getLsbD 0, transpEn := v.getLsbD 1 } ∧
      exec (decodeEvent (.regWrite 0x0B v)) s = .next { s with transpIdx := v.extractLsb' 0 8 })

/-! ### The error entry -/

/-- R163: `raise`, the block's one trap mechanism. ERROR takes the kind and STATE becomes ERROR; PIXCNT, POS, the
configuration and the canvas are kept, and so is everything the model keeps beside R20 but the count of free values; only
the registers R163 calls undefined may change. That M, WIDTH, NEXT and PREV are then the free values numbered from the count
of values drawn is the model's choice of a form for "undefined" (log 5, log 3). Nothing after the raise is executed. -/
def Obligations.RaiseEntersTheErrorState : Prop :=
  ∀ (e : ErrorKind) (s : State), ∃ t, raise e s = t ∧ t.error = e ∧ t.runState = .error ∧
    t = { s with
      error := t.error, runState := t.runState, m := t.m, width := t.width, next := t.next, prev := t.prev,
      prevValid := t.prevValid, ended := t.ended, dict := t.dict, dictEra := t.dictEra, fstate := t.fstate,
      rem := t.rem, acc := t.acc, nbits := t.nbits, draws := t.draws } ∧
    t.m = (Config.freeWord s.draws).setWidth 4 ∧ t.width = (Config.freeWord (s.draws + 1)).setWidth 4 ∧
    t.next = (Config.freeWord (s.draws + 2)).setWidth 13 ∧ t.prev = (Config.freeWord (s.draws + 3)).setWidth 12 ∧
    ∀ k, (Flow.raised t).bind k = .raised t

/-! ### Reads -/

/-- R91 and the register map of R32: RegRead is accepted in every STATE and returns the register zero-extended, 0 for a
write-only register and for a number not in the map; nothing but the list of returned values changes. In IDLE, under the
invariant, PREV reads 0, the value R38 gives it; that R38 and not U3 decides there is the model's reading (log 7). The registers
that read as any value in other states are in `UndefinedReadsGiveSomeValue`, STATUS in `StatusShowsTheFlags`. -/
def Obligations.RegisterReadsReturnTheRegister : Prop :=
  ∀ s : State,
    let gives (n : Nat) (v : Word) : Prop :=
      exec (decodeEvent (.regRead n)) s = .next { s with returned := s.returned ++ [.reg (RegSel.ofNum n) v] }
    gives 0x00 0 ∧ gives 0x03 0 ∧ (∀ n, 0x11 < n → gives n 0) ∧
    gives 0x02 (s.error.num.setWidth 32) ∧
    gives 0x04 (s.canvasW.setWidth 32) ∧ gives 0x05 (s.canvasH.setWidth 32) ∧
    gives 0x06 (s.frameX.setWidth 32) ∧ gives 0x07 (s.frameY.setWidth 32) ∧
    gives 0x08 (s.frameW.setWidth 32) ∧ gives 0x09 (s.frameH.setWidth 32) ∧
    gives 0x0A (BitVec.ofNat 32 (s.interlace.toNat + 2 * s.transpEn.toNat)) ∧
    gives 0x0B (s.transpIdx.setWidth 32) ∧ gives 0x0C s.pixcnt ∧ gives 0x0D s.pos ∧
    (s.runState ≠ .error → ¬ (s.runState = .busy ∧ s.fstate = .mcs) →
      gives 0x0E (s.m.setWidth 32) ∧ gives 0x0F (s.width.setWidth 32) ∧ gives 0x10 (s.next.setWidth 32)) ∧
    (s.runState ≠ .error → s.prevValid = true → gives 0x11 (s.prev.setWidth 32)) ∧
    (MachineInv s → s.runState = .idle → gives 0x11 0)

/-- R33: the fields of STATUS as RegRead returns them: STATE, ENDED, PREV_VALID, FSTATE, and zeros; after an error bits 5:2
are any value and the rest is defined. Reading it changes nothing but the list of returned values (after an error also
the count of free values drawn, log 3). -/
def Obligations.StatusShowsTheFlags : Prop :=
  ∀ s : State, ∃ v t, exec (.regread (.reg .status)) s = .next t ∧
    t = { s with returned := s.returned ++ [.reg (.reg .status) v], draws := t.draws } ∧
    v.extractLsb' 0 2 = s.runState.num ∧ v.extractLsb' 6 26 = 0 ∧
    (s.runState ≠ .error →
      t.draws = s.draws ∧ v.getLsbD 2 = s.ended ∧ v.getLsbD 3 = s.prevValid ∧ v.extractLsb' 4 2 = s.fstate.num)

/-- Where the spec says a register reads as any value (R33, U2; U3; U4) the read completes with some value of the
register's width and changes nothing else but the count of free values drawn, so that two reads need not agree (log 3,
log 7, log 8). -/
def Obligations.UndefinedReadsGiveSomeValue : Prop :=
  ∀ (s : State) (r : RegName) (w : Nat),
    ((r = .mincode ∧ w = 4 ∨ r = .width ∧ w = 4 ∨ r = .next ∧ w = 13) ∧
        (s.runState = .error ∨ s.runState = .busy ∧ s.fstate = .mcs) ∨
      r = .prev ∧ w = 12 ∧ (s.runState = .error ∨ s.prevValid = false ∧ s.runState ≠ .idle)) →
    ∃ v : Word, v.toNat < 2 ^ w ∧
      exec (.regread (.reg r)) s =
        .next { s with returned := s.returned ++ [.reg (.reg r) v], draws := s.draws + 1 }

/-- R100: the canvas port. Both events are refused while BUSY and at an address that does not exist; otherwise a read
returns the cell and changes nothing else, and a write stores the low 8 bits in that cell and in no other, with no CW
event. -/
def Obligations.CanvasPortReadsAndWritesOneCell : Prop :=
  ∀ (s : State) (a : Nat) (v : Word), s.canvas.wf = true →
    (s.runState = .busy → exec (decodeEvent (.canvasRead a)) s = .refused .canvasPortBusy ∧
      exec (decodeEvent (.canvasWrite a v)) s = .refused .canvasPortBusy) ∧
    (s.runState ≠ .busy → s.params.maxW * s.params.maxH ≤ a →
      exec (decodeEvent (.canvasRead a)) s = .refused .canvasPortAddress ∧
      exec (decodeEvent (.canvasWrite a v)) s = .refused .canvasPortAddress) ∧
    (s.runState ≠ .busy → a < s.params.maxW * s.params.maxH →
      exec (decodeEvent (.canvasRead a)) s =
        .next { s with returned := s.returned ++ [.cell a (s.canvas.read a)] } ∧
      ∃ t, exec (decodeEvent (.canvasWrite a v)) s = .next t ∧ t = { s with canvas := t.canvas } ∧
        t.canvas.read a = v.extractLsb' 0 8 ∧ ∀ b, b ≠ a → t.canvas.read b = s.canvas.read b)

/-! ### The byte-level items -/

/-- R111: the minimum-code-size byte. From 2 to 8 it sets M, runs `lzw_init` and moves to `F_LEN`; any other value raises
DecodeError. -/
def Obligations.McsByteSetsTheCodeSize : Prop :=
  ∀ (s : State) (b : Byte),
    (2 ≤ b.toNat → b.toNat ≤ 8 → ∃ t, exec (.mcs b) s = .next t ∧
      t = { s with m := t.m, width := t.width, next := t.next, prevValid := false, fstate := .len } ∧
      t.m.toNat = b.toNat ∧ t.width.toNat = b.toNat + 1 ∧ t.next.toNat = 2 ^ b.toNat + 2) ∧
    (b.toNat < 2 ∨ 8 < b.toNat → ∃ t, exec (.mcs b) s = .next t ∧ ErrorEntry .decodeError s t)

/-- R112: a sub-block length sets REM and moves to `F_DATA`; ACC and NBITS are not touched, nor anything else. -/
def Obligations.SblenSetsRem : Prop :=
  ∀ (s : State) (b : Byte), b ≠ 0 → exec (.sblen b) s = .next { s with rem := b, fstate := .data }

/-- R113: the terminator completes the frame when END was seen, and raises DecodeError when it was not. -/
def Obligations.SbtermCompletesOrFails : Prop :=
  ∀ s : State,
    (s.ended = true → exec .sbterm s = .next { s with runState := .done }) ∧
    (s.ended = false → ∃ t, exec .sbterm s = .next t ∧ ErrorEntry .decodeError s t)

/-- R114: a data byte is first counted in REM, FSTATE going back to `F_LEN` with the last byte of the sub-block; then it is
fed to the bitstream, unless END has been seen, when it is otherwise ignored whatever its value (R25, R82, R118). -/
def Obligations.DataByteIsCountedThenFed : Prop :=
  ∀ (s : State) (b : Byte), 1 ≤ s.rem.toNat → s.fstate = .data → ∃ u,
    u = { s with rem := u.rem, fstate := u.fstate } ∧ u.rem.toNat = s.rem.toNat - 1 ∧
    (s.rem.toNat = 1 → u.fstate = .len) ∧ (s.rem.toNat ≠ 1 → u.fstate = .data) ∧
    (s.ended = true → exec (.sbdata b) s = .next u) ∧
    (s.ended = false → exec (.sbdata b) s = (feed b u).outcome)

/-- R114 with R115 and R116 while no code is complete: a data byte is counted, its bits join the ones waiting, and nothing
else changes. -/
def Obligations.DataByteWaitsForItsCode : Prop :=
  ∀ (s : State) (b : Byte), s.ended = false → 1 ≤ s.rem.toNat → s.fstate = .data →
    s.acc.toNat < 2 ^ s.nbits.toNat → s.nbits.toNat + 8 < s.width.toNat → s.width.toNat ≤ 12 →
    ∃ t, exec (.sbdata b) s = .next t ∧
      t = { s with rem := t.rem, fstate := t.fstate, acc := t.acc, nbits := t.nbits } ∧
      t.rem.toNat = s.rem.toNat - 1 ∧ (s.rem.toNat = 1 → t.fstate = .len) ∧ (s.rem.toNat ≠ 1 → t.fstate = .data) ∧
      t.nbits.toNat = s.nbits.toNat + 8 ∧ t.acc.toNat = s.acc.toNat + b.toNat * 2 ^ s.nbits.toNat

/-- R114, R115, R116, R195: under the invariants a data byte always completes: the bookkeeping is done, the codes it completes run, and
the byte ends either with fewer than WIDTH bits waiting or END executed, or with DecodeError raised after a first part of
the indices. -/
def Obligations.DataByteRunsItsCodesToCompletion : Prop :=
  ∀ (s : State) (b : Byte), MachineInv s → s.runState = .busy → s.fstate = .data → s.ended = false →
    ∃ t, exec (.sbdata b) s = .next t ∧ SameConfig s t ∧ t.pos = s.pos ∧ SameHost s t ∧
      (t.runState = .busy ∧ t.error = s.error ∧ t.m = s.m ∧ t.rem.toNat = s.rem.toNat - 1 ∧
          (t.fstate = .len ↔ s.rem.toNat = 1) ∧ (t.ended = false → t.nbits.toNat < t.width.toNat) ∧
          (t.ended = true → t.pixcnt.toNat = t.framePixels) ∨
        t.runState = .error ∧ t.error = .decodeError)

/-- PUSH completes with each item's own effect (R95 with R111, R112, R113, R114): the byte is counted in POS and the item
does what it does on its own. -/
def Obligations.PushCompletesEachItem : Prop :=
  ∀ (s : State) (b : Byte), s.runState = .busy →
    (s.fstate = .mcs → 2 ≤ b.toNat → b.toNat ≤ 8 →
      exec (.push b) s = .next
        { s with
          pos := s.pos + 1, m := b.setWidth 4, width := BitVec.ofNat 4 (b.toNat + 1),
          next := BitVec.ofNat 13 (2 ^ b.toNat + 2), prevValid := false, fstate := .len }) ∧
    (s.fstate = .len → b ≠ 0 → exec (.push b) s = .next { s with pos := s.pos + 1, rem := b, fstate := .data }) ∧
    (s.fstate = .len → b = 0 → s.ended = true → exec (.push b) s = .next { s with pos := s.pos + 1, runState := .done }) ∧
    (s.fstate = .data → s.ended = true → exec (.push b) s = .next
      { s with pos := s.pos + 1, rem := s.rem - 1, fstate := if s.rem = 1 then .len else .data })

/-! ### The bitstream -/

/-- R115: `feed` puts the new byte above the payload bits already waiting, its bit 0 first, counts eight more bits, changes
nothing else, and then runs the fetch loop with rounds for every bit. -/
def Obligations.FeedAppendsTheBitsOfTheByte : Prop :=
  ∀ (s : State) (b : Byte), s.nbits.toNat ≤ 11 → s.acc.toNat < 2 ^ s.nbits.toNat → ∃ u,
    u = { s with acc := u.acc, nbits := u.nbits } ∧ u.nbits.toNat = s.nbits.toNat + 8 ∧
    u.waiting = s.waiting ++ byteBits b ∧ feed b s = fetchLoop (u.nbits.toNat + 1) u

/-- R74 and R55: a fetch takes the WIDTH oldest payload bits, the first of them the code's least significant bit, and
leaves the others waiting in order. -/
def Obligations.FetchTakesTheOldestBits : Prop :=
  ∀ s : State, s.width.toNat ≤ 12 → s.width.toNat ≤ s.nbits.toNat → s.nbits.toNat ≤ 19 →
    codeBits s.width.toNat (nextCode s) = s.waiting.take s.width.toNat ∧
    (nextCode s).toNat < 2 ^ s.width.toNat ∧
    (dropCode s).waiting = s.waiting.drop s.width.toNat

/-- R117: codes span sub-block boundaries. Two states that differ only in where the byte stream stands (POS, REM, FSTATE)
stay so through the same data byte, and a sub-block length changes nothing but that. -/
def Obligations.SubBlockBoundariesDoNotReachTheCodes : Prop :=
  ∀ (s u : State) (b : Byte), SameButFraming s u →
    (∀ t, exec (.sbdata b) s = .next t → ∃ v, exec (.sbdata b) u = .next v ∧ SameButFraming t v) ∧
    (∀ t, exec (.sblen b) u = .next t → SameButFraming s t)

/-! ### The codes -/

/-- R128: CLR resets NEXT, WIDTH and PREV_VALID and nothing else, so that the state after it is the state after
`lzw_init` (R26). -/
def Obligations.ClearRestartsTheDictionary : Prop :=
  ∀ s : State,
    exec .clr s = .next
      { s with next := BitVec.ofNat 13 (2 ^ s.m.toNat + 2), width := s.m + 1, prevValid := false } ∧
    exec .clr s = .next (lzwInit s)

/-- R129: END sets ENDED and nothing else when every pixel was delivered, and raises DecodeError otherwise; the product
does not wrap. Once ENDED is set no more bits are taken, so those left are discarded. -/
def Obligations.EndNeedsAFullFrame : Prop :=
  ∀ s : State,
    (s.pixcnt.toNat = s.frameW.toNat * s.frameH.toNat → exec .endCode s = .next { s with ended := true }) ∧
    (s.pixcnt.toNat ≠ s.frameW.toNat * s.frameH.toNat →
      ∃ t, exec .endCode s = .next t ∧ ErrorEntry .decodeError s t) ∧
    (∀ n, fetchLoop (n + 1) { s with ended := true } = .go { s with ended := true })

/-- R146 and R148, `emit_index`: on a full frame DecodeError, the index neither traced nor written; otherwise the index is
traced, written at its cell unless it is the transparent one, and counted. -/
def Obligations.EmitIndexPlacesOneIndex : Prop :=
  ∀ (s : State) (v : Byte), FrameOk s →
    (s.pixcnt.toNat = s.framePixels → ∃ t, emitIndex v s = .raised t ∧ ErrorEntry .decodeError s t) ∧
    (s.pixcnt.toNat < s.framePixels → s.transpEn = true → v = s.transpIdx →
      emitIndex v s = .go { s with idxTrace := s.idxTrace ++ [v], pixcnt := s.pixcnt + 1 }) ∧
    (s.pixcnt.toNat < s.framePixels → ¬ (s.transpEn = true ∧ v = s.transpIdx) →
      let col := s.pixcnt.toNat % s.frameW.toNat
      let k := s.pixcnt.toNat / s.frameW.toNat
      let row := if s.interlace then ilrow k s.frameH.toNat else k
      let a := (s.frameY.toNat + row) * s.canvasW.toNat + (s.frameX.toNat + col)
      emitIndex v s = .go
        { s with
          idxTrace := s.idxTrace ++ [v], pixcnt := s.pixcnt + 1, canvas := s.canvas.write a v,
          cwTrace := s.cwTrace ++ [(a, v)] })

/-- R136 and R170: `emit` on a frame inside its canvas. With room it accepts every index; without, the ones that fit, and
then raises DecodeError. -/
def Obligations.EmitDeliversWhatFits : Prop :=
  ∀ (s : State) (ix : List Byte), FrameOk s →
    (s.pixcnt.toNat + ix.length ≤ s.framePixels → emit ix s = .go (s.accept ix)) ∧
    (s.framePixels < s.pixcnt.toNat + ix.length → ∃ t, emit ix s = .raised t ∧
      ErrorEntry .decodeError (s.accept (ix.take (s.framePixels - s.pixcnt.toNat))) t ∧
      t.pixcnt.toNat = s.framePixels)

/-- R148, R155: the accepted indices stand in the canvas: each cell an index goes to holds it, unless it is transparent,
when the cell holds what it held; every other cell holds what it held. -/
def Obligations.AcceptedIndicesStandInTheCanvas : Prop :=
  ∀ (s : State) (ix : List Byte), FrameOk s → s.canvas.wf = true → s.pixcnt.toNat + ix.length ≤ s.framePixels →
    (∀ j v, ix[j]? = some v →
      (s.accept ix).canvas.read (s.indexAddr (s.pixcnt.toNat + j)) =
        if s.transparent v then s.canvas.read (s.indexAddr (s.pixcnt.toNat + j)) else v) ∧
    (∀ a, (∀ j, j < ix.length → s.indexAddr (s.pixcnt.toNat + j) ≠ a) →
      (s.accept ix).canvas.read a = s.canvas.read a)

/-- R130: FIRST emits the one index, remembers the code, and inserts nothing; on a full frame DecodeError. -/
def Obligations.FirstEmitsOneIndex : Prop :=
  ∀ (s : State) (c : Code), FrameOk s → s.prevValid = false → 2 ≤ s.m.toNat → s.m.toNat ≤ 8 → c.toNat < s.clear →
    (s.pixcnt.toNat < s.framePixels →
      exec (.firstCode c) s = .next { s.accept [BitVec.ofNat 8 c.toNat] with prev := c, prevValid := true }) ∧
    (s.pixcnt.toNat = s.framePixels → ∃ t, exec (.firstCode c) s = .next t ∧ ErrorEntry .decodeError s t)

/-- R133 and R134: `insert` on a dictionary that is not full writes the entry (PREV, k) at NEXT, counts NEXT, grows WIDTH
exactly when the new NEXT is 2^WIDTH and WIDTH is below 12, and changes nothing else; on a full dictionary it changes
nothing. -/
def Obligations.InsertDefinesOneEntry : Prop :=
  ∀ (s : State) (k : Byte),
    (s.next.toNat ≤ 4095 → ∃ t, insert k s = t ∧
      t = { s with dict := t.dict, next := t.next, width := t.width } ∧
      t.next.toNat = s.next.toNat + 1 ∧
      t.dictAt s.next.toNat = { prefixCode := s.prev, suffix := k } ∧
      (∀ c, c ≠ s.next.toNat → t.dictAt c = s.dictAt c) ∧
      (s.next.toNat + 1 = 2 ^ s.width.toNat → s.width.toNat < 12 → t.width.toNat = s.width.toNat + 1) ∧
      (¬ (s.next.toNat + 1 = 2 ^ s.width.toNat ∧ s.width.toNat < 12) → t.width = s.width)) ∧
    (4095 < s.next.toNat → insert k s = s)

/-- R126: the expansion of a defined code. A singleton stands for itself; any other code for its prefix's expansion and
then its suffix. It is not empty, its indices are below CLEAR, and it has at most 4095 - CLEAR of them. -/
def Obligations.ExpansionFollowsThePrefixChain : Prop :=
  ∀ (s : State) (c : Code), LzwOk s → c.toNat < s.next.toNat → s.plain c.toNat →
    ∃ ix, expOf s c = some ix ∧ ix ≠ [] ∧ (∀ v ∈ ix, v.toNat < s.clear) ∧ ix.length ≤ 4095 - s.clear ∧
      (c.toNat < s.clear → ix = [BitVec.ofNat 8 c.toNat]) ∧
      (s.clear ≤ c.toNat → ∃ jx, expOf s (s.dictAt c.toNat).prefixCode = some jx ∧
        ix = jx ++ [(s.dictAt c.toNat).suffix])

/-- R127: `first(c)` is the first index of `exp(c)`. -/
def Obligations.FirstIsTheHeadOfTheExpansion : Prop :=
  ∀ (s : State) (c : Code), LzwOk s → c.toNat < s.next.toNat → s.plain c.toNat →
    ∃ k ix, expOf s c = some (k :: ix) ∧ firstOf s c = some k

/-- R131: DICT emits the expansion of its code, inserts (PREV, first index) unless the dictionary is full, and remembers
the code. On an index beyond the frame DecodeError, with the indices that fit placed (R170). -/
def Obligations.DictEmitsAndInserts : Prop :=
  ∀ (s : State) (c : Code), LzwOk s → FrameOk s → s.prevValid = true → c.toNat < s.next.toNat → s.plain c.toNat →
    ∃ k ix, expOf s c = some (k :: ix) ∧
      (s.pixcnt.toNat + (ix.length + 1) ≤ s.framePixels →
        exec (.dictCode c) s = .next { (insert k s).accept (k :: ix) with prev := c }) ∧
      (s.framePixels < s.pixcnt.toNat + (ix.length + 1) →
        ∃ t, exec (.dictCode c) s = .next t ∧
          ErrorEntry .decodeError (s.accept ((k :: ix).take (s.framePixels - s.pixcnt.toNat))) t)

/-- R132: KWKWK emits PREV's expansion and its first index again, inserts (PREV, that index), and remembers the code;
afterwards the code's own expansion is what was emitted. On an index beyond the frame DecodeError, with the indices that
fit placed (R170). -/
def Obligations.KwkwkEmitsAndInserts : Prop :=
  ∀ (s : State) (c : Code), LzwOk s → FrameOk s → s.prevValid = true → c.toNat = s.next.toNat →
    ∃ k ix, expOf s s.prev = some (k :: ix) ∧
      (s.pixcnt.toNat + (ix.length + 2) ≤ s.framePixels → ∃ t,
        exec (.kwkwk c) s = .next t ∧ t = { (insert k s).accept (k :: ix ++ [k]) with prev := c } ∧
        expOf t c = some (k :: ix ++ [k])) ∧
      (s.framePixels < s.pixcnt.toNat + (ix.length + 2) →
        ∃ t, exec (.kwkwk c) s = .next t ∧
          ErrorEntry .decodeError (s.accept ((k :: ix ++ [k]).take (s.framePixels - s.pixcnt.toNat))) t)

/-- R135: BAD raises DecodeError: no index, no entry, the canvas as it was. -/
def Obligations.BadCodeRaisesDecodeError : Prop :=
  ∀ (s : State) (c : Code), ∃ t, exec (.bad c) s = .next t ∧ ErrorEntry .decodeError s t

/-- The frame of the emitting codes (R130, R131, R132), and of SBDATA and PUSH which run them: whatever way they end,
the configuration, the host's side and the parameters are unchanged, POS changes only by PUSH, and every canvas cell is
unchanged but the cells of the index numbers accepted, whose addresses are those of `position` (R146, R147). -/
def Obligations.CodesChangeOnlyTheirPixels : Prop :=
  ∀ (s t : State) (i : Instr), s.canvas.wf = true →
    ((∃ c, i = .firstCode c) ∨ (∃ c, i = .dictCode c) ∨ (∃ c, i = .kwkwk c) ∨ (∃ b, i = .sbdata b) ∨
      (∃ b, i = .push b)) →
    exec i s = .next t →
    SameConfig s t ∧ SameHost s t ∧ ((∀ b, i ≠ .push b) → t.pos = s.pos) ∧ t.canvas.wf = true ∧
      s.pixcnt.toNat ≤ t.pixcnt.toNat ∧
      ∀ a, (∀ n, s.pixcnt.toNat ≤ n → n < t.pixcnt.toNat → s.indexAddr n ≠ a) → t.canvas.read a = s.canvas.read a

/-- R10, R63: a byte's whole effect on what is observable. Whatever a PUSH does, the indices it appends to the IDX trace
are the ones PIXCNT counts, the canvas writes it appends to the CW trace are those indices' writes in order, without the
transparent ones, and the canvas is the old one with exactly those writes made. -/
def Obligations.PushIsTheBlitOfItsIndices : Prop :=
  ∀ (s t : State) (b : Byte), exec (.push b) s = .next t →
    ∃ ix, t.idxTrace = s.idxTrace ++ ix ∧ t.pixcnt.toNat = s.pixcnt.toNat + ix.length ∧
      t.cwTrace = s.cwTrace ++ s.blitWrites s.pixcnt.toNat ix ∧
      t.canvas = s.canvas.writeAll (s.blitWrites s.pixcnt.toNat ix)

/-- R22 and R75: WIDTH never decreases except via Clear: a code that is not CLR and raises nothing leaves WIDTH as it was
or one larger, and NEXT likewise. -/
def Obligations.WidthGrowsByAtMostOne : Prop :=
  ∀ (s t : State) (c : Code), LzwOk s → c.toNat ≠ s.clear → execCode c s = .go t →
    (t.width.toNat = s.width.toNat ∨ t.width.toNat = s.width.toNat + 1) ∧
    (t.next.toNat = s.next.toNat ∨ t.next.toNat = s.next.toNat + 1)

/-- R36, R24, D29: what lies in DICT outside the defined entries, and in PREV while no previous code is defined, is never
read: two states that differ only there give the same canvas, traces, counters, flags and errors on any stream byte, and
differ again only there. So decoding after a Clear matches decoding from a fresh start (R26). -/
def Obligations.StaleDictionaryIsNeverRead : Prop :=
  ∀ (s u : State) (b : Byte), MachineInv s → s.runState = .busy → SameLive s u →
    ∃ t v, exec (.push b) s = .next t ∧ exec (.push b) u = .next v ∧ SameLive t v

/-! ### The BLIT stage -/

/-- R150: `ilrow` sends the decoded rows 0 to H-1 onto the rows 0 to H-1, each once, in pass order and within a pass from
top to bottom, which determines it. -/
def Obligations.InterlacePermutesTheRows : Prop :=
  ∀ h : Nat,
    (∀ k, k < h → ilrow k h < h) ∧
    (∀ j k, j < k → k < h → rowPass (ilrow j h) < rowPass (ilrow k h) ∨
      rowPass (ilrow j h) = rowPass (ilrow k h) ∧ ilrow j h < ilrow k h) ∧
    (∀ row, row < h → ∃ k, k < h ∧ ilrow k h = row)

/-- R152: the incremental cursor is at the column and row that the closed form of `position` (R147) gives, for every index
number of the frame. -/
def Obligations.IncrementalCursorAgreesWithPosition : Prop :=
  ∀ (w h n : Nat) (interlace : Bool), n < w * h →
    (RowCursor.after w h interlace n).col = n % w ∧
    (RowCursor.after w h interlace n).row = if interlace then ilrow (n / w) h else n / w

/-- R149: in a frame that START accepted, every address `emit_index` writes is a pixel of the canvas. -/
def Obligations.EveryPixelAddressIsInTheCanvas : Prop :=
  ∀ (s : State) (n : Nat), FrameOk s → n < s.framePixels →
    s.indexAddr n < s.canvasW.toNat * s.canvasH.toNat ∧
    s.canvasW.toNat * s.canvasH.toNat ≤ s.params.maxW * s.params.maxH

/-- R155: a frame as drawn. START begins one with nothing drawn; every PUSH keeps it, errors included (R167); and when the
terminator makes the frame DONE it has exactly FRAME_W * FRAME_H indices. Each cell a non-transparent index goes to holds
it, every other cell holds what it held before START. -/
def Obligations.FrameIsDrawnFromItsIndices : Prop :=
  (∀ s t, s.runState = .idle ∨ s.runState = .done → exec .start s = .next t → t.runState = .busy →
    FrameDrawn s.canvas s.idxTrace t) ∧
  (∀ c0 t0 s b t, MachineInv s → s.runState = .busy → FrameDrawn c0 t0 s → exec (.push b) s = .next t →
    FrameDrawn c0 t0 t ∧ (t.runState = .done → t.pixcnt.toNat = t.framePixels))

/-- R53, R148: the block never reads the canvas. On another canvas the same PUSH does the same, and makes the same writes
there. -/
def Obligations.CanvasIsNeverRead : Prop :=
  ∀ (s t : State) (b : Byte) (other : Memory) (ws : List (Nat × Byte)), exec (.push b) s = .next t →
    t.cwTrace = s.cwTrace ++ ws →
    exec (.push b) { s with canvas := other } = .next { t with canvas := other.writeAll ws }

/-! ### The whole machine -/

/-- R101: the transitions of STATE, complete: from each STATE, each host event leads only where the table says. -/
def Obligations.StateMovesOnlyAsTheDiagramSays : Prop :=
  ∀ (s t : State) (e : HostEvent) (rest : List HostEvent), s.inputs = e :: rest → step s = .next t →
    (decodeEvent e = .hardreset ∨ decodeEvent e = .reset → t.runState = .idle) ∧
    (decodeEvent e ≠ .hardreset → decodeEvent e ≠ .reset →
      (s.runState = .error → t.runState = .error) ∧
      (s.runState = .idle ∨ s.runState = .done →
        (decodeEvent e = .start → t.runState = .busy ∨ t.runState = .error) ∧
        (decodeEvent e ≠ .start → t.runState = s.runState)) ∧
      (s.runState = .busy →
        (∀ b, decodeEvent e = .push b → t.runState = .busy ∨ t.runState = .error ∧ t.error = .decodeError ∨
          t.runState = .done ∧ s.fstate = .len ∧ b = 0 ∧ s.ended = true) ∧
        (decodeEvent e = .eos → t.runState = .error ∧ t.error = .earlyEOF) ∧
        ((∀ b, decodeEvent e ≠ .push b) → decodeEvent e ≠ .eos → t.runState = .busy)))

/-- R162: nothing else raises an error. A step that enters ERROR is a START whose first check (E1) or second check (E2)
fails, an EOS in BUSY (E8), or a byte pushed in BUSY: a minimum code size out of range (E3), a terminator before END (E7),
or a data byte before END. Then the fetch loop of that very byte comes to a state `u` whose next code `c` raises, and
that code, in the state `w` it runs in, is BAD (E4), END too early (E6), or delivers more indices than the frame has room
for, which fill the frame (E5). -/
def Obligations.ErrorsHaveOnlyTheListedCauses : Prop :=
  ∀ (s t : State) (e : HostEvent) (rest : List HostEvent), s.runState ≠ .error → s.inputs = e :: rest →
    step s = .next t → t.runState = .error →
    (decodeEvent e = .start ∧ t.error = .fileTooWide ∧
        (s.params.maxW < s.canvasW.toNat ∨ s.params.maxH < s.canvasH.toNat)) ∨
    (decodeEvent e = .start ∧ t.error = .decodeError ∧
        (s.canvasW.toNat < s.frameX.toNat + s.frameW.toNat ∨ s.canvasH.toNat < s.frameY.toNat + s.frameH.toNat)) ∨
    (decodeEvent e = .eos ∧ s.runState = .busy ∧ t.error = .earlyEOF) ∨
    ∃ b, decodeEvent e = .push b ∧ s.runState = .busy ∧ t.error = .decodeError ∧
      (s.fstate = .mcs ∧ (b.toNat < 2 ∨ 8 < b.toNat) ∨
        s.fstate = .len ∧ b = 0 ∧ s.ended = false ∨
        s.fstate = .data ∧ s.ended = false ∧
          ∃ u c w, FetchReaches (addByte b (countData (countByte { s with inputs := rest }))) u ∧
            u.ended = false ∧ u.width.toNat ≤ u.nbits.toNat ∧ c = nextCode u ∧ w = dropCode u ∧
            execCode c w = .raised t ∧ CodeError c w ∧
            (classify w.ctx c = .firstCode ∨ classify w.ctx c = .dictCode ∨ classify w.ctx c = .kwkwk →
              t.pixcnt.toNat = t.framePixels))

/-- R171: errors do not nest. RESET and `HardReset` clear the error and put the block in IDLE; in ERROR every other event
keeps STATE and the first error, the canvas but for the host's own writes, PIXCNT and POS, and START, PUSH and EOS are
ignored. -/
def Obligations.ErrorStaysUntilReset : Prop :=
  ∀ (s t : State) (e : HostEvent) (rest : List HostEvent), s.runState = .error → s.inputs = e :: rest →
    step s = .next t →
    (decodeEvent e = .hardreset ∨ decodeEvent e = .reset → t.runState = .idle ∧ t.error = .success) ∧
    (decodeEvent e = .start ∨ decodeEvent e = .eos ∨ (∃ b, decodeEvent e = .push b) → t = { s with inputs := rest }) ∧
    (decodeEvent e ≠ .hardreset → decodeEvent e ≠ .reset →
      t.runState = .error ∧ t.error = s.error ∧ t.pixcnt = s.pixcnt ∧ t.pos = s.pos ∧ t.idxTrace = s.idxTrace ∧
      t.cwTrace = s.cwTrace ∧ ((∀ a v, decodeEvent e ≠ .canvaswrite a v) → t.canvas = s.canvas))

/-- R190: the configuration is frozen while BUSY: a write to registers 0x04 to 0x0B is ignored there, it changes nothing but
that the event is taken, and only `HardReset` changes the configuration; and in any STATE only `HardReset` and a
configuration write do. MAX_W and MAX_H never change (R8). -/
def Obligations.ConfigurationIsFrozenWhileBusy : Prop :=
  ∀ (s t : State) (e : HostEvent) (rest : List HostEvent), s.inputs = e :: rest → step s = .next t →
    t.params = s.params ∧
    (∀ n v, 0x04 ≤ n → n ≤ 0x0B → e = .regWrite n v → s.runState = .busy → t = { s with inputs := rest }) ∧
    (decodeEvent e ≠ .hardreset → s.runState = .busy ∨ (∀ r v, decodeEvent e ≠ .cfgwrite r v) → SameConfig s t)

/-- R28: POS only moves forward inside a frame: an accepted PUSH adds 1 modulo 2^32; apart from PUSH only START that is
accepted, RESET and `HardReset` change it, to 0. -/
def Obligations.PosCountsAcceptedBytes : Prop :=
  ∀ (s t : State) (e : HostEvent) (rest : List HostEvent), s.inputs = e :: rest → step s = .next t →
    (∀ b, decodeEvent e = .push b → t.pos = if s.runState = .busy then s.pos + 1 else s.pos) ∧
    (decodeEvent e = .hardreset ∨ decodeEvent e = .reset → t.pos = 0) ∧
    (decodeEvent e = .start → t.pos = if s.runState = .idle ∨ s.runState = .done then 0 else s.pos) ∧
    ((∀ b, decodeEvent e ≠ .push b) → decodeEvent e ≠ .hardreset → decodeEvent e ≠ .reset → decodeEvent e ≠ .start →
      t.pos = s.pos)

/-- R151: in a zero-pixel frame the first index of any emitting code raises DecodeError, the canvas is not written, and END
is legal at once. -/
def Obligations.ZeroPixelFrameTakesNoIndex : Prop :=
  ∀ (s : State) (c : Code), LzwOk s → FrameOk s → s.framePixels = 0 →
    (classify s.ctx c = .firstCode ∨ classify s.ctx c = .dictCode ∨ classify s.ctx c = .kwkwk →
      ∃ t, exec ((classify s.ctx c).toInstr c) s = .next t ∧ ErrorEntry .decodeError s t) ∧
    exec .endCode s = .next { s with ended := true }

/-- The invariant holds at reset. -/
def Obligations.InvHoldsAtReset : Prop := MachineInv State.reset

/-- Every host event keeps the invariant: R138, R24, R37 for the LZW stage, R29 for the accumulator, R34 for STATE and
ERROR, R149 and R153 for the frame, the canonical form of the canvas. From every state that has it, not only from reset. -/
def Obligations.StepKeepsInv : Prop :=
  ∀ s t : State, MachineInv s → step s = .next t → MachineInv t

/-- R195: every accepted host event completes. Under the invariant no step ends in a fault, and a step is refused only for
a canvas port event while BUSY or at an address that does not exist (R191). -/
def Obligations.EveryAcceptedEventCompletes : Prop :=
  ∀ s : State, MachineInv s →
    (∃ t, step s = .next t) ∨
    (step s = .refused .canvasPortBusy ∧ s.runState = .busy ∧
      ∃ a rest, s.inputs = .canvasRead a :: rest ∨ ∃ v, s.inputs = .canvasWrite a v :: rest) ∨
    (step s = .refused .canvasPortAddress ∧ s.runState ≠ .busy ∧
      ∃ a rest, s.canvasCells ≤ a ∧ (s.inputs = .canvasRead a :: rest ∨ ∃ v, s.inputs = .canvasWrite a v :: rest))

end
end

