-- ==== Sys2Proof/Laws/State.lean ====
section
/-! SUPPORT. The fields of the state after each named update: one lemma a field and an update, each true by `rfl`. -/

namespace Sys2Proof.Machine

/-! ### lzwInit -/

section
variable (s : State)

@[simp] theorem lzwInit_runState : (lzwInit s).runState = s.runState := rfl
@[simp] theorem lzwInit_error : (lzwInit s).error = s.error := rfl
@[simp] theorem lzwInit_canvasW : (lzwInit s).canvasW = s.canvasW := rfl
@[simp] theorem lzwInit_canvasH : (lzwInit s).canvasH = s.canvasH := rfl
@[simp] theorem lzwInit_frameX : (lzwInit s).frameX = s.frameX := rfl
@[simp] theorem lzwInit_frameY : (lzwInit s).frameY = s.frameY := rfl
@[simp] theorem lzwInit_frameW : (lzwInit s).frameW = s.frameW := rfl
@[simp] theorem lzwInit_frameH : (lzwInit s).frameH = s.frameH := rfl
@[simp] theorem lzwInit_interlace : (lzwInit s).interlace = s.interlace := rfl
@[simp] theorem lzwInit_transpEn : (lzwInit s).transpEn = s.transpEn := rfl
@[simp] theorem lzwInit_transpIdx : (lzwInit s).transpIdx = s.transpIdx := rfl
@[simp] theorem lzwInit_pos : (lzwInit s).pos = s.pos := rfl
@[simp] theorem lzwInit_fstate : (lzwInit s).fstate = s.fstate := rfl
@[simp] theorem lzwInit_rem : (lzwInit s).rem = s.rem := rfl
@[simp] theorem lzwInit_acc : (lzwInit s).acc = s.acc := rfl
@[simp] theorem lzwInit_nbits : (lzwInit s).nbits = s.nbits := rfl
@[simp] theorem lzwInit_m : (lzwInit s).m = s.m := rfl
@[simp] theorem lzwInit_width : (lzwInit s).width = s.m + 1 := rfl
@[simp] theorem lzwInit_next : (lzwInit s).next = BitVec.ofNat 13 (s.clear + 2) := rfl
@[simp] theorem lzwInit_prev : (lzwInit s).prev = s.prev := rfl
@[simp] theorem lzwInit_prevValid : (lzwInit s).prevValid = false := rfl
@[simp] theorem lzwInit_ended : (lzwInit s).ended = s.ended := rfl
@[simp] theorem lzwInit_dict : (lzwInit s).dict = s.dict := rfl
@[simp] theorem lzwInit_pixcnt : (lzwInit s).pixcnt = s.pixcnt := rfl
@[simp] theorem lzwInit_canvas : (lzwInit s).canvas = s.canvas := rfl
@[simp] theorem lzwInit_params : (lzwInit s).params = s.params := rfl
@[simp] theorem lzwInit_inputs : (lzwInit s).inputs = s.inputs := rfl
@[simp] theorem lzwInit_returned : (lzwInit s).returned = s.returned := rfl
@[simp] theorem lzwInit_idxTrace : (lzwInit s).idxTrace = s.idxTrace := rfl
@[simp] theorem lzwInit_cwTrace : (lzwInit s).cwTrace = s.cwTrace := rfl
@[simp] theorem lzwInit_draws : (lzwInit s).draws = s.draws := rfl
@[simp] theorem lzwInit_dictEra : (lzwInit s).dictEra = s.dictEra := rfl

end

/-! ### addEntry -/

section
variable (k : Byte) (s : State)

@[simp] theorem addEntry_runState : (addEntry k s).runState = s.runState := rfl
@[simp] theorem addEntry_error : (addEntry k s).error = s.error := rfl
@[simp] theorem addEntry_canvasW : (addEntry k s).canvasW = s.canvasW := rfl
@[simp] theorem addEntry_canvasH : (addEntry k s).canvasH = s.canvasH := rfl
@[simp] theorem addEntry_frameX : (addEntry k s).frameX = s.frameX := rfl
@[simp] theorem addEntry_frameY : (addEntry k s).frameY = s.frameY := rfl
@[simp] theorem addEntry_frameW : (addEntry k s).frameW = s.frameW := rfl
@[simp] theorem addEntry_frameH : (addEntry k s).frameH = s.frameH := rfl
@[simp] theorem addEntry_interlace : (addEntry k s).interlace = s.interlace := rfl
@[simp] theorem addEntry_transpEn : (addEntry k s).transpEn = s.transpEn := rfl
@[simp] theorem addEntry_transpIdx : (addEntry k s).transpIdx = s.transpIdx := rfl
@[simp] theorem addEntry_pos : (addEntry k s).pos = s.pos := rfl
@[simp] theorem addEntry_fstate : (addEntry k s).fstate = s.fstate := rfl
@[simp] theorem addEntry_rem : (addEntry k s).rem = s.rem := rfl
@[simp] theorem addEntry_acc : (addEntry k s).acc = s.acc := rfl
@[simp] theorem addEntry_nbits : (addEntry k s).nbits = s.nbits := rfl
@[simp] theorem addEntry_m : (addEntry k s).m = s.m := rfl
@[simp] theorem addEntry_width : (addEntry k s).width = s.width := rfl
@[simp] theorem addEntry_next : (addEntry k s).next = s.next + 1 := rfl
@[simp] theorem addEntry_prev : (addEntry k s).prev = s.prev := rfl
@[simp] theorem addEntry_prevValid : (addEntry k s).prevValid = s.prevValid := rfl
@[simp] theorem addEntry_ended : (addEntry k s).ended = s.ended := rfl
@[simp] theorem addEntry_dict : (addEntry k s).dict = dictWrite s.dict s.next.toNat { prefixCode := s.prev, suffix := k } := rfl
@[simp] theorem addEntry_pixcnt : (addEntry k s).pixcnt = s.pixcnt := rfl
@[simp] theorem addEntry_canvas : (addEntry k s).canvas = s.canvas := rfl
@[simp] theorem addEntry_params : (addEntry k s).params = s.params := rfl
@[simp] theorem addEntry_inputs : (addEntry k s).inputs = s.inputs := rfl
@[simp] theorem addEntry_returned : (addEntry k s).returned = s.returned := rfl
@[simp] theorem addEntry_idxTrace : (addEntry k s).idxTrace = s.idxTrace := rfl
@[simp] theorem addEntry_cwTrace : (addEntry k s).cwTrace = s.cwTrace := rfl
@[simp] theorem addEntry_draws : (addEntry k s).draws = s.draws := rfl
@[simp] theorem addEntry_dictEra : (addEntry k s).dictEra = s.dictEra := rfl

end

/-! ### raise -/

section
variable (e : ErrorKind) (s : State)

@[simp] theorem raise_runState : (raise e s).runState = .error := rfl
@[simp] theorem raise_error : (raise e s).error = e := rfl
@[simp] theorem raise_canvasW : (raise e s).canvasW = s.canvasW := rfl
@[simp] theorem raise_canvasH : (raise e s).canvasH = s.canvasH := rfl
@[simp] theorem raise_frameX : (raise e s).frameX = s.frameX := rfl
@[simp] theorem raise_frameY : (raise e s).frameY = s.frameY := rfl
@[simp] theorem raise_frameW : (raise e s).frameW = s.frameW := rfl
@[simp] theorem raise_frameH : (raise e s).frameH = s.frameH := rfl
@[simp] theorem raise_interlace : (raise e s).interlace = s.interlace := rfl
@[simp] theorem raise_transpEn : (raise e s).transpEn = s.transpEn := rfl
@[simp] theorem raise_transpIdx : (raise e s).transpIdx = s.transpIdx := rfl
@[simp] theorem raise_pos : (raise e s).pos = s.pos := rfl
@[simp] theorem raise_dict : (raise e s).dict = [] := rfl
@[simp] theorem raise_pixcnt : (raise e s).pixcnt = s.pixcnt := rfl
@[simp] theorem raise_canvas : (raise e s).canvas = s.canvas := rfl
@[simp] theorem raise_params : (raise e s).params = s.params := rfl
@[simp] theorem raise_inputs : (raise e s).inputs = s.inputs := rfl
@[simp] theorem raise_returned : (raise e s).returned = s.returned := rfl
@[simp] theorem raise_idxTrace : (raise e s).idxTrace = s.idxTrace := rfl
@[simp] theorem raise_cwTrace : (raise e s).cwTrace = s.cwTrace := rfl
@[simp] theorem raise_draws : (raise e s).draws = s.draws + 11 := rfl
@[simp] theorem raise_dictEra : (raise e s).dictEra = s.draws + 10 := rfl

end

/-! ### clearRun -/

section
variable (s : State)

@[simp] theorem clearRun_runState : (clearRun s).runState = .idle := rfl
@[simp] theorem clearRun_error : (clearRun s).error = .success := rfl
@[simp] theorem clearRun_canvasW : (clearRun s).canvasW = s.canvasW := rfl
@[simp] theorem clearRun_canvasH : (clearRun s).canvasH = s.canvasH := rfl
@[simp] theorem clearRun_frameX : (clearRun s).frameX = s.frameX := rfl
@[simp] theorem clearRun_frameY : (clearRun s).frameY = s.frameY := rfl
@[simp] theorem clearRun_frameW : (clearRun s).frameW = s.frameW := rfl
@[simp] theorem clearRun_frameH : (clearRun s).frameH = s.frameH := rfl
@[simp] theorem clearRun_interlace : (clearRun s).interlace = s.interlace := rfl
@[simp] theorem clearRun_transpEn : (clearRun s).transpEn = s.transpEn := rfl
@[simp] theorem clearRun_transpIdx : (clearRun s).transpIdx = s.transpIdx := rfl
@[simp] theorem clearRun_pos : (clearRun s).pos = 0 := rfl
@[simp] theorem clearRun_fstate : (clearRun s).fstate = .mcs := rfl
@[simp] theorem clearRun_rem : (clearRun s).rem = 0 := rfl
@[simp] theorem clearRun_acc : (clearRun s).acc = 0 := rfl
@[simp] theorem clearRun_nbits : (clearRun s).nbits = 0 := rfl
@[simp] theorem clearRun_m : (clearRun s).m = 0 := rfl
@[simp] theorem clearRun_width : (clearRun s).width = 0 := rfl
@[simp] theorem clearRun_next : (clearRun s).next = 0 := rfl
@[simp] theorem clearRun_prev : (clearRun s).prev = 0 := rfl
@[simp] theorem clearRun_prevValid : (clearRun s).prevValid = false := rfl
@[simp] theorem clearRun_ended : (clearRun s).ended = false := rfl
@[simp] theorem clearRun_dict : (clearRun s).dict = s.dict := rfl
@[simp] theorem clearRun_pixcnt : (clearRun s).pixcnt = 0 := rfl
@[simp] theorem clearRun_canvas : (clearRun s).canvas = s.canvas := rfl
@[simp] theorem clearRun_params : (clearRun s).params = s.params := rfl
@[simp] theorem clearRun_inputs : (clearRun s).inputs = s.inputs := rfl
@[simp] theorem clearRun_returned : (clearRun s).returned = s.returned := rfl
@[simp] theorem clearRun_idxTrace : (clearRun s).idxTrace = s.idxTrace := rfl
@[simp] theorem clearRun_cwTrace : (clearRun s).cwTrace = s.cwTrace := rfl
@[simp] theorem clearRun_draws : (clearRun s).draws = s.draws := rfl
@[simp] theorem clearRun_dictEra : (clearRun s).dictEra = s.dictEra := rfl

end

/-! ### hardReset -/

section
variable (s : State)

@[simp] theorem hardReset_runState : (hardReset s).runState = .idle := rfl
@[simp] theorem hardReset_error : (hardReset s).error = .success := rfl
@[simp] theorem hardReset_canvasW : (hardReset s).canvasW = 0 := rfl
@[simp] theorem hardReset_canvasH : (hardReset s).canvasH = 0 := rfl
@[simp] theorem hardReset_frameX : (hardReset s).frameX = 0 := rfl
@[simp] theorem hardReset_frameY : (hardReset s).frameY = 0 := rfl
@[simp] theorem hardReset_frameW : (hardReset s).frameW = 0 := rfl
@[simp] theorem hardReset_frameH : (hardReset s).frameH = 0 := rfl
@[simp] theorem hardReset_interlace : (hardReset s).interlace = false := rfl
@[simp] theorem hardReset_transpEn : (hardReset s).transpEn = false := rfl
@[simp] theorem hardReset_transpIdx : (hardReset s).transpIdx = 0 := rfl
@[simp] theorem hardReset_pos : (hardReset s).pos = 0 := rfl
@[simp] theorem hardReset_fstate : (hardReset s).fstate = .mcs := rfl
@[simp] theorem hardReset_rem : (hardReset s).rem = 0 := rfl
@[simp] theorem hardReset_acc : (hardReset s).acc = 0 := rfl
@[simp] theorem hardReset_nbits : (hardReset s).nbits = 0 := rfl
@[simp] theorem hardReset_m : (hardReset s).m = 0 := rfl
@[simp] theorem hardReset_width : (hardReset s).width = 0 := rfl
@[simp] theorem hardReset_next : (hardReset s).next = 0 := rfl
@[simp] theorem hardReset_prev : (hardReset s).prev = 0 := rfl
@[simp] theorem hardReset_prevValid : (hardReset s).prevValid = false := rfl
@[simp] theorem hardReset_ended : (hardReset s).ended = false := rfl
@[simp] theorem hardReset_dict : (hardReset s).dict = [] := rfl
@[simp] theorem hardReset_pixcnt : (hardReset s).pixcnt = 0 := rfl
@[simp] theorem hardReset_canvas : (hardReset s).canvas = [] := rfl
@[simp] theorem hardReset_params : (hardReset s).params = s.params := rfl
@[simp] theorem hardReset_inputs : (hardReset s).inputs = s.inputs := rfl
@[simp] theorem hardReset_returned : (hardReset s).returned = s.returned := rfl
@[simp] theorem hardReset_idxTrace : (hardReset s).idxTrace = s.idxTrace := rfl
@[simp] theorem hardReset_cwTrace : (hardReset s).cwTrace = s.cwTrace := rfl
@[simp] theorem hardReset_draws : (hardReset s).draws = s.draws + 1 := rfl
@[simp] theorem hardReset_dictEra : (hardReset s).dictEra = s.draws := rfl

end

/-! ### beginFrame -/

section
variable (s : State)

@[simp] theorem beginFrame_runState : (beginFrame s).runState = s.runState := rfl
@[simp] theorem beginFrame_error : (beginFrame s).error = s.error := rfl
@[simp] theorem beginFrame_canvasW : (beginFrame s).canvasW = s.canvasW := rfl
@[simp] theorem beginFrame_canvasH : (beginFrame s).canvasH = s.canvasH := rfl
@[simp] theorem beginFrame_frameX : (beginFrame s).frameX = s.frameX := rfl
@[simp] theorem beginFrame_frameY : (beginFrame s).frameY = s.frameY := rfl
@[simp] theorem beginFrame_frameW : (beginFrame s).frameW = s.frameW := rfl
@[simp] theorem beginFrame_frameH : (beginFrame s).frameH = s.frameH := rfl
@[simp] theorem beginFrame_interlace : (beginFrame s).interlace = s.interlace := rfl
@[simp] theorem beginFrame_transpEn : (beginFrame s).transpEn = s.transpEn := rfl
@[simp] theorem beginFrame_transpIdx : (beginFrame s).transpIdx = s.transpIdx := rfl
@[simp] theorem beginFrame_pos : (beginFrame s).pos = 0 := rfl
@[simp] theorem beginFrame_fstate : (beginFrame s).fstate = .mcs := rfl
@[simp] theorem beginFrame_rem : (beginFrame s).rem = 0 := rfl
@[simp] theorem beginFrame_acc : (beginFrame s).acc = 0 := rfl
@[simp] theorem beginFrame_nbits : (beginFrame s).nbits = 0 := rfl
@[simp] theorem beginFrame_m : (beginFrame s).m = s.m := rfl
@[simp] theorem beginFrame_width : (beginFrame s).width = s.width := rfl
@[simp] theorem beginFrame_next : (beginFrame s).next = s.next := rfl
@[simp] theorem beginFrame_prev : (beginFrame s).prev = s.prev := rfl
@[simp] theorem beginFrame_prevValid : (beginFrame s).prevValid = false := rfl
@[simp] theorem beginFrame_ended : (beginFrame s).ended = false := rfl
@[simp] theorem beginFrame_dict : (beginFrame s).dict = s.dict := rfl
@[simp] theorem beginFrame_pixcnt : (beginFrame s).pixcnt = 0 := rfl
@[simp] theorem beginFrame_canvas : (beginFrame s).canvas = s.canvas := rfl
@[simp] theorem beginFrame_params : (beginFrame s).params = s.params := rfl
@[simp] theorem beginFrame_inputs : (beginFrame s).inputs = s.inputs := rfl
@[simp] theorem beginFrame_returned : (beginFrame s).returned = s.returned := rfl
@[simp] theorem beginFrame_idxTrace : (beginFrame s).idxTrace = s.idxTrace := rfl
@[simp] theorem beginFrame_cwTrace : (beginFrame s).cwTrace = s.cwTrace := rfl
@[simp] theorem beginFrame_draws : (beginFrame s).draws = s.draws := rfl
@[simp] theorem beginFrame_dictEra : (beginFrame s).dictEra = s.dictEra := rfl

end

/-! ### addByte -/

section
variable (b : Byte) (s : State)

@[simp] theorem addByte_runState : (addByte b s).runState = s.runState := rfl
@[simp] theorem addByte_error : (addByte b s).error = s.error := rfl
@[simp] theorem addByte_canvasW : (addByte b s).canvasW = s.canvasW := rfl
@[simp] theorem addByte_canvasH : (addByte b s).canvasH = s.canvasH := rfl
@[simp] theorem addByte_frameX : (addByte b s).frameX = s.frameX := rfl
@[simp] theorem addByte_frameY : (addByte b s).frameY = s.frameY := rfl
@[simp] theorem addByte_frameW : (addByte b s).frameW = s.frameW := rfl
@[simp] theorem addByte_frameH : (addByte b s).frameH = s.frameH := rfl
@[simp] theorem addByte_interlace : (addByte b s).interlace = s.interlace := rfl
@[simp] theorem addByte_transpEn : (addByte b s).transpEn = s.transpEn := rfl
@[simp] theorem addByte_transpIdx : (addByte b s).transpIdx = s.transpIdx := rfl
@[simp] theorem addByte_pos : (addByte b s).pos = s.pos := rfl
@[simp] theorem addByte_fstate : (addByte b s).fstate = s.fstate := rfl
@[simp] theorem addByte_rem : (addByte b s).rem = s.rem := rfl
@[simp] theorem addByte_acc : (addByte b s).acc = s.acc ||| (b.setWidth 19 <<< s.nbits.toNat) := rfl
@[simp] theorem addByte_nbits : (addByte b s).nbits = s.nbits + 8 := rfl
@[simp] theorem addByte_m : (addByte b s).m = s.m := rfl
@[simp] theorem addByte_width : (addByte b s).width = s.width := rfl
@[simp] theorem addByte_next : (addByte b s).next = s.next := rfl
@[simp] theorem addByte_prev : (addByte b s).prev = s.prev := rfl
@[simp] theorem addByte_prevValid : (addByte b s).prevValid = s.prevValid := rfl
@[simp] theorem addByte_ended : (addByte b s).ended = s.ended := rfl
@[simp] theorem addByte_dict : (addByte b s).dict = s.dict := rfl
@[simp] theorem addByte_pixcnt : (addByte b s).pixcnt = s.pixcnt := rfl
@[simp] theorem addByte_canvas : (addByte b s).canvas = s.canvas := rfl
@[simp] theorem addByte_params : (addByte b s).params = s.params := rfl
@[simp] theorem addByte_inputs : (addByte b s).inputs = s.inputs := rfl
@[simp] theorem addByte_returned : (addByte b s).returned = s.returned := rfl
@[simp] theorem addByte_idxTrace : (addByte b s).idxTrace = s.idxTrace := rfl
@[simp] theorem addByte_cwTrace : (addByte b s).cwTrace = s.cwTrace := rfl
@[simp] theorem addByte_draws : (addByte b s).draws = s.draws := rfl
@[simp] theorem addByte_dictEra : (addByte b s).dictEra = s.dictEra := rfl

end

/-! ### dropCode -/

section
variable (s : State)

@[simp] theorem dropCode_runState : (dropCode s).runState = s.runState := rfl
@[simp] theorem dropCode_error : (dropCode s).error = s.error := rfl
@[simp] theorem dropCode_canvasW : (dropCode s).canvasW = s.canvasW := rfl
@[simp] theorem dropCode_canvasH : (dropCode s).canvasH = s.canvasH := rfl
@[simp] theorem dropCode_frameX : (dropCode s).frameX = s.frameX := rfl
@[simp] theorem dropCode_frameY : (dropCode s).frameY = s.frameY := rfl
@[simp] theorem dropCode_frameW : (dropCode s).frameW = s.frameW := rfl
@[simp] theorem dropCode_frameH : (dropCode s).frameH = s.frameH := rfl
@[simp] theorem dropCode_interlace : (dropCode s).interlace = s.interlace := rfl
@[simp] theorem dropCode_transpEn : (dropCode s).transpEn = s.transpEn := rfl
@[simp] theorem dropCode_transpIdx : (dropCode s).transpIdx = s.transpIdx := rfl
@[simp] theorem dropCode_pos : (dropCode s).pos = s.pos := rfl
@[simp] theorem dropCode_fstate : (dropCode s).fstate = s.fstate := rfl
@[simp] theorem dropCode_rem : (dropCode s).rem = s.rem := rfl
@[simp] theorem dropCode_acc : (dropCode s).acc = s.acc >>> s.width.toNat := rfl
@[simp] theorem dropCode_nbits : (dropCode s).nbits = s.nbits - s.width.setWidth 5 := rfl
@[simp] theorem dropCode_m : (dropCode s).m = s.m := rfl
@[simp] theorem dropCode_width : (dropCode s).width = s.width := rfl
@[simp] theorem dropCode_next : (dropCode s).next = s.next := rfl
@[simp] theorem dropCode_prev : (dropCode s).prev = s.prev := rfl
@[simp] theorem dropCode_prevValid : (dropCode s).prevValid = s.prevValid := rfl
@[simp] theorem dropCode_ended : (dropCode s).ended = s.ended := rfl
@[simp] theorem dropCode_dict : (dropCode s).dict = s.dict := rfl
@[simp] theorem dropCode_pixcnt : (dropCode s).pixcnt = s.pixcnt := rfl
@[simp] theorem dropCode_canvas : (dropCode s).canvas = s.canvas := rfl
@[simp] theorem dropCode_params : (dropCode s).params = s.params := rfl
@[simp] theorem dropCode_inputs : (dropCode s).inputs = s.inputs := rfl
@[simp] theorem dropCode_returned : (dropCode s).returned = s.returned := rfl
@[simp] theorem dropCode_idxTrace : (dropCode s).idxTrace = s.idxTrace := rfl
@[simp] theorem dropCode_cwTrace : (dropCode s).cwTrace = s.cwTrace := rfl
@[simp] theorem dropCode_draws : (dropCode s).draws = s.draws := rfl
@[simp] theorem dropCode_dictEra : (dropCode s).dictEra = s.dictEra := rfl

end

/-! ### giveBack -/

section
variable (r : ReadResult) (s : State)

@[simp] theorem giveBack_runState : (giveBack r s).runState = s.runState := rfl
@[simp] theorem giveBack_error : (giveBack r s).error = s.error := rfl
@[simp] theorem giveBack_canvasW : (giveBack r s).canvasW = s.canvasW := rfl
@[simp] theorem giveBack_canvasH : (giveBack r s).canvasH = s.canvasH := rfl
@[simp] theorem giveBack_frameX : (giveBack r s).frameX = s.frameX := rfl
@[simp] theorem giveBack_frameY : (giveBack r s).frameY = s.frameY := rfl
@[simp] theorem giveBack_frameW : (giveBack r s).frameW = s.frameW := rfl
@[simp] theorem giveBack_frameH : (giveBack r s).frameH = s.frameH := rfl
@[simp] theorem giveBack_interlace : (giveBack r s).interlace = s.interlace := rfl
@[simp] theorem giveBack_transpEn : (giveBack r s).transpEn = s.transpEn := rfl
@[simp] theorem giveBack_transpIdx : (giveBack r s).transpIdx = s.transpIdx := rfl
@[simp] theorem giveBack_pos : (giveBack r s).pos = s.pos := rfl
@[simp] theorem giveBack_fstate : (giveBack r s).fstate = s.fstate := rfl
@[simp] theorem giveBack_rem : (giveBack r s).rem = s.rem := rfl
@[simp] theorem giveBack_acc : (giveBack r s).acc = s.acc := rfl
@[simp] theorem giveBack_nbits : (giveBack r s).nbits = s.nbits := rfl
@[simp] theorem giveBack_m : (giveBack r s).m = s.m := rfl
@[simp] theorem giveBack_width : (giveBack r s).width = s.width := rfl
@[simp] theorem giveBack_next : (giveBack r s).next = s.next := rfl
@[simp] theorem giveBack_prev : (giveBack r s).prev = s.prev := rfl
@[simp] theorem giveBack_prevValid : (giveBack r s).prevValid = s.prevValid := rfl
@[simp] theorem giveBack_ended : (giveBack r s).ended = s.ended := rfl
@[simp] theorem giveBack_dict : (giveBack r s).dict = s.dict := rfl
@[simp] theorem giveBack_pixcnt : (giveBack r s).pixcnt = s.pixcnt := rfl
@[simp] theorem giveBack_canvas : (giveBack r s).canvas = s.canvas := rfl
@[simp] theorem giveBack_params : (giveBack r s).params = s.params := rfl
@[simp] theorem giveBack_inputs : (giveBack r s).inputs = s.inputs := rfl
@[simp] theorem giveBack_returned : (giveBack r s).returned = s.returned ++ [r] := rfl
@[simp] theorem giveBack_idxTrace : (giveBack r s).idxTrace = s.idxTrace := rfl
@[simp] theorem giveBack_cwTrace : (giveBack r s).cwTrace = s.cwTrace := rfl
@[simp] theorem giveBack_draws : (giveBack r s).draws = s.draws := rfl
@[simp] theorem giveBack_dictEra : (giveBack r s).dictEra = s.dictEra := rfl

end

/-! ### countByte -/

section
variable (s : State)

@[simp] theorem countByte_runState : (countByte s).runState = s.runState := rfl
@[simp] theorem countByte_error : (countByte s).error = s.error := rfl
@[simp] theorem countByte_canvasW : (countByte s).canvasW = s.canvasW := rfl
@[simp] theorem countByte_canvasH : (countByte s).canvasH = s.canvasH := rfl
@[simp] theorem countByte_frameX : (countByte s).frameX = s.frameX := rfl
@[simp] theorem countByte_frameY : (countByte s).frameY = s.frameY := rfl
@[simp] theorem countByte_frameW : (countByte s).frameW = s.frameW := rfl
@[simp] theorem countByte_frameH : (countByte s).frameH = s.frameH := rfl
@[simp] theorem countByte_interlace : (countByte s).interlace = s.interlace := rfl
@[simp] theorem countByte_transpEn : (countByte s).transpEn = s.transpEn := rfl
@[simp] theorem countByte_transpIdx : (countByte s).transpIdx = s.transpIdx := rfl
@[simp] theorem countByte_pos : (countByte s).pos = s.pos + 1 := rfl
@[simp] theorem countByte_fstate : (countByte s).fstate = s.fstate := rfl
@[simp] theorem countByte_rem : (countByte s).rem = s.rem := rfl
@[simp] theorem countByte_acc : (countByte s).acc = s.acc := rfl
@[simp] theorem countByte_nbits : (countByte s).nbits = s.nbits := rfl
@[simp] theorem countByte_m : (countByte s).m = s.m := rfl
@[simp] theorem countByte_width : (countByte s).width = s.width := rfl
@[simp] theorem countByte_next : (countByte s).next = s.next := rfl
@[simp] theorem countByte_prev : (countByte s).prev = s.prev := rfl
@[simp] theorem countByte_prevValid : (countByte s).prevValid = s.prevValid := rfl
@[simp] theorem countByte_ended : (countByte s).ended = s.ended := rfl
@[simp] theorem countByte_dict : (countByte s).dict = s.dict := rfl
@[simp] theorem countByte_pixcnt : (countByte s).pixcnt = s.pixcnt := rfl
@[simp] theorem countByte_canvas : (countByte s).canvas = s.canvas := rfl
@[simp] theorem countByte_params : (countByte s).params = s.params := rfl
@[simp] theorem countByte_inputs : (countByte s).inputs = s.inputs := rfl
@[simp] theorem countByte_returned : (countByte s).returned = s.returned := rfl
@[simp] theorem countByte_idxTrace : (countByte s).idxTrace = s.idxTrace := rfl
@[simp] theorem countByte_cwTrace : (countByte s).cwTrace = s.cwTrace := rfl
@[simp] theorem countByte_draws : (countByte s).draws = s.draws := rfl
@[simp] theorem countByte_dictEra : (countByte s).dictEra = s.dictEra := rfl

end

/-! ### traceIndex -/

section
variable (v : Byte) (s : State)

@[simp] theorem traceIndex_runState : (traceIndex v s).runState = s.runState := rfl
@[simp] theorem traceIndex_error : (traceIndex v s).error = s.error := rfl
@[simp] theorem traceIndex_canvasW : (traceIndex v s).canvasW = s.canvasW := rfl
@[simp] theorem traceIndex_canvasH : (traceIndex v s).canvasH = s.canvasH := rfl
@[simp] theorem traceIndex_frameX : (traceIndex v s).frameX = s.frameX := rfl
@[simp] theorem traceIndex_frameY : (traceIndex v s).frameY = s.frameY := rfl
@[simp] theorem traceIndex_frameW : (traceIndex v s).frameW = s.frameW := rfl
@[simp] theorem traceIndex_frameH : (traceIndex v s).frameH = s.frameH := rfl
@[simp] theorem traceIndex_interlace : (traceIndex v s).interlace = s.interlace := rfl
@[simp] theorem traceIndex_transpEn : (traceIndex v s).transpEn = s.transpEn := rfl
@[simp] theorem traceIndex_transpIdx : (traceIndex v s).transpIdx = s.transpIdx := rfl
@[simp] theorem traceIndex_pos : (traceIndex v s).pos = s.pos := rfl
@[simp] theorem traceIndex_fstate : (traceIndex v s).fstate = s.fstate := rfl
@[simp] theorem traceIndex_rem : (traceIndex v s).rem = s.rem := rfl
@[simp] theorem traceIndex_acc : (traceIndex v s).acc = s.acc := rfl
@[simp] theorem traceIndex_nbits : (traceIndex v s).nbits = s.nbits := rfl
@[simp] theorem traceIndex_m : (traceIndex v s).m = s.m := rfl
@[simp] theorem traceIndex_width : (traceIndex v s).width = s.width := rfl
@[simp] theorem traceIndex_next : (traceIndex v s).next = s.next := rfl
@[simp] theorem traceIndex_prev : (traceIndex v s).prev = s.prev := rfl
@[simp] theorem traceIndex_prevValid : (traceIndex v s).prevValid = s.prevValid := rfl
@[simp] theorem traceIndex_ended : (traceIndex v s).ended = s.ended := rfl
@[simp] theorem traceIndex_dict : (traceIndex v s).dict = s.dict := rfl
@[simp] theorem traceIndex_pixcnt : (traceIndex v s).pixcnt = s.pixcnt := rfl
@[simp] theorem traceIndex_canvas : (traceIndex v s).canvas = s.canvas := rfl
@[simp] theorem traceIndex_params : (traceIndex v s).params = s.params := rfl
@[simp] theorem traceIndex_inputs : (traceIndex v s).inputs = s.inputs := rfl
@[simp] theorem traceIndex_returned : (traceIndex v s).returned = s.returned := rfl
@[simp] theorem traceIndex_idxTrace : (traceIndex v s).idxTrace = s.idxTrace ++ [v] := rfl
@[simp] theorem traceIndex_cwTrace : (traceIndex v s).cwTrace = s.cwTrace := rfl
@[simp] theorem traceIndex_draws : (traceIndex v s).draws = s.draws := rfl
@[simp] theorem traceIndex_dictEra : (traceIndex v s).dictEra = s.dictEra := rfl

end

/-! ### countIndex -/

section
variable (s : State)

@[simp] theorem countIndex_runState : (countIndex s).runState = s.runState := rfl
@[simp] theorem countIndex_error : (countIndex s).error = s.error := rfl
@[simp] theorem countIndex_canvasW : (countIndex s).canvasW = s.canvasW := rfl
@[simp] theorem countIndex_canvasH : (countIndex s).canvasH = s.canvasH := rfl
@[simp] theorem countIndex_frameX : (countIndex s).frameX = s.frameX := rfl
@[simp] theorem countIndex_frameY : (countIndex s).frameY = s.frameY := rfl
@[simp] theorem countIndex_frameW : (countIndex s).frameW = s.frameW := rfl
@[simp] theorem countIndex_frameH : (countIndex s).frameH = s.frameH := rfl
@[simp] theorem countIndex_interlace : (countIndex s).interlace = s.interlace := rfl
@[simp] theorem countIndex_transpEn : (countIndex s).transpEn = s.transpEn := rfl
@[simp] theorem countIndex_transpIdx : (countIndex s).transpIdx = s.transpIdx := rfl
@[simp] theorem countIndex_pos : (countIndex s).pos = s.pos := rfl
@[simp] theorem countIndex_fstate : (countIndex s).fstate = s.fstate := rfl
@[simp] theorem countIndex_rem : (countIndex s).rem = s.rem := rfl
@[simp] theorem countIndex_acc : (countIndex s).acc = s.acc := rfl
@[simp] theorem countIndex_nbits : (countIndex s).nbits = s.nbits := rfl
@[simp] theorem countIndex_m : (countIndex s).m = s.m := rfl
@[simp] theorem countIndex_width : (countIndex s).width = s.width := rfl
@[simp] theorem countIndex_next : (countIndex s).next = s.next := rfl
@[simp] theorem countIndex_prev : (countIndex s).prev = s.prev := rfl
@[simp] theorem countIndex_prevValid : (countIndex s).prevValid = s.prevValid := rfl
@[simp] theorem countIndex_ended : (countIndex s).ended = s.ended := rfl
@[simp] theorem countIndex_dict : (countIndex s).dict = s.dict := rfl
@[simp] theorem countIndex_pixcnt : (countIndex s).pixcnt = s.pixcnt + 1 := rfl
@[simp] theorem countIndex_canvas : (countIndex s).canvas = s.canvas := rfl
@[simp] theorem countIndex_params : (countIndex s).params = s.params := rfl
@[simp] theorem countIndex_inputs : (countIndex s).inputs = s.inputs := rfl
@[simp] theorem countIndex_returned : (countIndex s).returned = s.returned := rfl
@[simp] theorem countIndex_idxTrace : (countIndex s).idxTrace = s.idxTrace := rfl
@[simp] theorem countIndex_cwTrace : (countIndex s).cwTrace = s.cwTrace := rfl
@[simp] theorem countIndex_draws : (countIndex s).draws = s.draws := rfl
@[simp] theorem countIndex_dictEra : (countIndex s).dictEra = s.dictEra := rfl

end

/-! ### setPrev -/

section
variable (c : Code) (s : State)

@[simp] theorem setPrev_runState : (setPrev c s).runState = s.runState := rfl
@[simp] theorem setPrev_error : (setPrev c s).error = s.error := rfl
@[simp] theorem setPrev_canvasW : (setPrev c s).canvasW = s.canvasW := rfl
@[simp] theorem setPrev_canvasH : (setPrev c s).canvasH = s.canvasH := rfl
@[simp] theorem setPrev_frameX : (setPrev c s).frameX = s.frameX := rfl
@[simp] theorem setPrev_frameY : (setPrev c s).frameY = s.frameY := rfl
@[simp] theorem setPrev_frameW : (setPrev c s).frameW = s.frameW := rfl
@[simp] theorem setPrev_frameH : (setPrev c s).frameH = s.frameH := rfl
@[simp] theorem setPrev_interlace : (setPrev c s).interlace = s.interlace := rfl
@[simp] theorem setPrev_transpEn : (setPrev c s).transpEn = s.transpEn := rfl
@[simp] theorem setPrev_transpIdx : (setPrev c s).transpIdx = s.transpIdx := rfl
@[simp] theorem setPrev_pos : (setPrev c s).pos = s.pos := rfl
@[simp] theorem setPrev_fstate : (setPrev c s).fstate = s.fstate := rfl
@[simp] theorem setPrev_rem : (setPrev c s).rem = s.rem := rfl
@[simp] theorem setPrev_acc : (setPrev c s).acc = s.acc := rfl
@[simp] theorem setPrev_nbits : (setPrev c s).nbits = s.nbits := rfl
@[simp] theorem setPrev_m : (setPrev c s).m = s.m := rfl
@[simp] theorem setPrev_width : (setPrev c s).width = s.width := rfl
@[simp] theorem setPrev_next : (setPrev c s).next = s.next := rfl
@[simp] theorem setPrev_prev : (setPrev c s).prev = c := rfl
@[simp] theorem setPrev_prevValid : (setPrev c s).prevValid = s.prevValid := rfl
@[simp] theorem setPrev_ended : (setPrev c s).ended = s.ended := rfl
@[simp] theorem setPrev_dict : (setPrev c s).dict = s.dict := rfl
@[simp] theorem setPrev_pixcnt : (setPrev c s).pixcnt = s.pixcnt := rfl
@[simp] theorem setPrev_canvas : (setPrev c s).canvas = s.canvas := rfl
@[simp] theorem setPrev_params : (setPrev c s).params = s.params := rfl
@[simp] theorem setPrev_inputs : (setPrev c s).inputs = s.inputs := rfl
@[simp] theorem setPrev_returned : (setPrev c s).returned = s.returned := rfl
@[simp] theorem setPrev_idxTrace : (setPrev c s).idxTrace = s.idxTrace := rfl
@[simp] theorem setPrev_cwTrace : (setPrev c s).cwTrace = s.cwTrace := rfl
@[simp] theorem setPrev_draws : (setPrev c s).draws = s.draws := rfl
@[simp] theorem setPrev_dictEra : (setPrev c s).dictEra = s.dictEra := rfl

end

/-! ### setFirstPrev -/

section
variable (c : Code) (s : State)

@[simp] theorem setFirstPrev_runState : (setFirstPrev c s).runState = s.runState := rfl
@[simp] theorem setFirstPrev_error : (setFirstPrev c s).error = s.error := rfl
@[simp] theorem setFirstPrev_canvasW : (setFirstPrev c s).canvasW = s.canvasW := rfl
@[simp] theorem setFirstPrev_canvasH : (setFirstPrev c s).canvasH = s.canvasH := rfl
@[simp] theorem setFirstPrev_frameX : (setFirstPrev c s).frameX = s.frameX := rfl
@[simp] theorem setFirstPrev_frameY : (setFirstPrev c s).frameY = s.frameY := rfl
@[simp] theorem setFirstPrev_frameW : (setFirstPrev c s).frameW = s.frameW := rfl
@[simp] theorem setFirstPrev_frameH : (setFirstPrev c s).frameH = s.frameH := rfl
@[simp] theorem setFirstPrev_interlace : (setFirstPrev c s).interlace = s.interlace := rfl
@[simp] theorem setFirstPrev_transpEn : (setFirstPrev c s).transpEn = s.transpEn := rfl
@[simp] theorem setFirstPrev_transpIdx : (setFirstPrev c s).transpIdx = s.transpIdx := rfl
@[simp] theorem setFirstPrev_pos : (setFirstPrev c s).pos = s.pos := rfl
@[simp] theorem setFirstPrev_fstate : (setFirstPrev c s).fstate = s.fstate := rfl
@[simp] theorem setFirstPrev_rem : (setFirstPrev c s).rem = s.rem := rfl
@[simp] theorem setFirstPrev_acc : (setFirstPrev c s).acc = s.acc := rfl
@[simp] theorem setFirstPrev_nbits : (setFirstPrev c s).nbits = s.nbits := rfl
@[simp] theorem setFirstPrev_m : (setFirstPrev c s).m = s.m := rfl
@[simp] theorem setFirstPrev_width : (setFirstPrev c s).width = s.width := rfl
@[simp] theorem setFirstPrev_next : (setFirstPrev c s).next = s.next := rfl
@[simp] theorem setFirstPrev_prev : (setFirstPrev c s).prev = c := rfl
@[simp] theorem setFirstPrev_prevValid : (setFirstPrev c s).prevValid = true := rfl
@[simp] theorem setFirstPrev_ended : (setFirstPrev c s).ended = s.ended := rfl
@[simp] theorem setFirstPrev_dict : (setFirstPrev c s).dict = s.dict := rfl
@[simp] theorem setFirstPrev_pixcnt : (setFirstPrev c s).pixcnt = s.pixcnt := rfl
@[simp] theorem setFirstPrev_canvas : (setFirstPrev c s).canvas = s.canvas := rfl
@[simp] theorem setFirstPrev_params : (setFirstPrev c s).params = s.params := rfl
@[simp] theorem setFirstPrev_inputs : (setFirstPrev c s).inputs = s.inputs := rfl
@[simp] theorem setFirstPrev_returned : (setFirstPrev c s).returned = s.returned := rfl
@[simp] theorem setFirstPrev_idxTrace : (setFirstPrev c s).idxTrace = s.idxTrace := rfl
@[simp] theorem setFirstPrev_cwTrace : (setFirstPrev c s).cwTrace = s.cwTrace := rfl
@[simp] theorem setFirstPrev_draws : (setFirstPrev c s).draws = s.draws := rfl
@[simp] theorem setFirstPrev_dictEra : (setFirstPrev c s).dictEra = s.dictEra := rfl

end

/-! ### setMinCode -/

section
variable (b : Byte) (s : State)

@[simp] theorem setMinCode_runState : (setMinCode b s).runState = s.runState := rfl
@[simp] theorem setMinCode_error : (setMinCode b s).error = s.error := rfl
@[simp] theorem setMinCode_canvasW : (setMinCode b s).canvasW = s.canvasW := rfl
@[simp] theorem setMinCode_canvasH : (setMinCode b s).canvasH = s.canvasH := rfl
@[simp] theorem setMinCode_frameX : (setMinCode b s).frameX = s.frameX := rfl
@[simp] theorem setMinCode_frameY : (setMinCode b s).frameY = s.frameY := rfl
@[simp] theorem setMinCode_frameW : (setMinCode b s).frameW = s.frameW := rfl
@[simp] theorem setMinCode_frameH : (setMinCode b s).frameH = s.frameH := rfl
@[simp] theorem setMinCode_interlace : (setMinCode b s).interlace = s.interlace := rfl
@[simp] theorem setMinCode_transpEn : (setMinCode b s).transpEn = s.transpEn := rfl
@[simp] theorem setMinCode_transpIdx : (setMinCode b s).transpIdx = s.transpIdx := rfl
@[simp] theorem setMinCode_pos : (setMinCode b s).pos = s.pos := rfl
@[simp] theorem setMinCode_fstate : (setMinCode b s).fstate = s.fstate := rfl
@[simp] theorem setMinCode_rem : (setMinCode b s).rem = s.rem := rfl
@[simp] theorem setMinCode_acc : (setMinCode b s).acc = s.acc := rfl
@[simp] theorem setMinCode_nbits : (setMinCode b s).nbits = s.nbits := rfl
@[simp] theorem setMinCode_m : (setMinCode b s).m = b.setWidth 4 := rfl
@[simp] theorem setMinCode_width : (setMinCode b s).width = s.width := rfl
@[simp] theorem setMinCode_next : (setMinCode b s).next = s.next := rfl
@[simp] theorem setMinCode_prev : (setMinCode b s).prev = s.prev := rfl
@[simp] theorem setMinCode_prevValid : (setMinCode b s).prevValid = s.prevValid := rfl
@[simp] theorem setMinCode_ended : (setMinCode b s).ended = s.ended := rfl
@[simp] theorem setMinCode_dict : (setMinCode b s).dict = s.dict := rfl
@[simp] theorem setMinCode_pixcnt : (setMinCode b s).pixcnt = s.pixcnt := rfl
@[simp] theorem setMinCode_canvas : (setMinCode b s).canvas = s.canvas := rfl
@[simp] theorem setMinCode_params : (setMinCode b s).params = s.params := rfl
@[simp] theorem setMinCode_inputs : (setMinCode b s).inputs = s.inputs := rfl
@[simp] theorem setMinCode_returned : (setMinCode b s).returned = s.returned := rfl
@[simp] theorem setMinCode_idxTrace : (setMinCode b s).idxTrace = s.idxTrace := rfl
@[simp] theorem setMinCode_cwTrace : (setMinCode b s).cwTrace = s.cwTrace := rfl
@[simp] theorem setMinCode_draws : (setMinCode b s).draws = s.draws := rfl
@[simp] theorem setMinCode_dictEra : (setMinCode b s).dictEra = s.dictEra := rfl

end

/-! ### countData -/

section
variable (s : State)

@[simp] theorem countData_runState : (countData s).runState = s.runState := rfl
@[simp] theorem countData_error : (countData s).error = s.error := rfl
@[simp] theorem countData_canvasW : (countData s).canvasW = s.canvasW := rfl
@[simp] theorem countData_canvasH : (countData s).canvasH = s.canvasH := rfl
@[simp] theorem countData_frameX : (countData s).frameX = s.frameX := rfl
@[simp] theorem countData_frameY : (countData s).frameY = s.frameY := rfl
@[simp] theorem countData_frameW : (countData s).frameW = s.frameW := rfl
@[simp] theorem countData_frameH : (countData s).frameH = s.frameH := rfl
@[simp] theorem countData_interlace : (countData s).interlace = s.interlace := rfl
@[simp] theorem countData_transpEn : (countData s).transpEn = s.transpEn := rfl
@[simp] theorem countData_transpIdx : (countData s).transpIdx = s.transpIdx := rfl
@[simp] theorem countData_pos : (countData s).pos = s.pos := rfl
@[simp] theorem countData_fstate : (countData s).fstate = if s.rem - 1 = 0 then .len else s.fstate := rfl
@[simp] theorem countData_rem : (countData s).rem = s.rem - 1 := rfl
@[simp] theorem countData_acc : (countData s).acc = s.acc := rfl
@[simp] theorem countData_nbits : (countData s).nbits = s.nbits := rfl
@[simp] theorem countData_m : (countData s).m = s.m := rfl
@[simp] theorem countData_width : (countData s).width = s.width := rfl
@[simp] theorem countData_next : (countData s).next = s.next := rfl
@[simp] theorem countData_prev : (countData s).prev = s.prev := rfl
@[simp] theorem countData_prevValid : (countData s).prevValid = s.prevValid := rfl
@[simp] theorem countData_ended : (countData s).ended = s.ended := rfl
@[simp] theorem countData_dict : (countData s).dict = s.dict := rfl
@[simp] theorem countData_pixcnt : (countData s).pixcnt = s.pixcnt := rfl
@[simp] theorem countData_canvas : (countData s).canvas = s.canvas := rfl
@[simp] theorem countData_params : (countData s).params = s.params := rfl
@[simp] theorem countData_inputs : (countData s).inputs = s.inputs := rfl
@[simp] theorem countData_returned : (countData s).returned = s.returned := rfl
@[simp] theorem countData_idxTrace : (countData s).idxTrace = s.idxTrace := rfl
@[simp] theorem countData_cwTrace : (countData s).cwTrace = s.cwTrace := rfl
@[simp] theorem countData_draws : (countData s).draws = s.draws := rfl
@[simp] theorem countData_dictEra : (countData s).dictEra = s.dictEra := rfl

end

/-! ### State.accept -/

section
variable (ix : List Byte) (s : State)

@[simp] theorem State.accept_runState : (s.accept ix).runState = s.runState := rfl
@[simp] theorem State.accept_error : (s.accept ix).error = s.error := rfl
@[simp] theorem State.accept_canvasW : (s.accept ix).canvasW = s.canvasW := rfl
@[simp] theorem State.accept_canvasH : (s.accept ix).canvasH = s.canvasH := rfl
@[simp] theorem State.accept_frameX : (s.accept ix).frameX = s.frameX := rfl
@[simp] theorem State.accept_frameY : (s.accept ix).frameY = s.frameY := rfl
@[simp] theorem State.accept_frameW : (s.accept ix).frameW = s.frameW := rfl
@[simp] theorem State.accept_frameH : (s.accept ix).frameH = s.frameH := rfl
@[simp] theorem State.accept_interlace : (s.accept ix).interlace = s.interlace := rfl
@[simp] theorem State.accept_transpEn : (s.accept ix).transpEn = s.transpEn := rfl
@[simp] theorem State.accept_transpIdx : (s.accept ix).transpIdx = s.transpIdx := rfl
@[simp] theorem State.accept_pos : (s.accept ix).pos = s.pos := rfl
@[simp] theorem State.accept_fstate : (s.accept ix).fstate = s.fstate := rfl
@[simp] theorem State.accept_rem : (s.accept ix).rem = s.rem := rfl
@[simp] theorem State.accept_acc : (s.accept ix).acc = s.acc := rfl
@[simp] theorem State.accept_nbits : (s.accept ix).nbits = s.nbits := rfl
@[simp] theorem State.accept_m : (s.accept ix).m = s.m := rfl
@[simp] theorem State.accept_width : (s.accept ix).width = s.width := rfl
@[simp] theorem State.accept_next : (s.accept ix).next = s.next := rfl
@[simp] theorem State.accept_prev : (s.accept ix).prev = s.prev := rfl
@[simp] theorem State.accept_prevValid : (s.accept ix).prevValid = s.prevValid := rfl
@[simp] theorem State.accept_ended : (s.accept ix).ended = s.ended := rfl
@[simp] theorem State.accept_dict : (s.accept ix).dict = s.dict := rfl
@[simp] theorem State.accept_pixcnt : (s.accept ix).pixcnt = s.pixcnt + BitVec.ofNat 32 ix.length := rfl
@[simp] theorem State.accept_canvas : (s.accept ix).canvas = s.canvas.writeAll (s.blitWrites s.pixcnt.toNat ix) := rfl
@[simp] theorem State.accept_params : (s.accept ix).params = s.params := rfl
@[simp] theorem State.accept_inputs : (s.accept ix).inputs = s.inputs := rfl
@[simp] theorem State.accept_returned : (s.accept ix).returned = s.returned := rfl
@[simp] theorem State.accept_idxTrace : (s.accept ix).idxTrace = s.idxTrace ++ ix := rfl
@[simp] theorem State.accept_cwTrace : (s.accept ix).cwTrace = s.cwTrace ++ s.blitWrites s.pixcnt.toNat ix := rfl
@[simp] theorem State.accept_draws : (s.accept ix).draws = s.draws := rfl
@[simp] theorem State.accept_dictEra : (s.accept ix).dictEra = s.dictEra := rfl

end

end Sys2Proof.Machine
end

