-- ==== Sys2Proof/Laws/Memory.lean ====
section
/-! SUPPORT. The canvas memory and the dictionary: read after write, and the forms that every write keeps. -/

namespace Sys2Proof.Machine

/-! ### The canvas memory -/

@[simp] theorem Memory.read_nil (a : Nat) : Memory.read [] a = 0 := rfl

theorem Memory.read_cons (b : Nat) (v : Byte) (m : Memory) (a : Nat) :
    Memory.read ((b, v) :: m) a = if a = b then v else Memory.read m a := rfl

theorem Memory.wfAbove_mono {m : Memory} {lo lo' : Nat} (h : lo' ≤ lo) (hm : Memory.wfAbove lo m = true) :
    Memory.wfAbove lo' m = true := by
  cases m with
  | nil => rfl
  | cons c rest =>
    obtain ⟨b, v⟩ := c
    simp only [Memory.wfAbove, Bool.and_eq_true, decide_eq_true_eq] at hm ⊢
    exact ⟨⟨by omega, hm.1.2⟩, hm.2⟩

theorem Memory.read_below {m : Memory} {lo a : Nat} (hm : Memory.wfAbove lo m = true) (ha : a < lo) :
    Memory.read m a = 0 := by
  induction m generalizing lo with
  | nil => rfl
  | cons c rest ih =>
    obtain ⟨b, v⟩ := c
    simp only [Memory.wfAbove, Bool.and_eq_true, decide_eq_true_eq] at hm
    rw [Memory.read_cons, if_neg (by omega)]
    exact ih hm.2 (by omega)

theorem Memory.wfAbove_cons {m : Memory} {lo a : Nat} {v : Byte} (h : lo ≤ a) (hm : Memory.wfAbove (a + 1) m = true) :
    Memory.wfAbove lo (Memory.cons a v m) = true := by
  unfold Memory.cons
  split
  · exact Memory.wfAbove_mono (by omega) hm
  · next hv =>
    simp only [Memory.wfAbove, Bool.and_eq_true, decide_eq_true_eq]
    exact ⟨⟨h, hv⟩, hm⟩

theorem Memory.wfAbove_write {m : Memory} {lo a : Nat} {v : Byte} (h : lo ≤ a) (hm : Memory.wfAbove lo m = true) :
    Memory.wfAbove lo (m.write a v) = true := by
  induction m generalizing lo with
  | nil => exact Memory.wfAbove_cons h rfl
  | cons c rest ih =>
    obtain ⟨b, w⟩ := c
    simp only [Memory.wfAbove, Bool.and_eq_true, decide_eq_true_eq] at hm
    simp only [Memory.write]
    split
    · refine Memory.wfAbove_cons h ?_
      simp only [Memory.wfAbove, Bool.and_eq_true, decide_eq_true_eq]
      exact ⟨⟨by omega, hm.1.2⟩, hm.2⟩
    · split
      · subst a
        exact Memory.wfAbove_cons hm.1.1 hm.2
      · simp only [Memory.wfAbove, Bool.and_eq_true, decide_eq_true_eq]
        exact ⟨hm.1, ih (by omega) hm.2⟩

/-- Every write keeps the canonical form. -/
theorem Memory.wf_write {m : Memory} (hm : m.wf = true) (a : Nat) (v : Byte) : (m.write a v).wf = true :=
  Memory.wfAbove_write (Nat.zero_le a) hm

theorem Memory.read_cons_cell {m : Memory} {b : Nat} {v : Byte} (hm : Memory.wfAbove (b + 1) m = true) (a : Nat) :
    (Memory.cons b v m).read a = if a = b then v else m.read a := by
  unfold Memory.cons
  split
  · subst v
    split
    · subst a; exact Memory.read_below hm (by omega)
    · rfl
  · rfl

theorem Memory.read_write_above {m : Memory} {lo : Nat} (hm : Memory.wfAbove lo m = true) (a : Nat) (v : Byte)
    (b : Nat) : (m.write a v).read b = if b = a then v else m.read b := by
  induction m generalizing lo with
  | nil => exact Memory.read_cons_cell rfl b
  | cons c rest ih =>
    obtain ⟨k, w⟩ := c
    simp only [Memory.wfAbove, Bool.and_eq_true, decide_eq_true_eq] at hm
    simp only [Memory.write]
    split
    · refine Memory.read_cons_cell ?_ b
      simp only [Memory.wfAbove, Bool.and_eq_true, decide_eq_true_eq]
      exact ⟨⟨by omega, hm.1.2⟩, hm.2⟩
    · split
      · subst a
        rw [Memory.read_cons_cell hm.2, Memory.read_cons]
        split <;> rfl
      · rw [Memory.read_cons, Memory.read_cons, ih hm.2]
        split
        · subst b; rw [if_neg (by omega)]
        · rfl

/-- A read after a write: the cell written gives the value, every other cell what it gave before. -/
theorem Memory.read_write {m : Memory} (hm : m.wf = true) (a : Nat) (v : Byte) (b : Nat) :
    (m.write a v).read b = if b = a then v else m.read b :=
  Memory.read_write_above hm a v b

/-- Two memories in canonical form that read the same are the same. -/
theorem Memory.ext_of_read {m n : Memory} {lo : Nat} (hm : Memory.wfAbove lo m = true) (hn : Memory.wfAbove lo n = true)
    (h : ∀ a, m.read a = n.read a) : m = n := by
  induction m generalizing n lo with
  | nil =>
    cases n with
    | nil => rfl
    | cons c rest =>
      obtain ⟨b, v⟩ := c
      simp only [Memory.wfAbove, Bool.and_eq_true, decide_eq_true_eq] at hn
      have := h b
      simp only [Memory.read_nil, Memory.read_cons, if_true] at this
      exact absurd this.symm hn.1.2
  | cons c rest ih =>
    obtain ⟨b, v⟩ := c
    simp only [Memory.wfAbove, Bool.and_eq_true, decide_eq_true_eq] at hm
    cases n with
    | nil =>
      have := h b
      simp only [Memory.read_nil, Memory.read_cons, if_true] at this
      exact absurd this hm.1.2
    | cons d rest' =>
      obtain ⟨k, w⟩ := d
      simp only [Memory.wfAbove, Bool.and_eq_true, decide_eq_true_eq] at hn
      have hbk : b = k := by
        rcases Nat.lt_trichotomy b k with hlt | heq | hgt
        · have := h b
          rw [Memory.read_cons, if_pos rfl, Memory.read_cons, if_neg (by omega),
            Memory.read_below hn.2 (by omega)] at this
          exact absurd this hm.1.2
        · exact heq
        · have := h k
          rw [Memory.read_cons, if_neg (by omega), Memory.read_cons, if_pos rfl,
            Memory.read_below hm.2 (by omega)] at this
          exact absurd this.symm hn.1.2
      subst k
      have hvw : v = w := by
        have := h b
        rwa [Memory.read_cons, if_pos rfl, Memory.read_cons, if_pos rfl] at this
      subst w
      have : rest = rest' := by
        refine ih hm.2 hn.2 fun a => ?_
        by_cases hab : a = b
        · subst a; rw [Memory.read_below hm.2 (by omega), Memory.read_below hn.2 (by omega)]
        · have := h a
          rwa [Memory.read_cons, if_neg hab, Memory.read_cons, if_neg hab] at this
      rw [this]

/-- The list of writes keeps the canonical form. -/
theorem Memory.wf_writeAll (ws : List (Nat × Byte)) {m : Memory} (hm : m.wf = true) : (m.writeAll ws).wf = true := by
  induction ws generalizing m with
  | nil => exact hm
  | cons w ws ih => exact ih (Memory.wf_write hm w.1 w.2)

@[simp] theorem Memory.writeAll_nil (m : Memory) : m.writeAll [] = m := rfl

@[simp] theorem Memory.writeAll_cons (m : Memory) (w : Nat × Byte) (ws : List (Nat × Byte)) :
    m.writeAll (w :: ws) = (m.write w.1 w.2).writeAll ws := rfl

theorem Memory.writeAll_append (m : Memory) (ws xs : List (Nat × Byte)) :
    m.writeAll (ws ++ xs) = (m.writeAll ws).writeAll xs := List.foldl_append

/-- A cell that no write of the list goes to keeps its value. -/
theorem Memory.read_writeAll_other (ws : List (Nat × Byte)) {m : Memory} (hm : m.wf = true) (a : Nat)
    (h : ∀ w ∈ ws, w.1 ≠ a) : (m.writeAll ws).read a = m.read a := by
  induction ws generalizing m with
  | nil => rfl
  | cons w ws ih =>
    rw [Memory.writeAll_cons, ih (Memory.wf_write hm w.1 w.2) fun x hx => h x (by simp [hx]),
      Memory.read_write hm, if_neg fun he => h w (by simp) he.symm]

/-! ### The dictionary -/

@[simp] theorem dictLookup_nil (c : Nat) : dictLookup [] c = none := rfl

theorem dictLookup_cons (k : Nat) (e : DictEntry) (d : List (Nat × DictEntry)) (c : Nat) :
    dictLookup ((k, e) :: d) c = if c = k then some e else dictLookup d c := rfl

/-- A lookup after a write. -/
theorem dictLookup_write (d : List (Nat × DictEntry)) (c : Nat) (e : DictEntry) (x : Nat) :
    dictLookup (dictWrite d c e) x = if x = c then some e else dictLookup d x := by
  induction d with
  | nil => rfl
  | cons f rest ih =>
    obtain ⟨k, f⟩ := f
    simp only [dictWrite]
    split
    · rfl
    · split
      · subst c; rw [dictLookup_cons, dictLookup_cons]; split <;> rfl
      · rw [dictLookup_cons, dictLookup_cons, ih]
        split
        · subst x; rw [if_neg (by omega)]
        · rfl

theorem dictForm_mono {d : List (Nat × DictEntry)} {lo lo' : Nat} (h : lo' ≤ lo) (hd : dictForm lo d = true) :
    dictForm lo' d = true := by
  cases d with
  | nil => rfl
  | cons f rest =>
    obtain ⟨k, f⟩ := f
    simp only [dictForm, Bool.and_eq_true, decide_eq_true_eq] at hd ⊢
    exact ⟨⟨by omega, hd.1.2⟩, hd.2⟩

/-- Every write of a 12-bit code keeps the table's form. -/
theorem dictForm_write {d : List (Nat × DictEntry)} {lo c : Nat} {e : DictEntry} (hlo : lo ≤ c) (hc : c < 4096)
    (hd : dictForm lo d = true) : dictForm lo (dictWrite d c e) = true := by
  induction d generalizing lo with
  | nil => simp [dictWrite, dictForm, hlo, hc]
  | cons f rest ih =>
    obtain ⟨k, f⟩ := f
    simp only [dictForm, Bool.and_eq_true, decide_eq_true_eq] at hd
    simp only [dictWrite]
    split
    · simp only [dictForm, Bool.and_eq_true, decide_eq_true_eq]
      exact ⟨⟨hlo, hc⟩, ⟨by omega, hd.1.2⟩, hd.2⟩
    · split
      · subst c
        simp only [dictForm, Bool.and_eq_true, decide_eq_true_eq]
        exact hd
      · simp only [dictForm, Bool.and_eq_true, decide_eq_true_eq]
        exact ⟨hd.1, ih (by omega) hd.2⟩

/-- `DICT` after an insertion: the new entry at NEXT, every other entry as before. -/
theorem dictAt_addEntry (k : Byte) (s : State) (c : Nat) :
    (addEntry k s).dictAt c =
      if c = s.next.toNat then { prefixCode := s.prev, suffix := k } else s.dictAt c := by
  unfold State.dictAt
  rw [addEntry_dict, addEntry_dictEra, dictLookup_write]
  split <;> rfl

end Sys2Proof.Machine
end

