-- ==== Sys2Proof/Laws/Blit.lean ====
section
/-! SUPPORT. The BLIT stage: where an index goes (R147 to R150), and everything `emit` can do (R136, R146). -/

namespace Sys2Proof.Machine

/-! ### Sequencing -/

@[simp] theorem Flow.bind_go (s : State) (k : State → Flow) : (Flow.go s).bind k = k s := rfl
@[simp] theorem Flow.bind_raised (s : State) (k : State → Flow) : (Flow.raised s).bind k = .raised s := rfl
@[simp] theorem Flow.bind_stop (f : Fault) (k : State → Flow) : (Flow.stop f).bind k = .stop f := rfl
@[simp] theorem Flow.outcome_go (s : State) : (Flow.go s).outcome = .next s := rfl
@[simp] theorem Flow.outcome_raised (s : State) : (Flow.raised s).outcome = .next s := rfl
@[simp] theorem Flow.outcome_stop (f : Fault) : (Flow.stop f).outcome = .fault f := rfl

/-- A next state comes from a return or from a raise. -/
theorem Flow.outcome_eq_next {x : Flow} {t : State} (h : x.outcome = .next t) : x = .go t ∨ x = .raised t := by
  cases x with
  | go s => left; simpa using h
  | raised s => right; simpa using h
  | stop f => simp at h

theorem Flow.bind_eq_go {x : Flow} {k : State → Flow} {t : State} (h : x.bind k = .go t) : ∃ u, x = .go u ∧ k u = .go t := by
  cases x with
  | go u => exact ⟨u, rfl, h⟩
  | raised u => simp at h
  | stop f => simp at h

theorem Flow.bind_eq_raised {x : Flow} {k : State → Flow} {t : State} (h : x.bind k = .raised t) :
    x = .raised t ∨ ∃ u, x = .go u ∧ k u = .raised t := by
  cases x with
  | go u => exact .inr ⟨u, rfl, h⟩
  | raised u => exact .inl (by simpa using h)
  | stop f => simp at h

/-! ### Where an index goes -/

/-- A destination row is a row of the frame (R150). -/
theorem ilrow_lt {k h : Nat} (hk : k < h) : ilrow k h < h := by
  simp only [ilrow]
  split <;> [skip; split <;> [skip; split]] <;> omega

/-- No two decoded rows go to the same row (R150). -/
theorem ilrow_injective {j k h : Nat} (_ : j < h) (_ : k < h) (e : ilrow j h = ilrow k h) : j = k := by
  simp only [ilrow] at e
  split at e <;> [skip; split at e <;> [skip; split at e]] <;>
    (split at e <;> [skip; split at e <;> [skip; split at e]]) <;> omega

theorem framePixels_lt (s : State) : s.framePixels < 2 ^ 32 - 1 := by
  have hw : s.frameW.toNat ≤ 65535 := by have := s.frameW.isLt; omega
  have hh : s.frameH.toNat ≤ 65535 := by have := s.frameH.isLt; omega
  have := Nat.mul_le_mul hw hh
  unfold State.framePixels
  omega

theorem colOf_lt {s : State} {n : Nat} (h : n < s.framePixels) : s.colOf n < s.frameW.toNat := by
  unfold State.framePixels at h
  exact Nat.mod_lt _ (Nat.pos_of_mul_pos_right (Nat.lt_of_le_of_lt (Nat.zero_le n) h))

theorem decodedRow_lt {s : State} {n : Nat} (h : n < s.framePixels) : n / s.frameW.toNat < s.frameH.toNat :=
  Nat.div_lt_of_lt_mul h

theorem rowOf_lt {s : State} {n : Nat} (h : n < s.framePixels) : s.rowOf n < s.frameH.toNat := by
  unfold State.rowOf
  split
  · exact ilrow_lt (decodedRow_lt h)
  · exact decodedRow_lt h

/-- A frame pixel's cell is inside the canvas space (R149). -/
theorem pixelAddr_lt {s : State} (hf : FrameOk s) {col row : Nat} (hc : col < s.frameW.toNat) (hr : row < s.frameH.toNat) :
    s.pixelAddr col row < s.canvasW.toNat * s.canvasH.toNat ∧ s.pixelAddr col row < s.canvasCells := by
  have h1 := hf.across
  have h2 := hf.down
  have hx : s.pixelAddr col row < (s.frameY.toNat + row + 1) * s.canvasW.toNat := by
    unfold State.pixelAddr
    rw [Nat.add_mul _ 1]
    omega
  have hy : (s.frameY.toNat + row + 1) * s.canvasW.toNat ≤ s.canvasH.toNat * s.canvasW.toNat :=
    Nat.mul_le_mul_right _ (by omega)
  have hz : s.canvasH.toNat * s.canvasW.toNat ≤ s.params.maxH * s.params.maxW := Nat.mul_le_mul hf.high hf.wide
  unfold State.canvasCells Config.Params.canvasCells
  rw [Nat.mul_comm s.canvasW.toNat, Nat.mul_comm s.params.maxW]
  omega

theorem indexAddr_lt {s : State} (hf : FrameOk s) {n : Nat} (h : n < s.framePixels) :
    s.indexAddr n < s.canvasCells :=
  (pixelAddr_lt hf (colOf_lt h) (rowOf_lt h)).2

/-- No two index numbers of a frame go to the same cell (R150, R155). -/
theorem indexAddr_injective {s : State} (hf : FrameOk s) {i j : Nat} (hi : i < s.framePixels) (hj : j < s.framePixels)
    (e : s.indexAddr i = s.indexAddr j) : i = j := by
  have h1 := hf.across
  have ci := colOf_lt hi
  have cj := colOf_lt hj
  unfold State.indexAddr State.pixelAddr at e
  have hrow : s.frameY.toNat + s.rowOf i = s.frameY.toNat + s.rowOf j := by
    have := congrArg (fun x => x / s.canvasW.toNat) e
    rwa [Nat.mul_comm, Nat.mul_add_div (by omega), Nat.div_eq_of_lt (by omega), Nat.mul_comm,
      Nat.mul_add_div (by omega), Nat.div_eq_of_lt (by omega), Nat.add_zero, Nat.add_zero] at this
  have hr : s.rowOf i = s.rowOf j := by omega
  rw [hrow] at e
  have hcol : s.colOf i = s.colOf j := by omega
  have hq : i / s.frameW.toNat = j / s.frameW.toNat := by
    unfold State.rowOf at hr
    split at hr
    · exact ilrow_injective (decodedRow_lt hi) (decodedRow_lt hj) hr
    · exact hr
  unfold State.colOf at hcol
  rw [← Nat.div_add_mod i s.frameW.toNat, ← Nat.div_add_mod j s.frameW.toNat, hq, hcol]

/-! ### One index -/

/-- A canvas write at a cell that exists (R52). -/
theorem memWrite_of_lt {s : State} {a : Nat} (h : a < s.canvasCells) (v : Byte) :
    memWrite a v s = .go { s with canvas := s.canvas.write a v, cwTrace := s.cwTrace ++ [(a, v)] } := if_pos h

theorem State.accept_nil (s : State) : s.accept [] = s := by
  simp [State.accept, State.blitWrites]

/-- The canvas writes depend on the configuration only. -/
theorem blitWrites_congr {s t : State} (h : SameConfig s t) (n : Nat) (ix : List Byte) :
    t.blitWrites n ix = s.blitWrites n ix := by
  cases s
  cases t
  obtain ⟨h1, h2, h3, h4, h5, h6, h7, h8, h9, -⟩ := h
  simp only at h1 h2 h3 h4 h5 h6 h7 h8 h9
  subst h1 h2 h3 h4 h5 h6 h7 h8 h9
  induction ix generalizing n with
  | nil => rfl
  | cons v vs ih => simp only [State.blitWrites, ih]; rfl

theorem State.accept_accept {s : State} {ix jx : List Byte} (h : s.pixcnt.toNat + ix.length < 2 ^ 32) :
    (s.accept ix).accept jx = s.accept (ix ++ jx) := by
  have hp : (s.pixcnt + BitVec.ofNat 32 ix.length).toNat = s.pixcnt.toNat + ix.length := by
    rw [BitVec.toNat_add, BitVec.toNat_ofNat, Nat.add_mod_mod, Nat.mod_eq_of_lt h]
  have hb : ∀ n, s.blitWrites n (ix ++ jx) = s.blitWrites n ix ++ s.blitWrites (n + ix.length) jx := by
    intro n
    clear hp h
    induction ix generalizing n with
    | nil => rfl
    | cons v vs ih =>
      simp only [List.cons_append, State.blitWrites, ih, List.length_cons]
      rw [show n + 1 + vs.length = n + (vs.length + 1) from by omega]
      split <;> simp
  have hc : ∀ n, (s.accept ix).blitWrites n jx = s.blitWrites n jx := fun n =>
    blitWrites_congr (s := s) (t := s.accept ix) ⟨rfl, rfl, rfl, rfl, rfl, rfl, rfl, rfl, rfl, rfl⟩ n jx
  have hq : s.pixcnt + BitVec.ofNat 32 ix.length + BitVec.ofNat 32 jx.length =
      s.pixcnt + BitVec.ofNat 32 (ix ++ jx).length := by
    rw [BitVec.add_assoc, ← BitVec.ofNat_add, List.length_append]
  show ({ s with
    idxTrace := (s.accept ix).idxTrace ++ jx
    cwTrace := (s.accept ix).cwTrace ++ (s.accept ix).blitWrites (s.accept ix).pixcnt.toNat jx
    canvas := (s.accept ix).canvas.writeAll ((s.accept ix).blitWrites (s.accept ix).pixcnt.toNat jx)
    pixcnt := s.pixcnt + BitVec.ofNat 32 ix.length + BitVec.ofNat 32 jx.length } : State) = _
  rw [hc, hq]
  simp only [State.accept_pixcnt, State.accept_idxTrace, State.accept_cwTrace, State.accept_canvas, hp,
    ← Memory.writeAll_append, List.append_assoc, ← hb]
  rfl

/-- A full frame refuses an index (R146, E5). -/
theorem emitIndex_full {s : State} (h : s.frameFull = true) (v : Byte) :
    emitIndex v s = .raised (raise .decodeError s) := by
  simp [emitIndex, h]

/-- What `emit_index` does when it returns: it accepts the index. -/
theorem emitIndex_go {v : Byte} {s t : State} (h : emitIndex v s = .go t) :
    s.pixcnt.toNat < s.framePixels ∧ t = s.accept [v] := by
  unfold emitIndex at h
  split at h
  · simp at h
  · next hfull =>
    split at h
    · simp at h
    · next hpast =>
      have hlt : s.pixcnt.toNat < s.framePixels := by
        simp only [State.frameFull, decide_eq_true_eq] at hfull
        omega
      refine ⟨hlt, ?_⟩
      obtain ⟨u, hu, ht⟩ := Flow.bind_eq_go h
      simp only [Flow.go.injEq] at ht
      subst ht
      unfold placeIndex at hu
      have htr : (traceIndex v s).transparent v = s.transparent v := rfl
      rw [htr] at hu
      split at hu
      · next htv =>
        simp only [Flow.go.injEq] at hu
        subst hu
        simp [State.accept, State.blitWrites, htv, countIndex, traceIndex]
      · next htv =>
        unfold memWrite at hu
        split at hu
        · simp only [Flow.go.injEq] at hu
          subst hu
          have hia : (traceIndex v s).indexAddr s.pixcnt.toNat = s.indexAddr s.pixcnt.toNat := rfl
          simp [State.accept, State.blitWrites, htv, countIndex, traceIndex_canvas, traceIndex_cwTrace, hia,
            Memory.writeAll]
        · simp at hu

/-- `emit_index` raises only on a full frame (R146). -/
theorem emitIndex_raised {v : Byte} {s t : State} (h : emitIndex v s = .raised t) :
    s.frameFull = true ∧ t = raise .decodeError s := by
  unfold emitIndex at h
  split at h
  · next hfull => exact ⟨hfull, by simpa using h.symm⟩
  · split at h
    · simp at h
    · rcases Flow.bind_eq_raised h with hp | ⟨u, -, hu⟩
      · unfold placeIndex at hp
        split at hp
        · simp at hp
        · unfold memWrite at hp; split at hp <;> simp at hp
      · simp at hu

/-- `emit_index` on a frame that is not full (R146 to R149). -/
theorem emitIndex_of_room {s : State} (hf : FrameOk s) (h : s.pixcnt.toNat < s.framePixels) (v : Byte) :
    emitIndex v s = .go (s.accept [v]) := by
  have hfull : s.frameFull = false := by simp only [State.frameFull, decide_eq_false_iff_not]; omega
  have haddr : (traceIndex v s).indexAddr (traceIndex v s).pixcnt.toNat < (traceIndex v s).canvasCells := indexAddr_lt hf h
  cases hx : emitIndex v s with
  | go t => rw [(emitIndex_go hx).2]
  | raised t => rw [(emitIndex_raised hx).1] at hfull; simp at hfull
  | stop f =>
    exfalso
    unfold emitIndex at hx
    rw [if_neg (by simp [hfull]), if_neg (show ¬ s.framePixels < s.pixcnt.toNat by omega)] at hx
    unfold placeIndex at hx
    split at hx
    · simp at hx
    · rw [memWrite_of_lt (s := traceIndex v s) haddr] at hx; simp at hx

/-! ### A sequence of indices -/

theorem accept_framePixels (s : State) (ix : List Byte) : (s.accept ix).framePixels = s.framePixels := rfl

theorem accept_pixcnt_toNat {s : State} {ix : List Byte} (h : s.pixcnt.toNat + ix.length ≤ s.framePixels) :
    (s.accept ix).pixcnt.toNat = s.pixcnt.toNat + ix.length := by
  have := framePixels_lt s
  rw [State.accept_pixcnt, BitVec.toNat_add, BitVec.toNat_ofNat]
  omega

theorem FrameOk.accept {s : State} (hf : FrameOk s) {ix : List Byte} (h : s.pixcnt.toNat + ix.length ≤ s.framePixels) :
    FrameOk (s.accept ix) :=
  ⟨hf.wide, hf.high, hf.across, hf.down, by rw [accept_pixcnt_toNat h]; exact h⟩

/-- What `emit` does when it returns: it accepts every index, and there was room for all of them (R136). -/
theorem emit_go {ix : List Byte} {s t : State} (h : emit ix s = .go t) :
    (ix ≠ [] → s.pixcnt.toNat + ix.length ≤ s.framePixels) ∧ t = s.accept ix := by
  induction ix generalizing s with
  | nil => simp only [emit, Flow.go.injEq] at h; subst h; exact ⟨by simp, (State.accept_nil s).symm⟩
  | cons v vs ih =>
    obtain ⟨u, hu, ht⟩ := Flow.bind_eq_go h
    obtain ⟨hlt, rfl⟩ := emitIndex_go hu
    obtain ⟨hroom, rfl⟩ := ih ht
    have hp := accept_pixcnt_toNat (s := s) (ix := [v]) (by simp; omega)
    have hfp := framePixels_lt s
    refine ⟨fun _ => ?_, ?_⟩
    · cases vs with
      | nil => simp; omega
      | cons w ws =>
        have := hroom (by simp)
        rw [hp, accept_framePixels] at this
        simp at this ⊢
        omega
    · rw [State.accept_accept (by simp; omega)]; rfl

/-- What `emit` does when it raises: it has accepted a first part of the indices that fills the frame (R136, R170). -/
theorem emit_raised {ix : List Byte} {s t : State} (h : emit ix s = .raised t) :
    ∃ k, k < ix.length ∧ emit (ix.take k) s = .go (s.accept (ix.take k)) ∧ (s.accept (ix.take k)).frameFull = true ∧
      t = raise .decodeError (s.accept (ix.take k)) := by
  induction ix generalizing s with
  | nil => simp [emit] at h
  | cons v vs ih =>
    rcases Flow.bind_eq_raised h with hu | ⟨u, hu, ht⟩
    · obtain ⟨hfull, rfl⟩ := emitIndex_raised hu
      exact ⟨0, by simp, by simp [emit, State.accept_nil], by simpa [State.accept_nil] using hfull,
        by simp [State.accept_nil]⟩
    · obtain ⟨hlt, rfl⟩ := emitIndex_go hu
      obtain ⟨k, hk, hgo, hfull, rfl⟩ := ih ht
      have hfp := framePixels_lt s
      have hacc : (s.accept [v]).accept (vs.take k) = s.accept (v :: vs.take k) := by
        rw [State.accept_accept (by simp; omega)]; rfl
      refine ⟨k + 1, by simpa using hk, ?_, ?_, ?_⟩
      · simp only [List.take_succ_cons, emit, hu, Flow.bind_go, hgo, hacc]
      · simpa only [List.take_succ_cons, hacc] using hfull
      · simp only [List.take_succ_cons, hacc]

/-- `emit` on a frame with room for every index. -/
theorem emit_of_room {s : State} (hf : FrameOk s) (ix : List Byte) (h : s.pixcnt.toNat + ix.length ≤ s.framePixels) :
    emit ix s = .go (s.accept ix) := by
  induction ix generalizing s with
  | nil => simp [emit, State.accept_nil]
  | cons v vs ih =>
    simp only [List.length_cons] at h
    have hfp := framePixels_lt s
    have hp := accept_pixcnt_toNat (s := s) (ix := [v]) (by simp; omega)
    simp only [emit, emitIndex_of_room hf (by omega), Flow.bind_go]
    rw [ih (hf.accept (by simp; omega)) (by rw [hp, accept_framePixels]; simp; omega),
      State.accept_accept (by simp; omega)]
    rfl

/-- `emit` on a frame without room for every index: the ones that fit are accepted, the next one raises (R146, R170). -/
theorem emit_of_excess {s : State} (hf : FrameOk s) (ix : List Byte) (h : s.framePixels < s.pixcnt.toNat + ix.length) :
    emit ix s = .raised (raise .decodeError (s.accept (ix.take (s.framePixels - s.pixcnt.toNat)))) := by
  induction ix generalizing s with
  | nil => have := hf.count; simp at h; omega
  | cons v vs ih =>
    simp only [List.length_cons] at h
    have hc := hf.count
    have hfp := framePixels_lt s
    by_cases hfull : s.pixcnt.toNat = s.framePixels
    · rw [show s.framePixels - s.pixcnt.toNat = 0 from by omega]
      have : s.frameFull = true := by simp only [State.frameFull, decide_eq_true_eq]; exact hfull
      simp [emit, emitIndex_full this, State.accept_nil]
    · have hp := accept_pixcnt_toNat (s := s) (ix := [v]) (by simp; omega)
      simp only [emit, emitIndex_of_room hf (by omega), Flow.bind_go]
      rw [ih (hf.accept (by simp; omega)) (by rw [hp, accept_framePixels]; simp; omega), accept_framePixels, hp]
      rw [show s.framePixels - s.pixcnt.toNat = (s.framePixels - (s.pixcnt.toNat + [v].length)) + 1 from by simp; omega,
        List.take_succ_cons, State.accept_accept (by simp; omega)]
      rfl

end Sys2Proof.Machine
end

