-- ==== Sys2Proof/Laws/Lzw.lean ====
section
/-! SUPPORT. The LZW stage: what `insert`, `exp` and each code do (42_lzw_codes.md), and that they keep R138. -/

namespace Sys2Proof.Machine

/-! ### insert (R133, R134) -/

/-- A projection that neither the new entry nor the width touches is untouched by `insert`. -/
theorem insert_proj {α : Sort _} (p : State → α) (ha : ∀ k s, p (addEntry k s) = p s)
    (hw : ∀ s : State, p { s with width := s.width + 1 } = p s) (k : Byte) (s : State) : p (insert k s) = p s := by
  unfold insert
  split
  · unfold grow
    split
    · rw [hw, ha]
    · rw [ha]
  · rfl

@[simp] theorem insert_runState (k : Byte) (s : State) : (insert k s).runState = s.runState := insert_proj _ (fun _ _ => rfl) (fun _ => rfl) k s
@[simp] theorem insert_error (k : Byte) (s : State) : (insert k s).error = s.error := insert_proj _ (fun _ _ => rfl) (fun _ => rfl) k s
@[simp] theorem insert_canvasW (k : Byte) (s : State) : (insert k s).canvasW = s.canvasW := insert_proj _ (fun _ _ => rfl) (fun _ => rfl) k s
@[simp] theorem insert_canvasH (k : Byte) (s : State) : (insert k s).canvasH = s.canvasH := insert_proj _ (fun _ _ => rfl) (fun _ => rfl) k s
@[simp] theorem insert_frameX (k : Byte) (s : State) : (insert k s).frameX = s.frameX := insert_proj _ (fun _ _ => rfl) (fun _ => rfl) k s
@[simp] theorem insert_frameY (k : Byte) (s : State) : (insert k s).frameY = s.frameY := insert_proj _ (fun _ _ => rfl) (fun _ => rfl) k s
@[simp] theorem insert_frameW (k : Byte) (s : State) : (insert k s).frameW = s.frameW := insert_proj _ (fun _ _ => rfl) (fun _ => rfl) k s
@[simp] theorem insert_frameH (k : Byte) (s : State) : (insert k s).frameH = s.frameH := insert_proj _ (fun _ _ => rfl) (fun _ => rfl) k s
@[simp] theorem insert_interlace (k : Byte) (s : State) : (insert k s).interlace = s.interlace := insert_proj _ (fun _ _ => rfl) (fun _ => rfl) k s
@[simp] theorem insert_transpEn (k : Byte) (s : State) : (insert k s).transpEn = s.transpEn := insert_proj _ (fun _ _ => rfl) (fun _ => rfl) k s
@[simp] theorem insert_transpIdx (k : Byte) (s : State) : (insert k s).transpIdx = s.transpIdx := insert_proj _ (fun _ _ => rfl) (fun _ => rfl) k s
@[simp] theorem insert_pos (k : Byte) (s : State) : (insert k s).pos = s.pos := insert_proj _ (fun _ _ => rfl) (fun _ => rfl) k s
@[simp] theorem insert_fstate (k : Byte) (s : State) : (insert k s).fstate = s.fstate := insert_proj _ (fun _ _ => rfl) (fun _ => rfl) k s
@[simp] theorem insert_rem (k : Byte) (s : State) : (insert k s).rem = s.rem := insert_proj _ (fun _ _ => rfl) (fun _ => rfl) k s
@[simp] theorem insert_acc (k : Byte) (s : State) : (insert k s).acc = s.acc := insert_proj _ (fun _ _ => rfl) (fun _ => rfl) k s
@[simp] theorem insert_nbits (k : Byte) (s : State) : (insert k s).nbits = s.nbits := insert_proj _ (fun _ _ => rfl) (fun _ => rfl) k s
@[simp] theorem insert_m (k : Byte) (s : State) : (insert k s).m = s.m := insert_proj _ (fun _ _ => rfl) (fun _ => rfl) k s
@[simp] theorem insert_prev (k : Byte) (s : State) : (insert k s).prev = s.prev := insert_proj _ (fun _ _ => rfl) (fun _ => rfl) k s
@[simp] theorem insert_prevValid (k : Byte) (s : State) : (insert k s).prevValid = s.prevValid := insert_proj _ (fun _ _ => rfl) (fun _ => rfl) k s
@[simp] theorem insert_ended (k : Byte) (s : State) : (insert k s).ended = s.ended := insert_proj _ (fun _ _ => rfl) (fun _ => rfl) k s
@[simp] theorem insert_pixcnt (k : Byte) (s : State) : (insert k s).pixcnt = s.pixcnt := insert_proj _ (fun _ _ => rfl) (fun _ => rfl) k s
@[simp] theorem insert_canvas (k : Byte) (s : State) : (insert k s).canvas = s.canvas := insert_proj _ (fun _ _ => rfl) (fun _ => rfl) k s
@[simp] theorem insert_params (k : Byte) (s : State) : (insert k s).params = s.params := insert_proj _ (fun _ _ => rfl) (fun _ => rfl) k s
@[simp] theorem insert_inputs (k : Byte) (s : State) : (insert k s).inputs = s.inputs := insert_proj _ (fun _ _ => rfl) (fun _ => rfl) k s
@[simp] theorem insert_returned (k : Byte) (s : State) : (insert k s).returned = s.returned := insert_proj _ (fun _ _ => rfl) (fun _ => rfl) k s
@[simp] theorem insert_idxTrace (k : Byte) (s : State) : (insert k s).idxTrace = s.idxTrace := insert_proj _ (fun _ _ => rfl) (fun _ => rfl) k s
@[simp] theorem insert_cwTrace (k : Byte) (s : State) : (insert k s).cwTrace = s.cwTrace := insert_proj _ (fun _ _ => rfl) (fun _ => rfl) k s
@[simp] theorem insert_draws (k : Byte) (s : State) : (insert k s).draws = s.draws := insert_proj _ (fun _ _ => rfl) (fun _ => rfl) k s
@[simp] theorem insert_dictEra (k : Byte) (s : State) : (insert k s).dictEra = s.dictEra := insert_proj _ (fun _ _ => rfl) (fun _ => rfl) k s

@[simp] theorem insert_clear (k : Byte) (s : State) : (insert k s).clear = s.clear := by
  unfold State.clear; rw [insert_m]

@[simp] theorem insert_framePixels (k : Byte) (s : State) : (insert k s).framePixels = s.framePixels := by
  unfold State.framePixels; rw [insert_frameW, insert_frameH]

/-- A full dictionary is frozen (R133). -/
theorem insert_full {s : State} (h : 4095 < s.next.toNat) (k : Byte) : insert k s = s := by
  unfold insert; rw [if_neg (by omega)]

/-- NEXT after an insertion (R133). -/
theorem insert_next {s : State} (h : s.next.toNat ≤ 4095) (k : Byte) : (insert k s).next.toNat = s.next.toNat + 1 := by
  have ha : (addEntry k s).next.toNat = s.next.toNat + 1 := by
    rw [addEntry_next, BitVec.toNat_add]
    exact Nat.mod_eq_of_lt (by simp; omega)
  unfold insert grow
  rw [if_pos h]
  split
  · exact ha
  · exact ha

/-- WIDTH after an insertion (R134). -/
theorem insert_width {s : State} (h : s.next.toNat ≤ 4095) (k : Byte) :
    (insert k s).width =
      if s.next.toNat + 1 = 2 ^ s.width.toNat ∧ s.width.toNat < 12 then s.width + 1 else s.width := by
  have ha : (addEntry k s).next.toNat = s.next.toNat + 1 := by
    rw [addEntry_next, BitVec.toNat_add]
    exact Nat.mod_eq_of_lt (by simp; omega)
  unfold insert grow
  rw [if_pos h, ha, addEntry_width]
  split <;> rfl

/-- DICT after an insertion (R133). -/
theorem insert_dictAt {s : State} (h : s.next.toNat ≤ 4095) (k : Byte) (c : Nat) :
    (insert k s).dictAt c =
      if c = s.next.toNat then { prefixCode := s.prev, suffix := k } else s.dictAt c := by
  rw [← dictAt_addEntry]
  unfold insert grow
  rw [if_pos h]
  split <;> rfl

theorem insert_dictForm {s : State} (h : dictForm 0 s.dict = true) (k : Byte) : dictForm 0 (insert k s).dict = true := by
  unfold insert grow
  split
  · split <;> exact dictForm_write (Nat.zero_le _) (by omega) h
  · exact h

/-! ### exp and first (R126, R127) -/

/-- Enough links to walk from a defined code down to a singleton (R37). -/
def EnoughLinks (s : State) (n c : Nat) : Prop := c < s.clear ∨ c ≤ s.clear + 1 + n

/-- Everything a walk from a defined code gives (R126, R127): a non-empty expansion of indices below CLEAR, its first
index that of `first`. -/
theorem expand_spec {s : State} (hl : LzwOk s) {n c : Nat} (hn : EnoughLinks s n c) (hc : c < s.next.toNat)
    (hp : s.plain c) :
    ∃ k ix, expand s n c = some (k :: ix) ∧ walkFirst s n c = some k ∧ (∀ v ∈ k :: ix, v.toNat < s.clear) ∧
      ix.length ≤ n := by
  have hclear : s.clear ≤ 256 := Nat.pow_le_pow_right (n := 2) (by omega) hl.mHigh
  have single : ∀ c, c < s.clear → (BitVec.ofNat 8 c).toNat < s.clear := by
    intro c h
    rw [BitVec.toNat_ofNat]
    omega
  induction n generalizing c with
  | zero =>
    have h : c < s.clear := by
      rcases hn with h | h
      · exact h
      · have := hp.1; have := hp.2; unfold State.endVal at this; omega
    exact ⟨BitVec.ofNat 8 c, [], by simp [expand, h], by simp [walkFirst, h], by simpa using single c h, by simp⟩
  | succ n ih =>
    by_cases h : c < s.clear
    · exact ⟨BitVec.ofNat 8 c, [], by simp [expand, h], by simp [walkFirst, h], by simpa using single c h, by simp⟩
    · have h2 : s.clear + 2 ≤ c := by have := hp.1; have := hp.2; unfold State.endVal at this; omega
      obtain ⟨hlt, hpp, hs⟩ := hl.dictOk c h2 hc
      obtain ⟨k, ix, hx, hf, hall, hlen⟩ := ih (c := (s.dictAt c).prefixCode.toNat)
        (by rcases hn with hn | hn
            · exact absurd hn h
            · exact .inr (by omega)) (by omega) hpp
      refine ⟨k, ix ++ [(s.dictAt c).suffix], by simp [expand, h, hx], by simp [walkFirst, h, hf], ?_, by simpa using hlen⟩
      intro v hv
      simp only [List.mem_cons, List.mem_append, List.not_mem_nil, or_false] at hv
      rcases hv with rfl | hv | rfl
      · exact hall _ (by simp)
      · exact hall v (by simp [hv])
      · exact hs

/-- The bound of R7 is enough for every code of 12 bits. -/
theorem enoughLinks_of_lt {s : State} {c : Nat} (h : c < 4096) : EnoughLinks s Config.maxChainDepth c :=
  .inr (by unfold Config.maxChainDepth; omega)

/-- `exp` and `first` of a defined code (R126, R127). -/
theorem expOf_spec {s : State} (hl : LzwOk s) {c : Code} (hc : c.toNat < s.next.toNat) (hp : s.plain c.toNat) :
    ∃ k ix, expOf s c = some (k :: ix) ∧ firstOf s c = some k ∧ (∀ v ∈ k :: ix, v.toNat < s.clear) ∧
      ix.length ≤ Config.maxChainDepth :=
  expand_spec hl (enoughLinks_of_lt (by have := c.isLt; omega)) hc hp

/-- `exp` of a singleton (R126). -/
theorem expand_singleton {s : State} {c : Nat} (h : c < s.clear) (n : Nat) : expand s n c = some [BitVec.ofNat 8 c] := by
  cases n <;> simp [expand, h]

/-- `exp` and `first` read M and DICT only. -/
theorem expand_congr {s u : State} (hm : u.m = s.m) (hd : u.dict = s.dict) (he : u.dictEra = s.dictEra) (n c : Nat) :
    expand u n c = expand s n c ∧ walkFirst u n c = walkFirst s n c := by
  have hc : u.clear = s.clear := by unfold State.clear; rw [hm]
  have ha : ∀ x, u.dictAt x = s.dictAt x := by intro x; unfold State.dictAt; rw [hd, he]
  induction n generalizing c with
  | zero => simp only [expand, walkFirst, hc, and_self]
  | succ n ih => simp only [expand, walkFirst, hc, ha, ih, and_self]

/-- More links than enough change nothing. -/
theorem expand_more {s : State} {n c : Nat} {ix : List Byte} (h : expand s n c = some ix) (k : Nat) :
    expand s (n + k) c = some ix := by
  induction n generalizing c ix with
  | zero =>
    simp only [expand] at h
    split at h
    · next hc => rw [expand_singleton hc]; exact h
    · simp at h
  | succ n ih =>
    rw [Nat.add_right_comm]
    simp only [expand] at h ⊢
    split at h
    · next hc => rw [if_pos hc]; exact h
    · next hc =>
      rw [if_neg hc]
      cases hx : expand s n (s.dictAt c).prefixCode.toNat with
      | none => simp [hx] at h
      | some jx => rw [hx] at h; rw [ih hx]; exact h

/-- Expansions of codes below NEXT do not change when an entry is inserted (R131 corner case d). -/
theorem expand_insert {s : State} (hl : LzwOk s) {n c : Nat} (hc : c < s.next.toNat) (hp : s.plain c) (k : Byte) :
    expand (insert k s) n c = expand s n c := by
  by_cases hfull : 4095 < s.next.toNat
  · rw [insert_full hfull]
  · induction n generalizing c with
    | zero => simp only [expand, insert_clear]
    | succ n ih =>
      simp only [expand, insert_clear]
      split
      · rfl
      · next h =>
        have h2 : s.clear + 2 ≤ c := by have := hp.1; have := hp.2; unfold State.endVal at this; omega
        obtain ⟨hlt, hpp, -⟩ := hl.dictOk c h2 hc
        rw [insert_dictAt (by omega), if_neg (by omega), ih (by omega) hpp]

/-! ### The invariants of R138 -/

/-- R138 speaks of M, WIDTH, NEXT, PREV, PREV_VALID and DICT only. -/
theorem LzwOk.congr {s t : State} (h : LzwOk s) (hm : t.m = s.m) (hw : t.width = s.width) (hn : t.next = s.next)
    (hp : t.prev = s.prev) (hv : t.prevValid = s.prevValid) (hd : t.dict = s.dict) (he : t.dictEra = s.dictEra) :
    LzwOk t := by
  cases s
  cases t
  simp only at hm hw hn hp hv hd he
  subst hm hw hn hp hv hd he
  exact ⟨h.mLow, h.mHigh, h.widthLow, h.widthHigh, h.nextLow, h.nextHigh, h.nextTop, h.grown, h.prevOk, h.fresh, h.dictOk⟩

theorem LzwOk.clear_le {s : State} (h : LzwOk s) : 4 ≤ s.clear ∧ s.clear ≤ 256 ∧ 2 * s.clear ≤ 2 ^ s.width.toNat :=
  ⟨Nat.pow_le_pow_right (n := 2) (by omega) h.mLow, Nat.pow_le_pow_right (n := 2) (by omega) h.mHigh, by
    have := Nat.pow_le_pow_right (n := 2) (by omega) h.widthLow
    rw [Nat.pow_succ] at this
    unfold State.clear
    omega⟩

theorem LzwOk.next_le {s : State} (h : LzwOk s) : s.next.toNat ≤ 4096 :=
  Nat.le_trans h.nextHigh (Nat.pow_le_pow_right (n := 2) (by omega) h.widthHigh)

/-- The state `lzw_init` and CLR leave (R26, R128). -/
theorem lzwInit_lzwOk {s : State} (h2 : 2 ≤ s.m.toNat) (h8 : s.m.toNat ≤ 8) : LzwOk (lzwInit s) := by
  have h4 : 4 ≤ 2 ^ s.m.toNat := Nat.pow_le_pow_right (n := 2) (by omega) h2
  have h256 : 2 ^ s.m.toNat ≤ 256 := Nat.pow_le_pow_right (n := 2) (by omega) h8
  have hc : s.clear = 2 ^ s.m.toNat := rfl
  have hw : (lzwInit s).width.toNat = s.m.toNat + 1 := by
    rw [lzwInit_width, BitVec.toNat_add]
    exact Nat.mod_eq_of_lt (by simp; omega)
  have hn : (lzwInit s).next.toNat = s.clear + 2 := by
    rw [lzwInit_next, BitVec.toNat_ofNat]
    exact Nat.mod_eq_of_lt (by omega)
  have hcl : (lzwInit s).clear = s.clear := rfl
  have hp : 2 ^ (s.m.toNat + 1) = s.clear * 2 := Nat.pow_succ 2 s.m.toNat
  constructor
  · exact h2
  · exact h8
  · rw [hw]; exact Nat.le_refl _
  · omega
  · omega
  · rw [hw, hn, hp]; omega
  · rw [hw, hn, hp]; omega
  · intro hlt; rw [hw] at hlt; exact absurd hlt (Nat.lt_irrefl _)
  · intro hv; simp at hv
  · intro _; exact ⟨by rw [hn, hcl], hw⟩
  · intro e h1 h2; omega

/-- An insertion keeps R138 (R37, R133, R134). -/
theorem insert_lzwOk {s : State} (h : LzwOk s) (hv : s.prevValid = true) {k : Byte} (hk : k.toNat < s.clear) :
    LzwOk (insert k s) := by
  by_cases hfull : 4095 < s.next.toNat
  · rw [insert_full hfull]; exact h
  · have hle : s.next.toNat ≤ 4095 := by omega
    have hn := insert_next hle k
    have hwid := insert_width hle k
    have hd := fun c => insert_dictAt hle k c
    have hpw : ∀ w, w < 12 → 2 ^ (w + 1) ≤ 4096 := fun w hw =>
      Nat.pow_le_pow_right (n := 2) (by omega) (show w + 1 ≤ 12 by omega)
    have hlt : s.next.toNat + 1 ≤ 2 ^ s.width.toNat := by
      rcases Nat.lt_or_ge s.next.toNat (2 ^ s.width.toNat) with hh | hh
      · omega
      · have := h.nextTop (Nat.le_antisymm h.nextHigh hh)
        rw [this] at hh; omega
    have hww : (insert k s).width.toNat =
        if s.next.toNat + 1 = 2 ^ s.width.toNat ∧ s.width.toNat < 12 then s.width.toNat + 1 else s.width.toNat := by
      rw [hwid]
      split
      · rw [BitVec.toNat_add]; exact Nat.mod_eq_of_lt (by simp; omega)
      · rfl
    have hm : (insert k s).m.toNat = s.m.toNat := by rw [insert_m]
    have h1 := h.widthLow
    have h2 := h.widthHigh
    have h3 := h.nextLow
    have hpp := h.prevOk hv
    constructor
    · rw [hm]; exact h.mLow
    · rw [hm]; exact h.mHigh
    · rw [hm, hww]; split <;> omega
    · rw [hww]; split <;> omega
    · rw [insert_clear, hn]; omega
    · rw [hn, hww]
      split
      · rw [Nat.pow_succ]; omega
      · exact hlt
    · rw [hn, hww]
      split
      · next hg => intro he; rw [Nat.pow_succ] at he; omega
      · next hg => intro he; omega
    · rw [hm, hn, hww]
      split
      · next hg => intro _; rw [Nat.add_sub_cancel]; omega
      · intro hgt; have := h.grown hgt; omega
    · intro _
      rw [insert_prev, hn]
      exact ⟨by omega, by unfold State.plain State.endVal at *; rw [insert_clear]; exact hpp.2⟩
    · intro hf; rw [insert_prevValid, hv] at hf; simp at hf
    · intro e he1 he2
      rw [insert_clear] at he1 ⊢
      rw [hn] at he2
      rw [hd]
      unfold State.plain State.endVal at *
      rw [insert_clear]
      split
      · next he => exact ⟨by simp only; omega, hpp.2, hk⟩
      · next he => exact h.dictOk e he1 (by omega)

/-- `PREV <- c` keeps R138 when `c` is a defined code (R131, R132). -/
theorem setPrev_lzwOk {s : State} (h : LzwOk s) (hv : s.prevValid = true) {c : Code} (hc : c.toNat < s.next.toNat)
    (hp : s.plain c.toNat) : LzwOk (setPrev c s) :=
  ⟨h.mLow, h.mHigh, h.widthLow, h.widthHigh, h.nextLow, h.nextHigh, h.nextTop, h.grown, fun _ => ⟨hc, hp⟩,
    fun hf => by rw [setPrev_prevValid, hv] at hf; simp at hf, h.dictOk⟩

/-- `PREV <- c; PREV_VALID <- 1` keeps R138 when `c` is a defined code (R130). -/
theorem setFirstPrev_lzwOk {s : State} (h : LzwOk s) {c : Code} (hc : c.toNat < s.next.toNat) (hp : s.plain c.toNat) :
    LzwOk (setFirstPrev c s) :=
  ⟨h.mLow, h.mHigh, h.widthLow, h.widthHigh, h.nextLow, h.nextHigh, h.nextTop, h.grown, fun _ => ⟨hc, hp⟩,
    fun hf => by simp at hf, h.dictOk⟩

theorem accept_lzwOk {s : State} (h : LzwOk s) (ix : List Byte) : LzwOk (s.accept ix) :=
  h.congr rfl rfl rfl rfl rfl rfl rfl

/-! ### The classifier (R78) -/

theorem ctx_clear (s : State) : s.ctx.clear = s.clear := rfl
theorem ctx_endVal (s : State) : s.ctx.endVal = s.endVal := rfl

/-- A code that is not special, in the terms of the state. -/
theorem classify_plain {x : DecodeCtx} {c : Code}
    (h : classify x c ≠ .clr ∧ classify x c ≠ .endCode) : c.toNat ≠ x.clear ∧ c.toNat ≠ x.endVal := by
  unfold classify at h
  split at h
  · simp at h
  · split at h
    · simp at h
    · exact ⟨by assumption, by assumption⟩

/-- FIRST and DICT are below NEXT (R77). -/
theorem classify_first_dict {x : DecodeCtx} {c : Code} (h : classify x c = .firstCode ∨ classify x c = .dictCode) :
    c.toNat < x.next.toNat ∧ (c.toNat ≠ x.clear ∧ c.toNat ≠ x.endVal) ∧
      (classify x c = .dictCode ↔ x.prevValid = true) := by
  unfold classify at h ⊢
  split at h
  · simp at h
  · split at h
    · simp at h
    · split at h
      · simp at h
      · split at h
        · split at h <;> simp at h
        · next h1 h2 h3 h4 =>
          rw [if_neg h1, if_neg h2, if_neg h3, if_neg h4]
          refine ⟨by omega, ⟨h1, h2⟩, ?_⟩
          split <;> simp [*]

/-- KWKWK is NEXT (R77). -/
theorem classify_kwkwk {x : DecodeCtx} {c : Code} (h : classify x c = .kwkwk) :
    c.toNat = x.next.toNat ∧ (c.toNat ≠ x.clear ∧ c.toNat ≠ x.endVal) ∧ x.prevValid = true := by
  unfold classify at h
  split at h
  · simp at h
  · split at h
    · simp at h
    · split at h
      · simp at h
      · split at h
        · split at h
          · exact ⟨by assumption, ⟨by assumption, by assumption⟩, by assumption⟩
          · simp at h
        · split at h <;> simp at h

end Sys2Proof.Machine
end

