-- ==== Sys2Proof/Laws/Codes.lean ====
section
/-! SUPPORT. Everything a code, the fetch loop and a byte can do: the indices they deliver, what they leave alone, the
invariants they keep, and that they never stop. -/

namespace Sys2Proof.Machine

/-! ### What running codes leaves alone -/

/-- `t` is `s` after some codes have run without an error: the indices `ix` were accepted, and beside what they changed
only ACC, NBITS and the working registers of the LZW stage (M and the era of DICT excepted) may differ. -/
structure Ran (ix : List Byte) (s t : State) : Prop where
  config : SameConfig s t
  run : SameRun s t
  host : SameHost s t
  pos : t.pos = s.pos
  fstate : t.fstate = s.fstate
  rem : t.rem = s.rem
  m : t.m = s.m
  draws : t.draws = s.draws
  dictEra : t.dictEra = s.dictEra
  idxTrace : t.idxTrace = (s.accept ix).idxTrace
  cwTrace : t.cwTrace = (s.accept ix).cwTrace
  canvas : t.canvas = (s.accept ix).canvas
  pixcnt : t.pixcnt = (s.accept ix).pixcnt
  room : ix ≠ [] → s.pixcnt.toNat + ix.length ≤ s.framePixels

theorem SameConfig.refl (s : State) : SameConfig s s := ⟨rfl, rfl, rfl, rfl, rfl, rfl, rfl, rfl, rfl, rfl⟩

theorem SameConfig.trans {s t u : State} (h : SameConfig s t) (k : SameConfig t u) : SameConfig s u := by
  obtain ⟨h1, h2, h3, h4, h5, h6, h7, h8, h9, h10⟩ := h
  obtain ⟨k1, k2, k3, k4, k5, k6, k7, k8, k9, k10⟩ := k
  exact ⟨k1.trans h1, k2.trans h2, k3.trans h3, k4.trans h4, k5.trans h5, k6.trans h6, k7.trans h7, k8.trans h8,
    k9.trans h9, k10.trans h10⟩

theorem SameConfig.framePixels {s t : State} (h : SameConfig s t) : t.framePixels = s.framePixels := by
  obtain ⟨-, -, -, -, h5, h6, -⟩ := h
  unfold State.framePixels
  rw [h5, h6]

/-- Nothing delivered, nothing else changed. -/
theorem Ran.of_same {s t : State} (config : SameConfig s t) (run : SameRun s t) (host : SameHost s t)
    (pos : t.pos = s.pos) (fstate : t.fstate = s.fstate) (rem : t.rem = s.rem) (m : t.m = s.m)
    (draws : t.draws = s.draws) (dictEra : t.dictEra = s.dictEra) (blit : SameBlit s t) : Ran [] s t where
  config := config
  run := run
  host := host
  pos := pos
  fstate := fstate
  rem := rem
  m := m
  draws := draws
  dictEra := dictEra
  idxTrace := by rw [State.accept_nil]; exact blit.2.2.1
  cwTrace := by rw [State.accept_nil]; exact blit.2.2.2
  canvas := by rw [State.accept_nil]; exact blit.1
  pixcnt := by rw [State.accept_nil]; exact blit.2.1
  room := by simp

theorem Ran.accept {s : State} {ix : List Byte} (h : ix ≠ [] → s.pixcnt.toNat + ix.length ≤ s.framePixels) :
    Ran ix s (s.accept ix) where
  config := SameConfig.refl s
  run := ⟨rfl, rfl⟩
  host := ⟨rfl, rfl⟩
  pos := rfl
  fstate := rfl
  rem := rfl
  m := rfl
  draws := rfl
  dictEra := rfl
  idxTrace := rfl
  cwTrace := rfl
  canvas := rfl
  pixcnt := rfl
  room := h

theorem Ran.trans {s t u : State} {ix jx : List Byte} (h : Ran ix s t) (k : Ran jx t u) : Ran (ix ++ jx) s u := by
  have hfp := framePixels_lt s
  have hlen : s.pixcnt.toNat + ix.length < 2 ^ 32 := by
    by_cases he : ix = []
    · subst he; have := s.pixcnt.isLt; simpa using this
    · have := h.room he; omega
  have hacc := State.accept_accept (s := s) (ix := ix) (jx := jx) hlen
  have hpix : t.pixcnt.toNat = s.pixcnt.toNat + ix.length := by
    rw [h.pixcnt, State.accept_pixcnt, BitVec.toNat_add, BitVec.toNat_ofNat]
    omega
  have hcfg : SameConfig (s.accept ix) t := h.config
  have hb : t.blitWrites t.pixcnt.toNat jx = (s.accept ix).blitWrites (s.accept ix).pixcnt.toNat jx := by
    rw [h.pixcnt]; exact blitWrites_congr hcfg _ _
  refine ⟨h.config.trans k.config, ⟨k.run.1.trans h.run.1, k.run.2.trans h.run.2⟩,
    ⟨k.host.1.trans h.host.1, k.host.2.trans h.host.2⟩, k.pos.trans h.pos, k.fstate.trans h.fstate,
    k.rem.trans h.rem, k.m.trans h.m, k.draws.trans h.draws, k.dictEra.trans h.dictEra, ?_, ?_, ?_, ?_, ?_⟩
  · rw [k.idxTrace, ← hacc, State.accept_idxTrace, State.accept_idxTrace, h.idxTrace]
  · rw [k.cwTrace, ← hacc, State.accept_cwTrace, State.accept_cwTrace, h.cwTrace, hb]
  · rw [k.canvas, ← hacc, State.accept_canvas, State.accept_canvas, h.canvas, hb]
  · rw [k.pixcnt, ← hacc, State.accept_pixcnt, State.accept_pixcnt, h.pixcnt]
  · intro hne
    by_cases hj : jx = []
    · subst hj; rw [List.append_nil] at hne ⊢; exact h.room hne
    · have := k.room hj
      rw [hpix, h.config.framePixels] at this
      rw [List.length_append]
      omega

/-- PIXCNT after running codes. -/
theorem Ran.pixcnt_toNat {s t : State} {ix : List Byte} (h : Ran ix s t) :
    t.pixcnt.toNat = s.pixcnt.toNat + ix.length := by
  have hfp := framePixels_lt s
  by_cases he : ix = []
  · subst he; rw [h.pixcnt, State.accept_nil]; simp
  · rw [h.pixcnt, accept_pixcnt_toNat (h.room he)]

theorem Ran.frameOk {s t : State} {ix : List Byte} (h : Ran ix s t) (hf : FrameOk s) : FrameOk t := by
  obtain ⟨h1, h2, h3, h4, h5, h6, h7, h8, h9, h10⟩ := h.config
  refine ⟨by rw [h1, h10]; exact hf.wide, by rw [h2, h10]; exact hf.high, by rw [h1, h3, h5]; exact hf.across,
    by rw [h2, h4, h6]; exact hf.down, ?_⟩
  rw [h.config.framePixels, h.pixcnt_toNat]
  by_cases he : ix = []
  · subst he; simpa using hf.count
  · exact h.room he

/-- How running codes ends: in the state the codes leave, or in an error raised there. -/
def EndsIn (s : State) (P : List Byte → State → Prop) (x : Flow) : Prop :=
  (∃ ix t, x = .go t ∧ Ran ix s t ∧ P ix t) ∨ (∃ ix u, x = .raised (raise .decodeError u) ∧ Ran ix s u) ∨ ∃ f, x = .stop f

/-- `emit`, then something that delivers nothing. -/
theorem emit_bind_ends {s u : State} (hu : Ran [] s u) (ix : List Byte) (k : State → State)
    (hk : ∀ v, Ran [] v (k v)) :
    EndsIn s (fun jx t => jx = ix ∧ t = k (u.accept ix)) ((emit ix u).bind fun v => .go (k v)) := by
  cases hx : emit ix u with
  | go v =>
    obtain ⟨hroom, rfl⟩ := emit_go hx
    refine .inl ⟨ix, k (u.accept ix), rfl, ?_, rfl, rfl⟩
    simpa using (hu.trans (Ran.accept hroom)).trans (hk _)
  | raised v =>
    obtain ⟨n, hn, hgo, hfull, rfl⟩ := emit_raised hx
    refine .inr (.inl ⟨ix.take n, u.accept (ix.take n), rfl, ?_⟩)
    simpa using hu.trans (Ran.accept (emit_go hgo).1)
  | stop f => exact .inr (.inr ⟨f, rfl⟩)

theorem insert_ran (k : Byte) (s : State) : Ran [] s (insert k s) :=
  Ran.of_same ⟨by simp, by simp, by simp, by simp, by simp, by simp, by simp, by simp, by simp, by simp⟩
    ⟨by simp, by simp⟩ ⟨by simp, by simp⟩ (by simp) (by simp) (by simp) (by simp) (by simp) (by simp)
    ⟨by simp, by simp, by simp, by simp⟩

theorem setPrev_ran (c : Code) (s : State) : Ran [] s (setPrev c s) :=
  Ran.of_same (SameConfig.refl s) ⟨rfl, rfl⟩ ⟨rfl, rfl⟩ rfl rfl rfl rfl rfl rfl ⟨rfl, rfl, rfl, rfl⟩

theorem setFirstPrev_ran (c : Code) (s : State) : Ran [] s (setFirstPrev c s) :=
  Ran.of_same (SameConfig.refl s) ⟨rfl, rfl⟩ ⟨rfl, rfl⟩ rfl rfl rfl rfl rfl rfl ⟨rfl, rfl, rfl, rfl⟩

/-! ### Each code (R128 to R135) -/

/-- CLR leaves the state `lzw_init` leaves (R26, R128). -/
theorem doClr_eq (s : State) : doClr s = .go (lzwInit s) := rfl

theorem lzwInit_ran (s : State) : Ran [] s (lzwInit s) :=
  Ran.of_same (SameConfig.refl s) ⟨rfl, rfl⟩ ⟨rfl, rfl⟩ rfl rfl rfl rfl rfl rfl ⟨rfl, rfl, rfl, rfl⟩

theorem doFirst_ends (c : Code) (s : State) :
    EndsIn s (fun ix t => ix = [c.setWidth 8] ∧ t = setFirstPrev c (s.accept ix)) (doFirst c s) := by
  rcases emit_bind_ends (s := s) (u := s) (Ran.of_same (SameConfig.refl s) ⟨rfl, rfl⟩ ⟨rfl, rfl⟩ rfl rfl rfl rfl rfl rfl
    ⟨rfl, rfl, rfl, rfl⟩) [c.setWidth 8] (setFirstPrev c) (setFirstPrev_ran c) with ⟨ix, t, h, hr, rfl, rfl⟩ | h
  · exact .inl ⟨_, _, h, hr, rfl, rfl⟩
  · exact .inr h

/-- DICT: the indices delivered are `exp(c)`, and the entry inserted has suffix `first(c)` (R131). -/
theorem doDict_ends (c : Code) (s : State) :
    EndsIn s (fun ix t => ∃ k, expOf s c = some ix ∧ firstOf s c = some k ∧ t = setPrev c ((insert k s).accept ix))
      (doDict c s) := by
  unfold doDict
  split
  · next ix k hx hf =>
    rcases emit_bind_ends (insert_ran k s) ix (setPrev c) (setPrev_ran c) with ⟨jx, t, h, hr, rfl, rfl⟩ | h
    · exact .inl ⟨_, _, h, hr, k, hx, hf, rfl⟩
    · exact .inr h
  · exact .inr (.inr ⟨_, rfl⟩)

/-- KWKWK: the indices delivered are `exp(PREV)` and its first index again, which is the suffix inserted (R132). -/
theorem doKwkwk_ends (c : Code) (s : State) :
    EndsIn s (fun ix t => ∃ jx k, expOf s s.prev = some jx ∧ firstOf s s.prev = some k ∧ ix = jx ++ [k] ∧
      t = setPrev c ((insert k s).accept ix)) (doKwkwk c s) := by
  unfold doKwkwk
  split
  · next jx k hx hf =>
    rcases emit_bind_ends (insert_ran k s) (jx ++ [k]) (setPrev c) (setPrev_ran c) with ⟨ix, t, h, hr, rfl, rfl⟩ | h
    · exact .inl ⟨_, _, h, hr, jx, k, hx, hf, rfl, rfl⟩
    · exact .inr h
  · exact .inr (.inr ⟨_, rfl⟩)

/-! ### Any code (R125) -/

/-- A code never touches ACC and NBITS, and ENDED is set only with the frame full (R129). -/
theorem execCode_ends (c : Code) (s : State) :
    EndsIn s (fun _ t => t.acc = s.acc ∧ t.nbits = s.nbits ∧ (t.ended = s.ended ∨ t.ended = true ∧ t.frameFull = true))
      (execCode c s) := by
  have hsame : Ran [] s s := Ran.of_same (SameConfig.refl s) ⟨rfl, rfl⟩ ⟨rfl, rfl⟩ rfl rfl rfl rfl rfl rfl
    ⟨rfl, rfl, rfl, rfl⟩
  unfold execCode
  split
  · exact .inl ⟨[], _, rfl, lzwInit_ran s, rfl, rfl, .inl rfl⟩
  · unfold doEnd
    split
    · next hfull =>
      exact .inl ⟨[], { s with ended := true }, rfl, Ran.of_same (SameConfig.refl s) ⟨rfl, rfl⟩ ⟨rfl, rfl⟩ rfl rfl rfl
        rfl rfl rfl ⟨rfl, rfl, rfl, rfl⟩, rfl, rfl, .inr ⟨rfl, hfull⟩⟩
    · exact .inr (.inl ⟨[], s, rfl, hsame⟩)
  · rcases doFirst_ends c s with ⟨ix, t, h, hr, -, rfl⟩ | h
    · exact .inl ⟨_, _, h, hr, rfl, rfl, .inl rfl⟩
    · exact .inr h
  · rcases doDict_ends c s with ⟨ix, t, h, hr, k, -, -, rfl⟩ | h
    · exact .inl ⟨_, _, h, hr, insert_acc k s, insert_nbits k s, .inl (insert_ended k s)⟩
    · exact .inr h
  · rcases doKwkwk_ends c s with ⟨ix, t, h, hr, jx, k, -, -, -, rfl⟩ | h
    · exact .inl ⟨_, _, h, hr, insert_acc k s, insert_nbits k s, .inl (insert_ended k s)⟩
    · exact .inr h
  · exact .inr (.inl ⟨[], s, rfl, hsame⟩)

/-- `emit` raises only where its indices exceed the frame, and then the frame is full (E5, R170). -/
theorem emit_bind_raised {ix : List Byte} {s t : State} {k : State → State}
    (h : ((emit ix s).bind fun v => .go (k v)) = .raised t) :
    s.framePixels < s.pixcnt.toNat + ix.length ∧ s.pixcnt.toNat ≤ s.framePixels ∧ t.pixcnt.toNat = t.framePixels := by
  rcases Flow.bind_eq_raised h with h | ⟨w, -, h⟩
  · obtain ⟨n, hn, hgo, hfull, rfl⟩ := emit_raised h
    have hf : (s.accept (ix.take n)).pixcnt.toNat = s.framePixels := of_decide_eq_true hfull
    have hlen : (ix.take n).length = n := List.length_take_of_le (Nat.le_of_lt hn)
    have hroom := (emit_go hgo).1
    have : s.framePixels = s.pixcnt.toNat + n := by
      by_cases h0 : n = 0
      · subst h0
        simpa [State.accept_nil] using hf.symm
      · have hne : ix.take n ≠ [] := fun h => h0 (by rw [← hlen, h]; rfl)
        rw [← hf, accept_pixcnt_toNat (hroom hne), hlen]
    exact ⟨by omega, by omega, hf⟩
  · simp at h

/-- Every cause of an error that a code can raise (R162: E4, E5, E6). -/
theorem execCode_raised {c : Code} {s t : State} (h : execCode c s = .raised t) :
    CodeError c s ∧ (classify s.ctx c = .firstCode ∨ classify s.ctx c = .dictCode ∨ classify s.ctx c = .kwkwk →
      t.pixcnt.toNat = t.framePixels) := by
  have hins : ∀ k, (insert k s).framePixels = s.framePixels := fun k => (insert_ran k s).config.framePixels
  unfold execCode at h
  unfold CodeError
  cases hc : classify s.ctx c <;> rw [hc] at h <;> simp only [reduceCtorEq, false_and, true_and, false_or, or_false,
    false_implies, true_implies, or_self, and_true]
  · simp [doClr] at h
  · simp only [doEnd] at h
    split at h
    · simp at h
    · next hfull => simpa [State.frameFull] using hfull
  · obtain ⟨h1, h2, h3⟩ := emit_bind_raised h
    simp only [List.length_singleton] at h1
    exact ⟨by omega, h3⟩
  · simp only [doDict] at h
    split at h
    · next ix k hx _ =>
      obtain ⟨h1, -, h3⟩ := emit_bind_raised h
      rw [hins, insert_pixcnt] at h1
      exact ⟨⟨ix, hx, h1⟩, h3⟩
    · simp at h
  · simp only [doKwkwk] at h
    split at h
    · next ix k hx _ =>
      obtain ⟨h1, -, h3⟩ := emit_bind_raised h
      rw [hins, insert_pixcnt, List.length_append, List.length_singleton] at h1
      exact ⟨⟨ix, hx, h1⟩, h3⟩
    · simp at h

/-- Under R138 a code keeps R138 (R37), and the dictionary stays a table (R35). -/
theorem execCode_lzwOk {c : Code} {s t : State} (hl : LzwOk s) (hd : dictForm 0 s.dict = true)
    (h : execCode c s = .go t) : LzwOk t ∧ dictForm 0 t.dict = true := by
  have hclear := hl.clear_le
  have hkeep : ∀ k ix, LzwOk (insert k s) → LzwOk ((insert k s).accept ix) := fun k ix hh => accept_lzwOk hh ix
  unfold execCode at h
  split at h
  · rw [doClr_eq, Flow.go.injEq] at h
    subst h
    exact ⟨lzwInit_lzwOk hl.mLow hl.mHigh, hd⟩
  · unfold doEnd at h
    split at h
    · rw [Flow.go.injEq] at h
      subst h
      exact ⟨hl.congr rfl rfl rfl rfl rfl rfl rfl, hd⟩
    · simp at h
  · next hcl =>
    obtain ⟨hlt, hp, -⟩ := classify_first_dict (.inl hcl)
    rcases doFirst_ends c s with ⟨ix, u, hu, -, -, rfl⟩ | ⟨ix, u, hu, -⟩ | ⟨f, hu⟩
    · rw [hu, Flow.go.injEq] at h
      subst h
      exact ⟨setFirstPrev_lzwOk (accept_lzwOk hl ix) hlt hp, hd⟩
    · rw [hu] at h; simp at h
    · rw [hu] at h; simp at h
  · next hcl =>
    obtain ⟨hlt, hp, hpv⟩ := classify_first_dict (.inr hcl)
    have hv : s.prevValid = true := hpv.1 hcl
    obtain ⟨k, ix, hx, hf, hall, -⟩ := expOf_spec hl hlt hp
    rcases doDict_ends c s with ⟨jx, u, hu, -, k', -, hf', rfl⟩ | ⟨ix, u, hu, -⟩ | ⟨f, hu⟩
    · rw [hu, Flow.go.injEq] at h
      subst h
      rw [hf, Option.some.injEq] at hf'
      subst hf'
      have hins := insert_lzwOk hl hv (hall k (by simp))
      refine ⟨setPrev_lzwOk (accept_lzwOk hins jx) (by simpa using hv) ?_ ?_, insert_dictForm hd k⟩
      · show c.toNat < (insert k s).next.toNat
        by_cases hfull : 4095 < s.next.toNat
        · rw [insert_full hfull]; exact hlt
        · rw [insert_next (by omega)]; exact Nat.lt_succ_of_lt hlt
      · show c.toNat ≠ (insert k s).clear ∧ c.toNat ≠ (insert k s).clear + 1
        rw [insert_clear]; exact hp
    · rw [hu] at h; simp at h
    · rw [hu] at h; simp at h
  · next hcl =>
    obtain ⟨heq, hp, hpv⟩ := classify_kwkwk hcl
    have hv : s.prevValid = true := hpv
    have hprev := hl.prevOk hv
    obtain ⟨k, ix, hx, hf, hall, -⟩ := expOf_spec hl hprev.1 hprev.2
    rcases doKwkwk_ends c s with ⟨jx, u, hu, -, jx', k', -, hf', -, rfl⟩ | ⟨ix, u, hu, -⟩ | ⟨f, hu⟩
    · rw [hu, Flow.go.injEq] at h
      subst h
      rw [hf, Option.some.injEq] at hf'
      subst hf'
      have hins := insert_lzwOk hl hv (hall k (by simp))
      have hc := c.isLt
      have heq' : c.toNat = s.next.toNat := heq
      refine ⟨setPrev_lzwOk (accept_lzwOk hins jx) (by simpa using hv) ?_ ?_, insert_dictForm hd k⟩
      · show c.toNat < (insert k s).next.toNat
        rw [insert_next (by omega)]
        omega
      · show c.toNat ≠ (insert k s).clear ∧ c.toNat ≠ (insert k s).clear + 1
        rw [insert_clear]; exact hp
    · rw [hu] at h; simp at h
    · rw [hu] at h; simp at h
  · simp [doBad] at h

/-- Under R138 and in a frame inside its canvas a code never stops the machine (R37, R149, R153). -/
theorem execCode_no_stop {c : Code} {s : State} (hl : LzwOk s) (hf : FrameOk s) (f : Fault) :
    execCode c s ≠ .stop f := by
  have hemit : ∀ (ix : List Byte) (u : State) (k : State → State), FrameOk u → ((emit ix u).bind fun v => .go (k v)) ≠ .stop f := by
    intro ix u k hu
    by_cases hroom : u.pixcnt.toNat + ix.length ≤ u.framePixels
    · rw [emit_of_room hu ix hroom]; simp
    · rw [emit_of_excess hu ix (by omega)]; simp
  unfold execCode
  split
  · rw [doClr_eq]; simp
  · unfold doEnd; split <;> simp
  · exact hemit _ _ _ hf
  · next hcl =>
    obtain ⟨hlt, hp, -⟩ := classify_first_dict (.inr hcl)
    obtain ⟨k, ix, hx, hfi, -, -⟩ := expOf_spec hl hlt hp
    unfold doDict
    rw [hx, hfi]
    exact hemit _ _ _ ((insert_ran k s).frameOk hf)
  · next hcl =>
    obtain ⟨-, -, hpv⟩ := classify_kwkwk hcl
    obtain ⟨hprev, hplain⟩ := hl.prevOk hpv
    obtain ⟨k, ix, hx, hfi, -, -⟩ := expOf_spec hl hprev hplain
    unfold doKwkwk
    rw [hx, hfi]
    exact hemit _ _ _ ((insert_ran k s).frameOk hf)
  · simp [doBad]

/-! ### The fetch loop (R116) -/

theorem dropCode_ran (s : State) : Ran [] s (dropCode s) :=
  Ran.of_same (SameConfig.refl s) ⟨rfl, rfl⟩ ⟨rfl, rfl⟩ rfl rfl rfl rfl rfl rfl ⟨rfl, rfl, rfl, rfl⟩

theorem addByte_ran (b : Byte) (s : State) : Ran [] s (addByte b s) :=
  Ran.of_same (SameConfig.refl s) ⟨rfl, rfl⟩ ⟨rfl, rfl⟩ rfl rfl rfl rfl rfl rfl ⟨rfl, rfl, rfl, rfl⟩

/-- Everything the fetch loop can do: when it returns, END has been executed or fewer than WIDTH bits wait (R110). -/
theorem fetchLoop_ends (n : Nat) (s : State) :
    EndsIn s (fun _ t => (t.ended = false → t.nbits.toNat < t.width.toNat) ∧
      (t.ended = s.ended ∨ t.ended = true ∧ t.frameFull = true)) (fetchLoop n s) := by
  induction n generalizing s with
  | zero => exact .inr (.inr ⟨_, rfl⟩)
  | succ n ih =>
    unfold fetchLoop
    split
    · next hcond =>
      have hs := dropCode_ran s
      rcases execCode_ends (nextCode s) (dropCode s) with ⟨ix, t, h, hr, -, -, he⟩ | ⟨ix, u, h, hr⟩ | ⟨f, h⟩
      · rw [h, Flow.bind_go]
        have hst := hs.trans hr
        rw [List.nil_append] at hst
        rcases ih t with ⟨jx, v, hv, hrv, hd, he'⟩ | ⟨jx, u, hv, hrv⟩ | ⟨f, hv⟩
        · refine .inl ⟨_, v, hv, hst.trans hrv, hd, ?_⟩
          rcases he' with he' | he'
          · rcases he with he | he
            · exact .inl (he'.trans he)
            · refine .inr ⟨he'.trans he.1, ?_⟩
              have hfull := he.2
              simp only [State.frameFull, decide_eq_true_eq] at hfull ⊢
              rw [hrv.pixcnt_toNat, hrv.config.framePixels]
              by_cases hj : jx = []
              · subst hj; simpa using hfull
              · have := hrv.room hj
                have := List.length_pos_iff.mpr hj
                omega
          · exact .inr he'
        · exact .inr (.inl ⟨_, u, hv, hst.trans hrv⟩)
        · exact .inr (.inr ⟨f, hv⟩)
      · rw [h, Flow.bind_raised]
        exact .inr (.inl ⟨_, u, rfl, by simpa using hs.trans hr⟩)
      · rw [h, Flow.bind_stop]
        exact .inr (.inr ⟨f, rfl⟩)
    · next hcond =>
      refine .inl ⟨[], s, rfl, Ran.of_same (SameConfig.refl s) ⟨rfl, rfl⟩ ⟨rfl, rfl⟩ rfl rfl rfl rfl rfl rfl
        ⟨rfl, rfl, rfl, rfl⟩, ?_, .inl rfl⟩
      intro he
      have : ¬ s.width.toNat ≤ s.nbits.toNat := fun hle => hcond ⟨he, hle⟩
      omega

theorem FetchReaches.head {s u v : State} (he : s.ended = false) (hw : s.width.toNat ≤ s.nbits.toNat)
    (h : execCode (nextCode s) (dropCode s) = .go v) (k : FetchReaches v u) : FetchReaches s u := by
  induction k with
  | start => exact .round .start he hw h
  | round _ he' hw' h' ih => exact .round ih he' hw' h'

/-- Where an error of the fetch loop comes from: the next code of a state that the loop comes to (R116, R162). -/
theorem fetchLoop_raised {n : Nat} {s t : State} (h : fetchLoop n s = .raised t) :
    ∃ u, FetchReaches s u ∧ u.ended = false ∧ u.width.toNat ≤ u.nbits.toNat ∧
      execCode (nextCode u) (dropCode u) = .raised t := by
  induction n generalizing s with
  | zero => simp [fetchLoop] at h
  | succ n ih =>
    unfold fetchLoop at h
    split at h
    · next hc =>
      rcases Flow.bind_eq_raised h with hr | ⟨v, hv, hr⟩
      · exact ⟨s, .start, hc.1, hc.2, hr⟩
      · obtain ⟨u, hu, hrest⟩ := ih hr
        exact ⟨u, hu.head hc.1 hc.2 hv, hrest⟩
    · simp at h

/-- The accumulator after a fetch holds the bits that remain (R116, R29). -/
theorem dropCode_bits {s : State} (hw : s.width.toNat ≤ s.nbits.toNat) (ha : s.acc.toNat < 2 ^ s.nbits.toNat) :
    (dropCode s).nbits.toNat = s.nbits.toNat - s.width.toNat ∧
      (dropCode s).acc.toNat < 2 ^ (dropCode s).nbits.toNat := by
  have hn : (dropCode s).nbits.toNat = s.nbits.toNat - s.width.toNat := by
    rw [dropCode_nbits, BitVec.toNat_sub, BitVec.toNat_setWidth]
    have := s.width.isLt
    have := s.nbits.isLt
    omega
  refine ⟨hn, ?_⟩
  rw [hn, dropCode_acc, BitVec.toNat_ushiftRight, Nat.shiftRight_eq_div_pow]
  rw [Nat.div_lt_iff_lt_mul (Nat.two_pow_pos _), ← Nat.pow_add]
  rwa [Nat.sub_add_cancel hw]

/-- The invariants the fetch loop keeps, and that it does not stop when it is given enough rounds (R195). -/
theorem fetchLoop_ok {n : Nat} {s : State} (hl : LzwOk s) (hf : FrameOk s) (hd : dictForm 0 s.dict = true)
    (ha : s.acc.toNat < 2 ^ s.nbits.toNat) (hn : s.nbits.toNat < n) :
    (∀ f, fetchLoop n s ≠ .stop f) ∧
      ∀ t, fetchLoop n s = .go t → LzwOk t ∧ dictForm 0 t.dict = true ∧ t.acc.toNat < 2 ^ t.nbits.toNat := by
  induction n generalizing s with
  | zero => omega
  | succ n ih =>
    unfold fetchLoop
    split
    · next hcond =>
      have hw := hl.widthLow
      have hb := dropCode_bits hcond.2 ha
      have hl' : LzwOk (dropCode s) := hl.congr rfl rfl rfl rfl rfl rfl rfl
      have hf' := (dropCode_ran s).frameOk hf
      rcases execCode_ends (nextCode s) (dropCode s) with ⟨ix, t, h, hr, hacc, hnb, -⟩ | ⟨ix, u, h, hr⟩ | ⟨f, h⟩
      · rw [h, Flow.bind_go]
        obtain ⟨hlt, hdt⟩ := execCode_lzwOk hl' hd h
        exact ih hlt (hr.frameOk hf') hdt (by rw [hacc, hnb]; exact hb.2) (by rw [hnb]; omega)
      · rw [h, Flow.bind_raised]; simp
      · exact absurd h (execCode_no_stop hl' hf' f)
    · simp only [ne_eq, reduceCtorEq, not_false_eq_true, implies_true, Flow.go.injEq, true_and]
      intro t ht
      subst ht
      exact ⟨hl, hd, ha⟩

/-- The accumulator after a byte (R115, R29). -/
theorem addByte_bits {s : State} (hn : s.nbits.toNat ≤ 11) (ha : s.acc.toNat < 2 ^ s.nbits.toNat) (b : Byte) :
    (addByte b s).nbits.toNat = s.nbits.toNat + 8 ∧ (addByte b s).acc.toNat = s.acc.toNat + b.toNat * 2 ^ s.nbits.toNat ∧
      (addByte b s).acc.toNat < 2 ^ (addByte b s).nbits.toNat := by
  have h1 : (addByte b s).nbits.toNat = s.nbits.toNat + 8 := by
    rw [addByte_nbits, BitVec.toNat_add]
    exact Nat.mod_eq_of_lt (by simp; omega)
  have hb := b.isLt
  have hp : 2 ^ (s.nbits.toNat + 8) = 2 ^ s.nbits.toNat * 256 := Nat.pow_add 2 _ 8
  have hp19 : 2 ^ s.nbits.toNat * 256 ≤ 2 ^ 19 := by
    rw [← hp]; exact Nat.pow_le_pow_right (n := 2) (by omega) (by omega)
  have hm : b.toNat * 2 ^ s.nbits.toNat < 2 ^ s.nbits.toNat * 256 := by
    rw [Nat.mul_comm]; exact Nat.mul_lt_mul_of_pos_left (by omega) (Nat.two_pow_pos _)
  have h2 : (addByte b s).acc.toNat = s.acc.toNat + b.toNat * 2 ^ s.nbits.toNat := by
    rw [addByte_acc, BitVec.toNat_or, BitVec.toNat_shiftLeft, BitVec.toNat_setWidth, Nat.shiftLeft_eq,
      Nat.mod_eq_of_lt (show b.toNat < 2 ^ 19 by omega), Nat.mod_eq_of_lt (show b.toNat * 2 ^ s.nbits.toNat < 2 ^ 19 by omega),
      Nat.or_comm, Nat.mul_comm, ← Nat.two_pow_add_eq_or_of_lt ha, Nat.add_comm]
  refine ⟨h1, h2, ?_⟩
  have hb' : b.toNat * 2 ^ s.nbits.toNat ≤ 255 * 2 ^ s.nbits.toNat := Nat.mul_le_mul_right _ (by omega)
  rw [h1, h2, hp]
  omega

end Sys2Proof.Machine
end

