-- ==== Sys2Proof/Laws/Bytes.lean ====
section
/-! SUPPORT. Everything a stream byte can do (41_stream_framing.md), and that under the invariants it never stops. -/

namespace Sys2Proof.Machine

/-! ### What a byte leaves alone -/

/-- `t` is what became of `s` by something that delivered the indices `ix`, whether it returned or raised: configuration,
host's side and POS are as they were, and the traces, the canvas and PIXCNT are those of the indices accepted. -/
structure Delivered (ix : List Byte) (s t : State) : Prop where
  config : SameConfig s t
  host : SameHost s t
  pos : t.pos = s.pos
  idxTrace : t.idxTrace = (s.accept ix).idxTrace
  cwTrace : t.cwTrace = (s.accept ix).cwTrace
  canvas : t.canvas = (s.accept ix).canvas
  pixcnt : t.pixcnt = (s.accept ix).pixcnt
  room : ix ≠ [] → s.pixcnt.toNat + ix.length ≤ s.framePixels

theorem Ran.delivered {ix : List Byte} {s t : State} (h : Ran ix s t) : Delivered ix s t :=
  ⟨h.config, h.host, h.pos, h.idxTrace, h.cwTrace, h.canvas, h.pixcnt, h.room⟩

/-- An error entry keeps what was delivered (R163, R167). -/
theorem Delivered.raise {ix : List Byte} {s t : State} (h : Delivered ix s t) (e : ErrorKind) :
    Delivered ix s (raise e t) :=
  ⟨h.config, h.host, h.pos, h.idxTrace, h.cwTrace, h.canvas, h.pixcnt, h.room⟩

/-- Registers that are not the BLIT stage's do not count. -/
theorem Delivered.nil {s t : State} (config : SameConfig s t) (host : SameHost s t) (pos : t.pos = s.pos)
    (blit : SameBlit s t) : Delivered [] s t :=
  ⟨config, host, pos, by rw [State.accept_nil]; exact blit.2.2.1, by rw [State.accept_nil]; exact blit.2.2.2,
    by rw [State.accept_nil]; exact blit.1, by rw [State.accept_nil]; exact blit.2.1, by simp⟩

/-- What was there before may differ in registers that are not the BLIT stage's. -/
theorem Delivered.from_other {ix : List Byte} {s u t : State} (h : Delivered ix u t) (config : SameConfig s u)
    (host : SameHost s u) (pos : u.pos = s.pos) (blit : SameBlit s u) : Delivered ix s t := by
  obtain ⟨b1, b2, b3, b4⟩ := blit
  have hb := blitWrites_congr config
  refine ⟨config.trans h.config, ⟨h.host.1.trans host.1, h.host.2.trans host.2⟩, h.pos.trans pos, ?_, ?_, ?_, ?_, ?_⟩
  · rw [h.idxTrace, State.accept_idxTrace, State.accept_idxTrace, b3]
  · rw [h.cwTrace, State.accept_cwTrace, State.accept_cwTrace, b4, b2, hb]
  · rw [h.canvas, State.accept_canvas, State.accept_canvas, b1, b2, hb]
  · rw [h.pixcnt, State.accept_pixcnt, State.accept_pixcnt, b2]
  · intro hne
    have := h.room hne
    rwa [b2, config.framePixels] at this

theorem Delivered.pixcnt_toNat {s t : State} {ix : List Byte} (h : Delivered ix s t) :
    t.pixcnt.toNat = s.pixcnt.toNat + ix.length := by
  have hfp := framePixels_lt s
  by_cases he : ix = []
  · subst he; rw [h.pixcnt, State.accept_nil]; simp
  · rw [h.pixcnt, accept_pixcnt_toNat (h.room he)]

theorem Delivered.frameOk {s t : State} {ix : List Byte} (h : Delivered ix s t) (hf : FrameOk s) : FrameOk t := by
  obtain ⟨h1, h2, h3, h4, h5, h6, h7, h8, h9, h10⟩ := h.config
  refine ⟨by rw [h1, h10]; exact hf.wide, by rw [h2, h10]; exact hf.high, by rw [h1, h3, h5]; exact hf.across,
    by rw [h2, h4, h6]; exact hf.down, ?_⟩
  rw [h.config.framePixels, h.pixcnt_toNat]
  by_cases he : ix = []
  · subst he; simpa using hf.count
  · exact h.room he

/-! ### One byte -/

/-- A value with low bits below 2^4 is not cut by M's width (R111). -/
theorem setMinCode_m_toNat {b : Byte} (h : b.toNat ≤ 8) (s : State) : (setMinCode b s).m.toNat = b.toNat := by
  show (b.setWidth 4).toNat = b.toNat
  rw [BitVec.toNat_setWidth]
  omega

/-- The sub-block bookkeeping (R114). -/
theorem countData_rem_toNat {s : State} (h : 1 ≤ s.rem.toNat) : (countData s).rem.toNat = s.rem.toNat - 1 := by
  show (s.rem - 1).toNat = _
  have := s.rem.isLt
  rw [BitVec.toNat_sub]
  simp
  omega

theorem countData_fstate_data {s : State} (h : s.fstate = .data) :
    (countData s).fstate = if s.rem = 1 then .len else .data := by
  show (if s.rem - 1 = 0 then FState.len else s.fstate) = _
  have : s.rem - 1 = 0 ↔ s.rem = 1 := by
    rw [BitVec.sub_eq_iff_eq_add]
    simp
  simp only [this, h]

theorem countData_delivered (s : State) : Delivered [] s (countData s) :=
  .nil (SameConfig.refl s) ⟨rfl, rfl⟩ rfl ⟨rfl, rfl, rfl, rfl⟩

theorem countData_ran_trans {s t : State} {ix : List Byte} (h : Ran ix (countData s) t) : Delivered ix s t :=
  h.delivered.from_other (SameConfig.refl s) ⟨rfl, rfl⟩ rfl ⟨rfl, rfl, rfl, rfl⟩

/-- Everything `feed` can do (R115, R116). -/
theorem feed_ends (b : Byte) (s : State) :
    EndsIn s (fun _ t => (t.ended = false → t.nbits.toNat < t.width.toNat) ∧
      (t.ended = s.ended ∨ t.ended = true ∧ t.frameFull = true)) (feed b s) := by
  have ha := addByte_ran b s
  rcases fetchLoop_ends ((addByte b s).nbits.toNat + 1) (addByte b s) with ⟨ix, t, h, hr, hp⟩ | ⟨ix, u, h, hr⟩ | ⟨f, h⟩
  · exact .inl ⟨ix, t, h, ha.trans hr, hp⟩
  · exact .inr (.inl ⟨ix, u, h, ha.trans hr⟩)
  · exact .inr (.inr ⟨f, h⟩)

/-- How a byte ends when it returns: the item's own effect on STATE and FSTATE (R111 to R114). -/
def ByteGoes (b : Byte) (s t : State) : Prop :=
  t.error = s.error ∧
    (s.fstate = .mcs ∧ 2 ≤ b.toNat ∧ b.toNat ≤ 8 ∧ t = { lzwInit (setMinCode b s) with fstate := .len } ∨
      s.fstate = .len ∧ b ≠ 0 ∧ t = { s with rem := b, fstate := .data } ∨
      s.fstate = .len ∧ b = 0 ∧ s.ended = true ∧ t = { s with runState := .done } ∨
      s.fstate = .data ∧ s.ended = true ∧ t = countData s ∨
      s.fstate = .data ∧ s.ended = false ∧ feed b (countData s) = .go t ∧ t.runState = s.runState ∧
        t.fstate = (countData s).fstate ∧ t.rem = s.rem - 1 ∧ t.m = s.m ∧
        (t.ended = false → t.nbits.toNat < t.width.toNat) ∧ (t.ended = true → t.frameFull = true))

/-- Everything a byte can do (R95, R111 to R114): it returns, or it raises DecodeError; either way it has delivered some
indices, or the model stops. -/
theorem runByte_ends (b : Byte) (s : State) :
    (∃ ix t, runByte b s = .go t ∧ Delivered ix s t ∧ ByteGoes b s t) ∨
      (∃ ix u, runByte b s = .raised (raise .decodeError u) ∧ Delivered ix s u) ∨
      ∃ f, runByte b s = .stop f := by
  have hself : Delivered [] s s := .nil (SameConfig.refl s) ⟨rfl, rfl⟩ rfl ⟨rfl, rfl, rfl, rfl⟩
  unfold runByte
  cases hfs : s.fstate with
  | mcs =>
    simp only [classifyByte]
    unfold doMcs
    split
    · exact .inr (.inl ⟨[], s, rfl, hself⟩)
    · refine .inl ⟨[], _, rfl, .nil (SameConfig.refl s) ⟨rfl, rfl⟩ rfl ⟨rfl, rfl, rfl, rfl⟩, rfl, .inl ⟨hfs, ?_, ?_, rfl⟩⟩
      all_goals omega
  | len =>
    simp only [classifyByte]
    split
    · next hb =>
      split at hb
      · simp at hb
      · simp at hb
    · next hb =>
      refine .inl ⟨[], _, rfl, .nil (SameConfig.refl s) ⟨rfl, rfl⟩ rfl ⟨rfl, rfl, rfl, rfl⟩, rfl, .inr (.inl ⟨hfs, ?_, rfl⟩)⟩
      intro h0
      simp [h0] at hb
    · next hb =>
      have h0 : b = 0 := by
        by_contra hne
        rw [if_neg hne] at hb
        simp at hb
      unfold doSbterm
      split
      · next he =>
        exact .inl ⟨[], _, rfl, .nil (SameConfig.refl s) ⟨rfl, rfl⟩ rfl ⟨rfl, rfl, rfl, rfl⟩, rfl,
          .inr (.inr (.inl ⟨hfs, h0, he, rfl⟩))⟩
      · exact .inr (.inl ⟨[], s, rfl, hself⟩)
    · next hb =>
      split at hb <;> simp at hb
  | data =>
    simp only [classifyByte]
    unfold doSbdata
    split
    · next he =>
      exact .inl ⟨[], _, rfl, countData_delivered s, rfl, .inr (.inr (.inr (.inl ⟨hfs, he, rfl⟩)))⟩
    · next he =>
      have he : s.ended = false := by simpa using he
      rcases feed_ends b (countData s) with ⟨ix, t, h, hr, hd, hen⟩ | ⟨ix, u, h, hr⟩ | ⟨f, h⟩
      · refine .inl ⟨ix, t, h, countData_ran_trans hr, hr.run.2, .inr (.inr (.inr (.inr
          ⟨hfs, he, h, hr.run.1, hr.fstate, hr.rem, hr.m, hd, ?_⟩)))⟩
        intro ht
        rcases hen with hen | hen
        · rw [ht, countData_ended, he] at hen
          simp at hen
        · exact hen.2
      · exact .inr (.inl ⟨ix, u, h, countData_ran_trans hr⟩)
      · exact .inr (.inr ⟨f, h⟩)

/-- PUSH in BUSY, as the byte it runs (R95). -/
theorem execPush_busy {s : State} (h : s.runState = .busy) (b : Byte) :
    execPush b s = (runByte b (countByte s)).outcome := if_pos h

theorem countByte_sameConfig (s : State) : SameConfig s (countByte s) := SameConfig.refl s

/-- Under R138, and with few enough bits waiting, a data byte never stops the machine and keeps R138, R29 and the
dictionary (R195). -/
theorem feed_ok {s : State} (hl : LzwOk s) (hf : FrameOk s) (hd : dictForm 0 s.dict = true)
    (ha : s.acc.toNat < 2 ^ s.nbits.toNat) (hn : s.nbits.toNat ≤ 11) (b : Byte) :
    (∀ f, feed b s ≠ .stop f) ∧
      ∀ t, feed b s = .go t → LzwOk t ∧ dictForm 0 t.dict = true ∧ t.acc.toNat < 2 ^ t.nbits.toNat :=
  fetchLoop_ok (hl.congr rfl rfl rfl rfl rfl rfl rfl) ((addByte_ran b s).frameOk hf) hd (addByte_bits hn ha b).2.2
    (Nat.lt_succ_self _)

end Sys2Proof.Machine
end

