-- ==== Sys2Proof/Laws/Blind.lean ====
section
/-! SUPPORT. Two runs side by side: what the codes do not read they do not depend on. -/

namespace Sys2Proof.Machine

/-- Two pieces of pseudocode end in the same way, in related states. -/
inductive Alike (R : State → State → Prop) : Flow → Flow → Prop where
  | go {s u : State} : R s u → Alike R (.go s) (.go u)
  | raised {s u : State} : R s u → Alike R (.raised s) (.raised u)
  | stop (f : Fault) : Alike R (.stop f) (.stop f)

theorem Alike.bind {R : State → State → Prop} {x y : Flow} {k l : State → Flow} (h : Alike R x y)
    (hk : ∀ s u, x = .go s → R s u → Alike R (k s) (l u)) : Alike R (x.bind k) (y.bind l) := by
  cases h with
  | go hr => exact hk _ _ rfl hr
  | raised hr => exact .raised hr
  | stop f => exact .stop f

theorem Alike.outcome_next {R : State → State → Prop} {x y : Flow} (h : Alike R x y) {t : State}
    (ht : x.outcome = .next t) : ∃ v, y.outcome = .next v ∧ R t v := by
  cases h with
  | go hr => simp only [Flow.outcome_go, Host.Outcome.next.injEq] at ht; subst ht; exact ⟨_, rfl, hr⟩
  | raised hr => simp only [Flow.outcome_raised, Host.Outcome.next.injEq] at ht; subst ht; exact ⟨_, rfl, hr⟩
  | stop f => simp at ht

/-- The codes are blind to the difference `R` between two states, in states that satisfy `P`: `R` fixes what they read, and
every operation they use keeps it. -/
structure Blind (P : State → Prop) (R : State → State → Prop) : Prop where
  keepCode : ∀ {c s t}, P s → execCode c s = .go t → P t
  keepDrop : ∀ {s}, P s → P (dropCode s)
  config : ∀ {s u}, R s u → SameConfig s u
  pixcnt : ∀ {s u}, R s u → u.pixcnt = s.pixcnt
  m : ∀ {s u}, R s u → u.m = s.m
  width : ∀ {s u}, R s u → u.width = s.width
  next : ∀ {s u}, R s u → u.next = s.next
  prevValid : ∀ {s u}, R s u → u.prevValid = s.prevValid
  ended : ∀ {s u}, R s u → u.ended = s.ended
  acc : ∀ {s u}, R s u → u.acc = s.acc
  nbits : ∀ {s u}, R s u → u.nbits = s.nbits
  exps : ∀ {s u} {c : Code}, P s → R s u → classify s.ctx c = .dictCode →
    expOf u c = expOf s c ∧ firstOf u c = firstOf s c
  prevs : ∀ {s u}, P s → R s u → s.prevValid = true →
    expOf u u.prev = expOf s s.prev ∧ firstOf u u.prev = firstOf s s.prev
  trace : ∀ {s u} v, R s u → R (traceIndex v s) (traceIndex v u)
  count : ∀ {s u}, R s u → R (countIndex s) (countIndex u)
  write : ∀ {s u} a v, R s u → R { s with canvas := s.canvas.write a v, cwTrace := s.cwTrace ++ [(a, v)] }
    { u with canvas := u.canvas.write a v, cwTrace := u.cwTrace ++ [(a, v)] }
  insert : ∀ {s u} k, R s u → s.prevValid = true → R (insert k s) (insert k u)
  setPrev : ∀ {s u} c, R s u → R (setPrev c s) (setPrev c u)
  setFirstPrev : ∀ {s u} c, R s u → R (setFirstPrev c s) (setFirstPrev c u)
  init : ∀ {s u}, R s u → R (lzwInit s) (lzwInit u)
  finish : ∀ {s u}, R s u → R { s with ended := true } { u with ended := true }
  raise : ∀ {s u}, R s u → R (raise .decodeError s) (raise .decodeError u)
  drop : ∀ {s u}, R s u → R (dropCode s) (dropCode u)
  add : ∀ {s u} b, R s u → R (addByte b s) (addByte b u)

namespace Blind

variable {P : State → Prop} {R : State → State → Prop}

theorem emitIndex (B : Blind P R) {s u : State} (h : R s u) (v : Byte) :
    Alike R (emitIndex v s) (Machine.emitIndex v u) := by
  have hp := B.pixcnt h
  obtain ⟨h1, h2, h3, h4, h5, h6, h7, h8, h9, h10⟩ := B.config h
  have hfp : u.framePixels = s.framePixels := (B.config h).framePixels
  have hff : u.frameFull = s.frameFull := by unfold State.frameFull; rw [hp, hfp]
  unfold Machine.emitIndex
  rw [hff, hfp, hp]
  split
  · exact .raised (B.raise h)
  · split
    · exact .stop _
    · refine Alike.bind ?_ fun _ _ _ hr => .go (B.count hr)
      have ht := B.trace v h
      have htr : (traceIndex v u).transparent v = (traceIndex v s).transparent v := by
        show (u.transpEn && decide (v = u.transpIdx)) = (s.transpEn && decide (v = s.transpIdx))
        rw [h8, h9]
      have hia : (traceIndex v u).indexAddr (traceIndex v u).pixcnt.toNat =
          (traceIndex v s).indexAddr (traceIndex v s).pixcnt.toNat := by
        show (u.frameY.toNat + (if u.interlace = true then _ else _)) * u.canvasW.toNat + _ =
          (s.frameY.toNat + (if s.interlace = true then _ else _)) * s.canvasW.toNat + _
        simp only [traceIndex_pixcnt, traceIndex_frameW, traceIndex_frameH, traceIndex_frameX, State.colOf, hp, h1, h3,
          h4, h5, h6, h7]
      have hcc : (traceIndex v u).canvasCells = (traceIndex v s).canvasCells := by
        show u.params.canvasCells = s.params.canvasCells
        rw [h10]
      unfold placeIndex
      rw [htr, hia]
      split
      · exact .go ht
      · unfold memWrite
        rw [hcc]
        split
        · exact .go (B.write _ v ht)
        · exact .stop _

theorem emit (B : Blind P R) (ix : List Byte) {s u : State} (h : R s u) : Alike R (emit ix s) (Machine.emit ix u) := by
  induction ix generalizing s u with
  | nil => exact .go h
  | cons v vs ih => exact (B.emitIndex h v).bind fun _ _ _ hr => ih hr

theorem execCode (B : Blind P R) {s u : State} (hp : P s) (h : R s u) (c : Code) :
    Alike R (execCode c s) (Machine.execCode c u) := by
  have hctx : classify u.ctx c = classify s.ctx c := by
    unfold classify DecodeCtx.endVal DecodeCtx.clear State.ctx
    rw [B.m h, B.next h, B.prevValid h]
  unfold Machine.execCode
  rw [hctx]
  cases hc : classify s.ctx c with
  | clr => exact .go (B.init h)
  | endCode =>
    have hff : u.frameFull = s.frameFull := by
      unfold State.frameFull; rw [B.pixcnt h, (B.config h).framePixels]
    simp only [doEnd, hff]
    split
    · exact .go (B.finish h)
    · exact .raised (B.raise h)
  | firstCode => exact (B.emit _ h).bind fun _ _ _ hr => .go (B.setFirstPrev c hr)
  | dictCode =>
    obtain ⟨e1, e2⟩ := B.exps hp h hc
    have hv : s.prevValid = true := (classify_first_dict (.inr hc)).2.2.1 hc
    simp only [doDict, e1, e2]
    split
    · exact (B.emit _ (B.insert _ h hv)).bind fun _ _ _ hr => .go (B.setPrev c hr)
    · exact .stop _
  | kwkwk =>
    have hv : s.prevValid = true := (classify_kwkwk hc).2.2
    obtain ⟨e1, e2⟩ := B.prevs hp h hv
    simp only [doKwkwk, e1, e2]
    split
    · exact (B.emit _ (B.insert _ h hv)).bind fun _ _ _ hr => .go (B.setPrev c hr)
    · exact .stop _
  | bad => exact .raised (B.raise h)

theorem fetchLoop (B : Blind P R) (n : Nat) {s u : State} (hp : P s) (h : R s u) :
    Alike R (fetchLoop n s) (Machine.fetchLoop n u) := by
  induction n generalizing s u with
  | zero => exact .stop _
  | succ n ih =>
    have hn : nextCode u = nextCode s := by unfold nextCode; rw [B.acc h, B.width h]
    unfold Machine.fetchLoop
    rw [B.ended h, B.width h, B.nbits h, hn]
    split
    · exact (B.execCode (B.keepDrop hp) (B.drop h) _).bind fun _ _ hx hr => ih (B.keepCode (B.keepDrop hp) hx) hr
    · exact .go h

theorem feed (B : Blind P R) {s u : State} (b : Byte) (hp : P (addByte b s)) (h : R s u) :
    Alike R (feed b s) (Machine.feed b u) := by
  have ha := B.add b h
  unfold Machine.feed
  rw [B.nbits ha]
  exact B.fetchLoop _ hp ha

end Blind

end Sys2Proof.Machine
end

