-- ==== Sys2Proof/Laws/Invariant.lean ====
section
/-! SUPPORT. The invariant of LZWBLIT under the operations the host events use. -/

namespace Sys2Proof.Machine

/-- The invariant does not speak of the host's side nor of the count of free values. -/
theorem MachineInv.host {s : State} (hi : MachineInv s) (l : List HostEvent) (r : List ReadResult) (n : Nat) :
    MachineInv { s with inputs := l, returned := r, draws := n } := by
  have hL : ∀ {s : State}, LzwOk s → LzwOk { s with inputs := l, returned := r, draws := n } := fun h => h.congr rfl rfl rfl rfl rfl rfl rfl
  constructor
  · exact hi.canvasForm
  · exact hi.canvasRange
  · exact hi.dictTable
  · exact hi.errorIff
  · intro h; have := hi.idleFresh h; conv_lhs => rw [this]
    rfl
  · intro h; have := hi.busyFrame h; exact ⟨this.wide, this.high, this.across, this.down, this.count⟩
  · exact hi.endedFull
  · intro h1 h2; have := hi.startOk h1 h2; exact ⟨this.1, this.2, this.3, this.4, this.5, this.6, this.7⟩
  · intro h; exact hL (hi.lzwOk h)
  · intro h1 h2; have := hi.cursorOk h1 h2; exact ⟨this.1, this.2, this.3⟩
  · exact hi.doneEnded

/-- An error entry keeps the invariant (R163, R34): what becomes undefined is not constrained in ERROR. -/
theorem raise_inv {s : State} {e : ErrorKind} (he : e ≠ .success) (h1 : s.canvas.wf = true)
    (h2 : ∀ a, s.canvasCells ≤ a → s.canvas.read a = 0) : MachineInv (raise e s) := by
  constructor
  · exact h1
  · exact h2
  · rfl
  · simp [he]
  all_goals simp

/-- The run registers at their reset values have the invariant (R38). -/
theorem clearRun_inv {s : State} (h1 : s.canvas.wf = true) (h2 : ∀ a, s.canvasCells ≤ a → s.canvas.read a = 0)
    (h3 : dictForm 0 s.dict = true) : MachineInv (clearRun s) := by
  constructor
  · exact h1
  · exact h2
  · exact h3
  · simp
  · intro _; rfl
  all_goals simp

/-- The writes of a frame's indices stay inside the canvas space (R149). -/
theorem blitWrites_range {s : State} (hf : FrameOk s) (ix : List Byte) (n : Nat) {m : Memory} (hm : m.wf = true)
    (h : n + ix.length ≤ s.framePixels) {a : Nat} (ha : s.canvasCells ≤ a) :
    (m.writeAll (s.blitWrites n ix)).read a = m.read a := by
  apply Memory.read_writeAll_other _ hm
  induction ix generalizing n with
  | nil => simp [State.blitWrites]
  | cons v vs ih =>
    simp only [List.length_cons] at h
    simp only [State.blitWrites]
    have := ih (n+1) (by omega)
    have hlt := indexAddr_lt hf (n := n) (by omega)
    split
    · exact this
    · intro w hw
      simp at hw
      rcases hw with rfl | hw
      · simp; omega
      · exact this w hw

/-- Delivering indices keeps the canvas in canonical form and inside its space. -/
theorem Delivered.canvasOk {s t : State} {ix : List Byte} (hd : Delivered ix s t) (hf : FrameOk s)
    (h1 : s.canvas.wf = true) (h2 : ∀ a, s.canvasCells ≤ a → s.canvas.read a = 0) :
    t.canvas.wf = true ∧ ∀ a, t.canvasCells ≤ a → t.canvas.read a = 0 := by
  have hcc : t.canvasCells = s.canvasCells := by
    obtain ⟨_, _, _, _, _, _, _, _, _, h10⟩ := hd.config
    unfold State.canvasCells; rw [h10]
  rw [hd.canvas, State.accept_canvas, hcc]
  refine ⟨Memory.wf_writeAll _ h1, fun a ha => ?_⟩
  by_cases hx : ix = []
  · subst hx; exact h2 a ha
  · rw [blitWrites_range hf ix _ h1 (hd.room hx) ha, h2 a ha]

/-- A byte counted and run in BUSY keeps the invariant (R138, R29, R153). -/
theorem runByte_inv {s t : State} {b : Byte} (hi : MachineInv s) (hb : s.runState = .busy)
    (h : (runByte b (countByte s)).outcome = .next t) : MachineInv t := by
  have hfo := hi.busyFrame hb
  have hfo' : FrameOk (countByte s) := ⟨hfo.wide, hfo.high, hfo.across, hfo.down, hfo.count⟩
  have herr : s.error = .success := by
    by_contra hne
    have := hi.errorIff.2 hne
    rw [hb] at this; simp at this
  rcases runByte_ends b (countByte s) with ⟨ix, u, hu, hd, he, hg⟩ | ⟨ix, u, hu, hd⟩ | ⟨f, hu⟩
  · rw [hu] at h; simp at h; subst h
    obtain ⟨c1, c2⟩ := hd.canvasOk hfo' hi.canvasForm hi.canvasRange
    have hfu := hd.frameOk hfo'
    have herr' : u.error = .success := he.trans herr
    rcases hg with ⟨hf, b1, b2, rfl⟩ | ⟨hf, b1, rfl⟩ | ⟨hf, b1, b2, rfl⟩ | ⟨hf, b1, rfl⟩ | ⟨hf, b1, b2, b3, b4, b5, b6, b7, b8⟩
    · have hst := hi.startOk hb hf
      have hm := setMinCode_m_toNat b2 (countByte s)
      have hl : LzwOk (lzwInit (setMinCode b (countByte s))) := lzwInit_lzwOk (by rw [hm]; exact b1) (by rw [hm]; exact b2)
      have hl' : LzwOk ({ lzwInit (setMinCode b (countByte s)) with fstate := .len } : State) := hl.congr rfl rfl rfl rfl rfl rfl rfl
      constructor
      · exact c1
      · exact c2
      · exact hi.dictTable
      · rw [herr']; show s.runState = _ ↔ _; rw [hb]; simp
      · show s.runState = _ → _; rw [hb]; simp
      · exact fun _ => hfu
      · intro _ (h : s.ended = true); rw [hst.notEnded] at h; simp at h
      · intro _ h; simp at h
      · exact fun _ => hl'
      · intro _ _
        constructor
        · show s.acc.toNat < 2 ^ s.nbits.toNat
          rw [hst.noAcc, hst.noBits]; decide
        · intro _; show s.nbits.toNat < _; rw [hst.noBits]; have := hl'.widthLow; have := hl'.mLow; simp; omega
        · intro h; simp at h
      · show s.runState = _ → _; rw [hb]; simp
    · have hl := hi.lzwOk (.inl ⟨hb, by rw [show s.fstate = _ from hf]; simp⟩)
      have hc := hi.cursorOk hb (by rw [show s.fstate = _ from hf]; simp)
      constructor
      · exact c1
      · exact c2
      · exact hi.dictTable
      · rw [herr']; show s.runState = _ ↔ _; rw [hb]; simp
      · show s.runState = _ → _; rw [hb]; simp
      · exact fun _ => hfu
      · exact hi.endedFull
      · intro _ h; simp at h
      · exact fun _ => hl.congr rfl rfl rfl rfl rfl rfl rfl
      · intro _ _
        refine ⟨hc.accHigh, hc.fewBits, fun _ => ?_⟩
        show 1 ≤ b.toNat
        have : b.toNat ≠ 0 := fun h => b1 (BitVec.eq_of_toNat_eq h)
        omega
      · show s.runState = _ → _; rw [hb]; simp
    · have hl := hi.lzwOk (.inl ⟨hb, by rw [show s.fstate = _ from hf]; simp⟩)
      constructor
      · exact c1
      · exact c2
      · exact hi.dictTable
      · rw [herr']; simp
      · simp
      · simp
      · simp
      · simp
      · exact fun _ => hl.congr rfl rfl rfl rfl rfl rfl rfl
      · simp
      · exact fun _ => ⟨b2, hf⟩
    · have hfd : s.fstate = .data := hf
      have hl := hi.lzwOk (.inl ⟨hb, by rw [hfd]; simp⟩)
      have hc := hi.cursorOk hb (by rw [hfd]; simp)
      have hfs := countData_fstate_data (s := countByte s) hf
      have hrem := countData_rem_toNat (s := countByte s) (hc.moreData hfd)
      constructor
      · exact c1
      · exact c2
      · exact hi.dictTable
      · rw [herr']; show s.runState = _ ↔ _; rw [hb]; simp
      · show s.runState = _ → _; rw [hb]; simp
      · exact fun _ => hfu
      · exact hi.endedFull
      · intro _ h; rw [hfs] at h; split at h <;> simp at h
      · exact fun _ => hl.congr rfl rfl rfl rfl rfl rfl rfl
      · intro _ _
        refine ⟨hc.accHigh, hc.fewBits, fun h => ?_⟩
        rw [hrem]
        rw [hfs] at h
        split at h
        · simp at h
        · next hne =>
          have h1 := hc.moreData hfd
          change ¬ s.rem = 1 at hne
          have : s.rem.toNat ≠ 1 := fun h => hne (BitVec.eq_of_toNat_eq h)
          show 1 ≤ s.rem.toNat - 1
          omega
      · show s.runState = _ → _; rw [hb]; simp
    · have hfd : s.fstate = .data := hf
      have hl := hi.lzwOk (.inl ⟨hb, by rw [hfd]; simp⟩)
      have hc := hi.cursorOk hb (by rw [hfd]; simp)
      have hfs := countData_fstate_data (s := countByte s) hf
      have hrem := countData_rem_toNat (s := countByte s) (hc.moreData hfd)
      have hrun : u.runState = .busy := b3.trans hb
      have hok := (feed_ok (s := countData (countByte s)) (hl.congr rfl rfl rfl rfl rfl rfl rfl) ((countData_delivered _).frameOk hfo') hi.dictTable hc.accHigh (by have := hc.fewBits b1; have := hl.widthHigh; show s.nbits.toNat ≤ 11; omega) b).2 _ b2
      constructor
      · exact c1
      · exact c2
      · exact hok.2.1
      · rw [herr', hrun]; simp
      · rw [hrun]; simp
      · exact fun _ => hfu
      · exact fun _ h => b8 h
      · intro _ h; rw [b4, hfs] at h; split at h <;> simp at h
      · exact fun _ => hok.1
      · intro _ _
        refine ⟨hok.2.2, b7, fun h => ?_⟩
        rw [b5]
        show 1 ≤ (countData (countByte s)).rem.toNat
        rw [hrem]
        rw [b4, hfs] at h
        split at h
        · simp at h
        · next hne =>
          have h1 := hc.moreData hfd
          change ¬ s.rem = 1 at hne
          have : s.rem.toNat ≠ 1 := fun h => hne (BitVec.eq_of_toNat_eq h)
          show 1 ≤ s.rem.toNat - 1
          omega
      · rw [hrun]; simp
  · rw [hu] at h; simp at h; subst h
    obtain ⟨c1, c2⟩ := hd.canvasOk hfo' hi.canvasForm hi.canvasRange
    exact raise_inv (by simp) c1 c2
  · rw [hu] at h; simp at h

/-- A byte counted and run in BUSY never stops the machine (R195). -/
theorem runByte_no_stop {s : State} (hi : MachineInv s) (hb : s.runState = .busy) (b : Byte) (f : Fault) :
    runByte b (countByte s) ≠ .stop f := by
  have hfo := hi.busyFrame hb
  unfold runByte
  split
  · unfold doMcs; split <;> simp
  · simp [doSblen]
  · unfold doSbterm; split <;> simp
  · next hc =>
    have hfs : s.fstate = .data := by
      cases h : s.fstate with
      | mcs => rw [countByte_fstate, h] at hc; simp [classifyByte] at hc
      | len => rw [countByte_fstate, h] at hc; simp only [classifyByte] at hc; split at hc <;> simp at hc
      | data => rfl
    have hl := hi.lzwOk (.inl ⟨hb, by rw [hfs]; simp⟩)
    have hcur := hi.cursorOk hb (by rw [hfs]; simp)
    unfold doSbdata
    split
    · simp
    · next he =>
      have he' : s.ended = false := by simpa using he
      have h1 := hcur.fewBits he'
      have h2 := hl.widthHigh
      exact (feed_ok (s := countData (countByte s)) (hl.congr rfl rfl rfl rfl rfl rfl rfl)
        ⟨hfo.wide, hfo.high, hfo.across, hfo.down, hfo.count⟩ hi.dictTable hcur.accHigh
        (by show s.nbits.toNat ≤ 11; omega) b).1 f

end Sys2Proof.Machine
end

