-- ==== Sys2Proof/Laws/PerInstr.lean ====
section
/-! SUPPORT. Statements made for every instruction, one lemma per constructor. -/

namespace Sys2Proof.Laws.EncodeFits

/-- The word of an instruction that fits its context fits the code width (R73): a code-level word is below 2^WIDTH. -/
def Statement (i : Instr) : Prop :=
  ∀ (x : DecodeCtx) (c : Code), i.fitsContext x = true → encode x i = .code c → c.toNat < 2 ^ x.width.toNat

/-- A code that is not special. -/
theorem plain_lt {x : DecodeCtx} {c : Code} (h : x.plainCode c = true) : c.toNat < 2 ^ x.width.toNat := by
  simp only [DecodeCtx.plainCode, decide_eq_true_eq] at h
  exact h.1

/-- CLEAR and END are codes of WIDTH bits (R138). -/
theorem special_lt {x : DecodeCtx} (h : x.codesOk = true) :
    (BitVec.ofNat 12 x.clear).toNat < 2 ^ x.width.toNat ∧ (BitVec.ofNat 12 x.endVal).toNat < 2 ^ x.width.toNat := by
  simp only [DecodeCtx.codesOk, decide_eq_true_eq] at h
  have h1 : x.endVal = x.clear + 1 := rfl
  have h2 := Nat.mod_le x.clear (2 ^ 12)
  have h3 := Nat.mod_le x.endVal (2 ^ 12)
  rw [BitVec.toNat_ofNat, BitVec.toNat_ofNat]
  omega

theorem mcs (b : Byte) : Statement (.mcs b) := by intro x c _ h; simp [encode] at h
theorem sblen (b : Byte) : Statement (.sblen b) := by intro x c _ h; simp [encode] at h
theorem sbterm : Statement .sbterm := by intro x c _ h; simp [encode] at h
theorem sbdata (b : Byte) : Statement (.sbdata b) := by intro x c _ h; simp [encode] at h
theorem clr : Statement .clr := by
  intro x c hf h
  simp only [encode, RawItem.code.injEq] at h
  exact h ▸ (special_lt hf).1
theorem endCode : Statement .endCode := by
  intro x c hf h
  simp only [encode, RawItem.code.injEq] at h
  exact h ▸ (special_lt hf).2
theorem firstCode (d : Code) : Statement (.firstCode d) := by
  intro x c hf h
  simp only [encode, RawItem.code.injEq] at h
  simp only [Instr.fitsContext, Bool.and_eq_true] at hf
  exact h ▸ plain_lt hf.1.1.2
theorem dictCode (d : Code) : Statement (.dictCode d) := by
  intro x c hf h
  simp only [encode, RawItem.code.injEq] at h
  simp only [Instr.fitsContext, Bool.and_eq_true] at hf
  exact h ▸ plain_lt hf.1.1.2
theorem kwkwk (d : Code) : Statement (.kwkwk d) := by
  intro x c hf h
  simp only [encode, RawItem.code.injEq] at h
  simp only [Instr.fitsContext, Bool.and_eq_true] at hf
  exact h ▸ plain_lt hf.1.1.2
theorem bad (d : Code) : Statement (.bad d) := by
  intro x c hf h
  simp only [encode, RawItem.code.injEq] at h
  simp only [Instr.fitsContext, Bool.and_eq_true] at hf
  exact h ▸ plain_lt hf.1.2
theorem start : Statement .start := by intro x c _ h; simp [encode] at h
theorem eos : Statement .eos := by intro x c _ h; simp [encode] at h
theorem reset : Statement .reset := by intro x c _ h; simp [encode] at h
theorem cmdReserved (v : Byte) : Statement (.cmdReserved v) := by intro x c _ h; simp [encode] at h
theorem push (b : Byte) : Statement (.push b) := by intro x c _ h; simp [encode] at h
theorem cfgwrite (r : CfgReg) (v : Word) : Statement (.cfgwrite r v) := by intro x c _ h; simp [encode] at h
theorem rowrite (r : RegSel) (v : Word) : Statement (.rowrite r v) := by intro x c _ h; simp [encode] at h
theorem regread (r : RegSel) : Statement (.regread r) := by intro x c _ h; simp [encode] at h
theorem hardreset : Statement .hardreset := by intro x c _ h; simp [encode] at h
theorem canvasread (a : Nat) : Statement (.canvasread a) := by intro x c _ h; simp [encode] at h
theorem canvaswrite (a : Nat) (v : Byte) : Statement (.canvaswrite a v) := by intro x c _ h; simp [encode] at h

end Sys2Proof.Laws.EncodeFits
end

