-- ==== Sys2Proof/Tests/Slice0.lean ====
section
/-! SUPPORT. The model's own tests. Expected values are the spec's worked examples and derived vectors (95_test_vectors.md),
or the opcode table's encodings, named in each comment. The last part holds a witness for the hypotheses of each statement. -/

namespace Sys2Proof.Tests

open Sys2Proof Sys2Proof.Machine

/-- The next state, if there is one. -/
def result : Host.Outcome State Fault Refusal → Option State
  | .next s => some s
  | .fault _ => none
  | .refused _ => none

/-- A field of the next state. -/
def gives {α : Type} (x : Host.Outcome State Fault Refusal) (p : State → α) : Option α := (result x).map p

theorem exists_next {x : Host.Outcome State Fault Refusal} (h : (result x).isSome = true) : ∃ t, x = .next t := by
  cases x with
  | next t => exact ⟨t, rfl⟩
  | fault f => simp [result] at h
  | refused r => simp [result] at h

/-! ### Small states: the frame of V6, Setup(2, 2), stream 02 03 44 02 05 00 -/

/-- Configured, not started. -/
def idle : State := { State.reset with canvasW := 2, canvasH := 2, frameW := 2, frameH := 2 }
/-- START done. -/
def started : State := { idle with runState := .busy }
/-- After 02. -/
def opened : State := { started with pos := 1, m := 2, width := 3, next := 6, fstate := .len }
/-- After 03. -/
def inData : State := { opened with pos := 2, rem := 3, fstate := .data }
/-- After 44: CLR, FIRST 0. -/
def oneIndex : State :=
  { inData with pos := 3, rem := 2, acc := 1, nbits := 2, prevValid := true, pixcnt := 1, idxTrace := [0],
                cwTrace := [(0, 0)] }
/-- After 02: DICT 1, DICT 1, DICT 0. -/
def full : State :=
  { oneIndex with
    pos := 4, rem := 1, acc := 0, nbits := 0, width := 4, next := 9, pixcnt := 4, idxTrace := [0, 1, 1, 0]
    cwTrace := [(0, 0), (1, 1), (2, 1), (3, 0)], canvas := [(1, 1), (2, 1)]
    dict := [(6, { prefixCode := 0, suffix := 1 }), (7, { prefixCode := 1, suffix := 1 }),
      (8, { prefixCode := 1, suffix := 0 })] }
/-- After 05: END. -/
def ended : State := { full with pos := 5, rem := 0, nbits := 4, ended := true, fstate := .len }
/-- In a wider frame, Setup(8, 1), so that codes have room. -/
def roomy : State := { full with canvasW := 8, canvasH := 1, frameW := 8, frameH := 1 }
/-- An error. -/
def failed : State := raise .decodeError oneIndex
/-- A zero-pixel frame, Setup(0, 5, 0, 0, 0, 5, 0, 0, 0). -/
def empty : State := { inData with canvasW := 0, canvasH := 5, frameW := 0, frameH := 5 }

/-- A state with one host event pending. -/
def withEvent (e : HostEvent) (s : State) : State := { s with inputs := [e] }
/-- A state with a byte pushed. -/
def withByte (b : Nat) (s : State) : State := withEvent (.regWrite 0x03 (BitVec.ofNat 32 b)) s

/-! ### WellFormed refuses ill-formed terms -/

theorem test_wf_sblen_zero : (Instr.sblen 0).wellFormed = false := by decide
theorem test_wf_first_above_clear : (Instr.firstCode 256).wellFormed = false := by decide
theorem test_wf_kwkwk_below_six : (Instr.kwkwk 5).wellFormed = false := by decide
theorem test_wf_bad_below_six : (Instr.bad 5).wellFormed = false := by decide
theorem test_wf_reserved_is_a_command : (Instr.cmdReserved 1).wellFormed = false ∧ (Instr.cmdReserved 2).wellFormed = false ∧
    (Instr.cmdReserved 3).wellFormed = false := by decide
theorem test_wf_rowrite_writable : (Instr.rowrite (.reg .cmd) 0).wellFormed = false := by decide
theorem test_wf_rowrite_mapped : (Instr.rowrite (.unmapped 3) 0).wellFormed = false := by decide
theorem test_wf_regread_mapped : (Instr.regread (.unmapped 0x11)).wellFormed = false := by decide
theorem test_fits_wrong_fstate : (Instr.mcs 2).fitsContext opened.ctx = false ∧ (Instr.sblen 3).fitsContext inData.ctx = false ∧
    Instr.sbterm.fitsContext started.ctx = false ∧ (Instr.sbdata 3).fitsContext opened.ctx = false := by decide
theorem test_fits_no_codes_before_mcs : Instr.clr.fitsContext started.ctx = false ∧
    Instr.endCode.fitsContext started.ctx = false := by decide
theorem test_fits_first_with_previous : (Instr.firstCode 1).fitsContext oneIndex.ctx = false := by decide
theorem test_fits_dict_is_special : (Instr.dictCode 4).fitsContext oneIndex.ctx = false := by decide
theorem test_fits_kwkwk_without_previous : (Instr.kwkwk 6).fitsContext inData.ctx = false := by decide
theorem test_fits_bad_known : (Instr.bad 6).fitsContext full.ctx = false := by decide

/-! ### Decoding: words written out from the opcode table (R71, R77, R83; the codes of V6, V15, V17) -/

theorem test_decode_mcs : decode started.ctx (.byte 0b00000010) = .instr (.mcs 2) := by decide
theorem test_decode_sblen : decode opened.ctx (.byte 0b00000011) = .instr (.sblen 3) := by decide
theorem test_decode_sbterm : decode opened.ctx (.byte 0b00000000) = .instr .sbterm := by decide
theorem test_decode_sbdata : decode inData.ctx (.byte 0b00000000) = .instr (.sbdata 0) := by decide
theorem test_decode_clr : decode full.ctx (.code 0b0100) = .instr .clr := by decide
theorem test_decode_end : decode full.ctx (.code 0b0101) = .instr .endCode := by decide
theorem test_decode_first : decode inData.ctx (.code 0b001) = .instr (.firstCode 1) := by decide
theorem test_decode_dict : decode full.ctx (.code 0b1000) = .instr (.dictCode 8) := by decide
theorem test_decode_kwkwk : decode oneIndex.ctx (.code 0b110) = .instr (.kwkwk 6) := by decide
theorem test_decode_bad : decode oneIndex.ctx (.code 0b111) = .instr (.bad 7) := by decide
theorem test_decode_code_too_wide : decode oneIndex.ctx (.code 0b1000) = .rejected .codeWiderThanWidth := by decide
theorem test_decode_start : decodeEvent (.regWrite 0x00 0x00000001) = .start := by decide
theorem test_decode_eos : decodeEvent (.regWrite 0x00 0xABCDEF02) = .eos := by decide
theorem test_decode_reset : decodeEvent (.regWrite 0x00 0x00000103) = .reset := by decide
theorem test_decode_reserved : decodeEvent (.regWrite 0x00 0x00000100) = .cmdReserved 0 := by decide
theorem test_decode_push : decodeEvent (.regWrite 0x03 0x00000144) = .push 0x44 := by decide
theorem test_decode_cfgwrite : decodeEvent (.regWrite 0x0B 0x1FF) = .cfgwrite .transpIdx 0x1FF := by decide
theorem test_decode_rowrite : decodeEvent (.regWrite 0x12 7) = .rowrite (.unmapped 0x12) 7 := by decide
theorem test_decode_regread : decodeEvent (.regRead 0x11) = .regread (.reg .prev) := by decide
theorem test_decode_hardreset : decodeEvent .hardReset = .hardreset := by decide
theorem test_decode_canvasread : decodeEvent (.canvasRead 9) = .canvasread 9 := by decide
theorem test_decode_canvaswrite : decodeEvent (.canvasWrite 9 0x1AB) = .canvaswrite 9 0xAB := by decide

/-- The numbers the host counts with: a byte, and a 40-bit register write (register in the low byte). -/
theorem test_tableword : decodeTableWord 8 0x00 = some .sbterm ∧ decodeTableWord 8 0x03 = some (.sblen 3) ∧
    decodeTableWord 40 0x0000000100 = some .start ∧ decodeTableWord 40 0x0001000A08 = some (.cfgwrite .frameW 0x1000A) := by
  decide

/-- The packer of R84 on V16 and V7. -/
theorem test_pack : pack 2 255 [4, 1, 6, 7, 8, 5] = [0x02, 0x03, 0x8C, 0x8F, 0x05, 0x00] ∧
    pack 2 1 [4, 0, 1, 1, 0, 5] = [0x02, 0x01, 0x44, 0x01, 0x02, 0x01, 0x05, 0x00] := by decide

/-! ### One step each -/

/-- A table word placed by `withFetchWord` runs as the first instruction after reset: V4's terminator without END, and
R93's write to a read-only register. -/
theorem test_fetch_word : gives (step (State.reset.withFetchWord 8 0)) (fun t => (t.error, t.runState)) =
      some (.decodeError, .error) ∧
    gives (step (State.reset.withFetchWord 40 0x000000070C)) (fun t => (t.pixcnt, t.inputs)) = some (0, []) := by decide

/-- V1. -/
theorem test_mcs : gives (step (withByte 0x02 started)) (fun t => (t.m, t.width, t.next, t.fstate, t.pos)) =
    some (2, 3, 6, .len, 1) := by decide
/-- V1 with 08, V2 with 09. -/
theorem test_mcs_bounds : gives (step (withByte 0x08 started)) (fun t => (t.width, t.next)) = some (9, 258) ∧
    gives (step (withByte 0x09 started)) (fun t => (t.error, t.pos)) = some (.decodeError, 1) := by decide
/-- V3. -/
theorem test_sblen : gives (step (withByte 0xFF opened)) (fun t => (t.rem, t.fstate)) = some (255, .data) := by decide
/-- V4, and V6's last row. -/
theorem test_sbterm : gives (step (withByte 0x00 opened)) (fun t => (t.runState, t.error)) = some (.error, .decodeError) ∧
    gives (step (withByte 0x00 ended)) (fun t => (t.runState, t.pos)) = some (.done, 6) := by decide
/-- V6, third row: CLR, FIRST 0. -/
theorem test_sbdata : gives (step (withByte 0x44 inData)) (fun t => (t.acc, t.nbits, t.prevValid, t.pixcnt)) =
    some (1, 2, true, 1) := by decide
/-- V6, fourth row: DICT 1, DICT 1, DICT 0. -/
theorem test_push_three_codes : gives (step (withByte 0x02 oneIndex)) (fun t => (t.width, t.next, t.dict, t.idxTrace)) =
    some (4, 9, full.dict, [0, 1, 1, 0]) := by decide
/-- V8: a data byte after END is ignored. -/
theorem test_sbdata_after_end : gives (step (withByte 0xFF { ended with fstate := .data, rem := 1 }))
    (fun t => (t.acc, t.nbits, t.fstate)) = some (0, 4, .len) := by decide
/-- The example of R128. -/
theorem test_clr : gives (exec .clr full) (fun t => (t.next, t.width, t.prevValid)) = some (6, 3, false) := by decide
/-- The example of R129: PIXCNT 4, and 3. -/
theorem test_end : gives (exec .endCode full) (fun t => (t.ended, t.next)) = some (true, 9) ∧
    gives (exec .endCode { full with pixcnt := 3 }) (fun t => (t.runState, t.error)) = some (.error, .decodeError) := by decide
/-- The example of R130. -/
theorem test_first : gives (exec (.firstCode 1) inData) (fun t => (t.prev, t.prevValid, t.next, t.idxTrace)) =
    some (1, true, 6, [1]) := by decide
/-- The example of R131. -/
theorem test_dict : gives (exec (.dictCode 1) oneIndex) (fun t => (t.dict, t.next, t.prev)) =
    some ([(6, { prefixCode := 0, suffix := 1 })], 7, 1) := by decide
/-- V14: a code of two indices, expanded first to last. -/
theorem test_dict_expands : gives (exec (.dictCode 8) roomy) (fun t => t.idxTrace.drop 4) = some [1, 0] := by decide
/-- The example of R132, and V15. -/
theorem test_kwkwk : gives (exec (.kwkwk 6) { oneIndex with prev := 1 }) (fun t => (t.dict, t.prev, t.idxTrace.drop 1)) =
    some ([(6, { prefixCode := 1, suffix := 1 })], 6, [1, 1]) := by decide
/-- V16: KWKWK makes the width grow when NEXT becomes 8. -/
theorem test_kwkwk_grows : gives (exec (.kwkwk 7)
      { roomy with next := 7, width := 3, prev := 6, dict := [(6, { prefixCode := 1, suffix := 1 })] })
    (fun t => (t.width, t.next, t.idxTrace.drop 4)) = some (4, 8, [1, 1, 1]) := by decide
/-- V17: BAD through the byte that completes the code. -/
theorem test_bad : gives (step (withByte 0x0B { oneIndex with acc := 3 })) (fun t => (t.error, t.pixcnt, t.idxTrace)) =
    some (.decodeError, 1, [0]) := by decide
/-- V26: the indices of an expansion that fit are placed. -/
theorem test_excess : gives (exec (.dictCode 7) { roomy with pixcnt := 7 }) (fun t => (t.error, t.pixcnt, t.idxTrace.drop 4)) =
    some (.decodeError, 8, [1]) := by decide
/-- The example of R94, both ways. -/
theorem test_start :
    let s : State := { State.reset with canvasW := 10, canvasH := 10, frameW := 10, frameH := 10 }
    gives (exec .start s) (fun t => t.runState) = some .busy ∧
    gives (exec .start { s with frameX := 1 }) (fun t => (t.runState, t.error)) = some (.error, .decodeError) := by decide
/-- V41: START checks the canvas size first. -/
theorem test_start_too_wide : gives (exec .start { idle with canvasW := 801, frameX := 900 }) (fun t => t.error) =
    some .fileTooWide := by decide
/-- The example of R96. -/
theorem test_eos : gives (exec .eos opened) (fun t => (t.runState, t.error.num)) = some (.error, 4) := by decide
/-- The example of R97. -/
theorem test_reset : gives (exec .reset failed) (fun t => (t.runState, t.error, t.pixcnt, t.pos)) =
      some (.idle, .success, 0, 0) ∧
    gives (exec .reset (raise .decodeError full)) (fun t => t.canvas) = some [(1, 1), (2, 1)] := by decide
/-- R98. -/
theorem test_reserved : gives (exec (.cmdReserved 0xFF) opened) (fun t => t) = some opened := by decide
/-- The example of R92; a write while BUSY is ignored (R190). -/
theorem test_cfgwrite : gives (exec (.cfgwrite .frameW 0x0001000A) State.reset) (fun t => t.frameW) = some 10 ∧
    gives (exec (.cfgwrite .frameW 0x0001000A) started) (fun t => t.frameW) = some 2 := by decide
/-- R93. -/
theorem test_rowrite : gives (exec (.rowrite (.reg .pixcnt) 7) full) (fun t => t.pixcnt) = some 4 := by decide
/-- The example of R91, and STATUS of V6's last row: DONE, ENDED, PREV_VALID, F_LEN is 2 + 4 + 8 + 16. -/
theorem test_regread : gives (exec (.regread (.reg .status)) State.reset) (fun t => t.returned) =
      some [.reg (.reg .status) 0] ∧
    gives (exec (.regread (.reg .status)) { ended with runState := .done }) (fun t => t.returned) =
      some [.reg (.reg .status) 30] := by decide
/-- R38: the column after `HardReset`. -/
theorem test_hardreset : gives (exec .hardreset full) (fun t => (t.runState, t.canvasW, t.canvas, t.pixcnt)) =
    some (.idle, 0, [], 0) := by decide
/-- The example of R100. -/
theorem test_canvasread : gives (exec (.canvasread 0) (hardReset full)) (fun t => t.returned) = some [.cell 0 0] := by decide
/-- R100: a host write is not traced; a write of 0 leaves no entry. -/
theorem test_canvaswrite : gives (exec (.canvaswrite 5 7) idle) (fun t => (t.canvas, t.cwTrace)) = some ([(5, 7)], []) ∧
    gives (exec (.canvaswrite 2 0) { idle with canvas := full.canvas }) (fun t => t.canvas) = some [(1, 1)] := by decide
/-- The example of R146. -/
theorem test_emit_index :
    let s : State := { idle with canvasW := 4, canvasH := 3, frameX := 1, frameY := 1, pixcnt := 3 }
    emitIndex 7 s = .go { s with idxTrace := [7], cwTrace := [(10, 7)], canvas := [(10, 7)], pixcnt := 4 } := by decide
/-- V25. -/
theorem test_ilrow : (List.range 10).map (fun k => ilrow k 10) = [0, 8, 4, 2, 6, 1, 3, 5, 7, 9] ∧
    (List.range 3).map (fun k => ilrow k 3) = [0, 2, 1] ∧ ilrow 599 600 = 599 ∧ ilrow 75 600 = 4 ∧ ilrow 150 600 = 2 ∧
    ilrow 300 600 = 1 := by decide
/-- R161: the numbers of the error kinds the block raises. -/
theorem test_error_codes : (ErrorKind.success.num, ErrorKind.earlyEOF.num, ErrorKind.fileTooWide.num,
    ErrorKind.decodeError.num, ErrorKind.unknownError.num) = (0, 4, 6, 8, 11) := by decide

/-! ### The small states have the invariants -/

theorem frameOk_started : FrameOk started := ⟨by decide, by decide, by decide, by decide, by decide⟩
theorem frameOk_oneIndex : FrameOk oneIndex := ⟨by decide, by decide, by decide, by decide, by decide⟩
theorem frameOk_full : FrameOk full := ⟨by decide, by decide, by decide, by decide, by decide⟩
theorem frameOk_roomy : FrameOk roomy := ⟨by decide, by decide, by decide, by decide, by decide⟩
theorem frameOk_empty : FrameOk empty := ⟨by decide, by decide, by decide, by decide, by decide⟩

/-- A fresh LZW stage, as the minimum-code-size byte leaves it. -/
theorem lzwOk_inData : LzwOk inData where
  mLow := by decide
  mHigh := by decide
  widthLow := by decide
  widthHigh := by decide
  nextLow := by decide
  nextHigh := by decide
  nextTop := by decide
  grown := by decide
  prevOk := fun h => absurd h (by decide)
  fresh := by decide
  dictOk := fun e h1 h2 => absurd (Nat.lt_of_le_of_lt h1 h2) (by decide)

theorem lzwOk_oneIndex : LzwOk oneIndex :=
  setFirstPrev_lzwOk (c := 0) (lzwOk_inData.congr (t := { oneIndex with prevValid := false }) rfl rfl rfl rfl rfl rfl rfl)
    (by decide) (by unfold State.plain; decide)

/-- Three entries: (0, 1), (1, 1), (1, 0). -/
theorem lzwOk_full : LzwOk full where
  mLow := by decide
  mHigh := by decide
  widthLow := by decide
  widthHigh := by decide
  nextLow := by decide
  nextHigh := by decide
  nextTop := by decide
  grown := by decide
  prevOk := by unfold State.plain; decide
  fresh := by decide
  dictOk := fun e h1 h2 => by
    have h1' : 6 ≤ e := h1
    have h2' : e < 9 := h2
    have he : e = 6 ∨ e = 7 ∨ e = 8 := by omega
    rcases he with rfl | rfl | rfl <;> (unfold State.plain; decide)

theorem lzwOk_roomy : LzwOk roomy := lzwOk_full.congr rfl rfl rfl rfl rfl rfl rfl
theorem lzwOk_empty : LzwOk empty := lzwOk_inData.congr rfl rfl rfl rfl rfl rfl rfl

/-- The invariant, in a frame between two codes, with a byte pending and a byte of the sub-block to come. -/
theorem inv_inData : MachineInv inData where
  canvasForm := rfl
  canvasRange := fun _ _ => rfl
  dictTable := rfl
  errorIff := by decide
  idleFresh := fun h => absurd h (by decide)
  busyFrame := fun _ => ⟨by decide, by decide, by decide, by decide, by decide⟩
  endedFull := by decide
  startOk := fun _ h => absurd h (by decide)
  lzwOk := fun _ => lzwOk_inData.congr rfl rfl rfl rfl rfl rfl rfl
  cursorOk := fun _ _ => ⟨by decide, by decide, by decide⟩
  doneEnded := fun h => absurd h (by decide)

/-- The invariant after END, with the terminator to come. -/
theorem inv_ended : MachineInv ended where
  canvasForm := rfl
  canvasRange := fun a h => by
    have h' : 480000 ≤ a := h
    show Memory.read [(1, 1), (2, 1)] a = 0
    rw [Memory.read_cons, Memory.read_cons, if_neg (by omega), if_neg (by omega)]
    rfl
  dictTable := rfl
  errorIff := by decide
  idleFresh := fun h => absurd h (by decide)
  busyFrame := fun _ => ⟨by decide, by decide, by decide, by decide, by decide⟩
  endedFull := by decide
  startOk := fun _ h => absurd h (by decide)
  lzwOk := fun _ => lzwOk_full.congr rfl rfl rfl rfl rfl rfl rfl
  cursorOk := fun _ _ => ⟨by decide, by decide, by decide⟩
  doneEnded := fun h => absurd h (by decide)

/-- An idle block, with an event pending. -/
theorem inv_idle : MachineInv idle where
  canvasForm := rfl
  canvasRange := fun _ _ => rfl
  dictTable := rfl
  errorIff := by decide
  idleFresh := fun _ => rfl
  busyFrame := fun h => absurd h (by decide)
  endedFull := fun h => absurd h (by decide)
  startOk := fun h => absurd h (by decide)
  lzwOk := fun h => absurd h (by decide)
  cursorOk := fun h => absurd h (by decide)
  doneEnded := fun h => absurd h (by decide)

theorem inv_withEvent {s : State} (h : MachineInv s) (e : HostEvent) : MachineInv (withEvent e s) :=
  h.host [e] s.returned s.draws

/-! ### Witnesses: concrete states and operands that meet the hypotheses of each statement, clause by clause -/

theorem witness_DecodeOfEncode : (Instr.sblen 255).wellFormed = true ∧ (Instr.sblen 255).fitsContext opened.ctx = true ∧
    (Instr.firstCode 3).wellFormed = true ∧ (Instr.firstCode 3).fitsContext inData.ctx = true ∧
    (Instr.kwkwk 6).wellFormed = true ∧ (Instr.kwkwk 6).fitsContext oneIndex.ctx = true ∧
    (Instr.rowrite (.unmapped 0x12) 0).wellFormed = true ∧
    (Instr.rowrite (.unmapped 0x12) 0).fitsContext oneIndex.ctx = true := by decide

theorem witness_DecodedItems : inData.ctx.codesOk = true ∧ inData.ctx.prevValid = false ∧
    inData.ctx.next.toNat = inData.ctx.clear + 2 ∧ decode inData.ctx (.code 7) = .instr (.bad 7) ∧
    oneIndex.ctx.codesOk = true ∧ oneIndex.ctx.prevValid = true ∧ decode oneIndex.ctx (.code 6) = .instr (.kwkwk 6) ∧
    decode opened.ctx (.byte 0) = .instr .sbterm ∧ decode opened.ctx (.event (.regRead 0x12)) = .instr (.regread (.unmapped 0x12)) := by
  decide

theorem witness_Step : (withByte 3 opened).inputs = [.regWrite 0x03 3] ∧ opened.inputs = [] := by decide

theorem witness_Push : idle.runState ≠ .busy ∧ started.runState = .busy ∧ started.fstate = .mcs ∧
    opened.runState = .busy ∧ opened.fstate = .len ∧ inData.runState = .busy ∧ inData.fstate = .data ∧
    (result (exec (.push 0x44) inData)).isSome = true := by decide

theorem witness_FetchLoop : (addByte 0x44 inData).ended = false ∧
    (addByte 0x44 inData).width.toNat ≤ (addByte 0x44 inData).nbits.toNat ∧
    ¬ (oneIndex.ended = false ∧ oneIndex.width.toNat ≤ oneIndex.nbits.toNat) := by decide

theorem witness_SoftReset : failed.runState = .error ∧ BitVec.extractLsb' 0 8 (1 : Word) ≠ (3 : Byte) ∧
    BitVec.extractLsb' 0 8 (0x103 : Word) = (3 : Byte) ∧
    ∃ t, exec (decodeEvent (.regWrite 0x00 1)) failed = .next t :=
  ⟨by decide, by decide, by decide, exists_next (by decide)⟩

theorem witness_Start : failed.runState = .error ∧ opened.runState = .busy ∧ idle.runState = .idle ∧
    ({ idle with canvasW := 801 } : State).params.maxW < ({ idle with canvasW := 801 } : State).canvasW.toNat ∧
    ({ idle with frameX := 1 } : State).canvasW.toNat <
      ({ idle with frameX := 1 } : State).frameX.toNat + ({ idle with frameX := 1 } : State).frameW.toNat ∧
    idle.frameX.toNat + idle.frameW.toNat ≤ idle.canvasW.toNat ∧ idle.canvasW.toNat ≤ idle.params.maxW ∧
    idle.frameY.toNat + idle.frameH.toNat ≤ idle.canvasH.toNat ∧ idle.canvasH.toNat ≤ idle.params.maxH ∧
    ({ ended with runState := .done } : State).runState = .done := by decide

theorem witness_Eos : opened.runState = .busy ∧ idle.runState ≠ .busy := by decide

theorem witness_Reserved : (BitVec.setWidth 8 (0x100 : Word) ≠ (1 : Byte) ∧ BitVec.setWidth 8 (0x100 : Word) ≠ (2 : Byte) ∧
    BitVec.setWidth 8 (0x100 : Word) ≠ (3 : Byte)) ∧ (BitVec.setWidth 8 (4 : Word) ≠ (1 : Byte) ∧
    BitVec.setWidth 8 (4 : Word) ≠ (2 : Byte) ∧ BitVec.setWidth 8 (4 : Word) ≠ (3 : Byte)) := by decide

theorem witness_ReadOnly : (decodeEvent (.regWrite 0x01 5) = .rowrite (.reg .status) 5) ∧
    (decodeEvent (.regWrite 0x02 5) = .rowrite (.reg .error) 5) ∧ (decodeEvent (.regWrite 0x0C 5) = .rowrite (.reg .pixcnt) 5) ∧
    decodeEvent (.regWrite 0x12 5) = .rowrite (.unmapped 0x12) 5 := by decide

theorem witness_ConfigWrite : started.runState = .busy ∧ failed.runState ≠ .busy ∧ idle.runState ≠ .busy := by decide

theorem witness_Reads : 0x11 < 0x12 ∧ idle.runState ≠ .error ∧ ¬ (idle.runState = .busy ∧ idle.fstate = .mcs) ∧
    opened.runState ≠ .error ∧ ¬ (opened.runState = .busy ∧ opened.fstate = .mcs) ∧
    oneIndex.runState ≠ .error ∧ oneIndex.prevValid = true ∧ MachineInv idle ∧ idle.runState = .idle :=
  ⟨by decide, by decide, by decide, by decide, by decide, by decide, by decide, inv_idle, by decide⟩

theorem witness_UndefinedReads : failed.runState = .error ∧ started.runState = .busy ∧ started.fstate = .mcs ∧
    opened.prevValid = false ∧ opened.runState ≠ .idle := by decide

theorem witness_Canvas : idle.canvas.wf = true ∧ ended.canvas.wf = true ∧ ended.runState = .busy ∧ idle.runState ≠ .busy ∧
    idle.params.maxW * idle.params.maxH ≤ 480000 ∧ 479999 < idle.params.maxW * idle.params.maxH := by decide

theorem witness_Mcs : 2 ≤ (2 : Byte).toNat ∧ (8 : Byte).toNat ≤ 8 ∧ (1 : Byte).toNat < 2 ∧ 8 < (9 : Byte).toNat := by decide

theorem witness_Sblen : (1 : Byte) ≠ 0 ∧ (255 : Byte) ≠ 0 := by decide

theorem witness_Sbterm : ended.ended = true ∧ opened.ended = false := by decide

theorem witness_DataByteIsCounted :
    let s : State := { ended with rem := 1, fstate := .data }
    let u : State := { ended with rem := 2, fstate := .data }
    (inData.ended = false ∧ 1 ≤ inData.rem.toNat ∧ inData.fstate = .data) ∧
    (s.ended = true ∧ 1 ≤ s.rem.toNat ∧ s.fstate = .data ∧ s.rem.toNat = 1) ∧
      (u.ended = true ∧ 1 ≤ u.rem.toNat ∧ u.fstate = .data ∧ u.rem.toNat ≠ 1) := by decide

theorem witness_DataByteWaits :
    let s : State := { inData with width := 12, acc := 7, nbits := 3 }
    s.ended = false ∧ 1 ≤ s.rem.toNat ∧ s.fstate = .data ∧ s.acc.toNat < 2 ^ s.nbits.toNat ∧
      s.nbits.toNat + 8 < s.width.toNat ∧ s.width.toNat ≤ 12 ∧ ({ s with rem := 1 } : State).rem.toNat = 1 := by decide

theorem witness_DataByteRuns : MachineInv inData ∧ inData.runState = .busy ∧ inData.fstate = .data ∧ inData.ended = false :=
  ⟨inv_inData, by decide, by decide, by decide⟩

theorem witness_PushCompletes : started.runState = .busy ∧ started.fstate = .mcs ∧ opened.runState = .busy ∧
    opened.fstate = .len ∧ ended.runState = .busy ∧ ended.fstate = .len ∧ ended.ended = true ∧
    ({ ended with rem := 1, fstate := .data } : State).fstate = .data ∧ 2 ≤ (8 : Byte).toNat ∧ (8 : Byte).toNat ≤ 8 := by decide

theorem witness_Feed :
    let s : State := { inData with acc := 2047, nbits := 11 }
    (inData.nbits.toNat ≤ 11 ∧ inData.acc.toNat < 2 ^ inData.nbits.toNat) ∧
      (s.nbits.toNat ≤ 11 ∧ s.acc.toNat < 2 ^ s.nbits.toNat) := by decide

theorem witness_Fetch :
    let s : State := { inData with width := 12, acc := 0x7FFFF, nbits := 19 }
    let u : State := { inData with width := 12, acc := 0xFFF, nbits := 12 }
    (s.width.toNat ≤ 12 ∧ s.width.toNat ≤ s.nbits.toNat ∧ s.nbits.toNat ≤ 19) ∧
      (u.width.toNat ≤ 12 ∧ u.width.toNat ≤ u.nbits.toNat ∧ u.nbits.toNat ≤ 19) := by decide

theorem witness_SubBlocks : SameButFraming inData { inData with pos := 3, rem := 1, fstate := .len } ∧
    (∃ t, exec (.sbdata 0x44) inData = .next t) ∧ ∃ t, exec (.sblen 3) { inData with pos := 3, rem := 1, fstate := .len } = .next t :=
  ⟨rfl, exists_next (by decide), exists_next (by decide)⟩

theorem witness_End : full.pixcnt.toNat = full.frameW.toNat * full.frameH.toNat ∧
    oneIndex.pixcnt.toNat ≠ oneIndex.frameW.toNat * oneIndex.frameH.toNat := by decide

theorem witness_EmitIndex :
    let s : State := { oneIndex with transpEn := true, transpIdx := 3 }
    FrameOk full ∧ full.pixcnt.toNat = full.framePixels ∧ FrameOk oneIndex ∧ oneIndex.pixcnt.toNat < oneIndex.framePixels ∧
      ¬ (oneIndex.transpEn = true ∧ (3 : Byte) = oneIndex.transpIdx) ∧
      FrameOk s ∧ s.pixcnt.toNat < s.framePixels ∧ s.transpEn = true ∧ (3 : Byte) = s.transpIdx :=
  ⟨frameOk_full, by decide, frameOk_oneIndex, by decide, by decide,
    ⟨by decide, by decide, by decide, by decide, by decide⟩, by decide, by decide, by decide⟩

theorem witness_Emit : FrameOk oneIndex ∧ oneIndex.pixcnt.toNat + [(1 : Byte), 2, 3].length ≤ oneIndex.framePixels ∧
    oneIndex.framePixels < oneIndex.pixcnt.toNat + [(1 : Byte), 2, 3, 0].length :=
  ⟨frameOk_oneIndex, by decide, by decide⟩

theorem witness_Accepted : FrameOk oneIndex ∧ oneIndex.canvas.wf = true ∧
    oneIndex.pixcnt.toNat + [(1 : Byte), 2, 3].length ≤ oneIndex.framePixels ∧ [(1 : Byte), 2, 3][2]? = some 3 ∧
    ∀ j, j < 3 → oneIndex.indexAddr (oneIndex.pixcnt.toNat + j) ≠ 9 :=
  ⟨frameOk_oneIndex, by decide, by decide, by decide, by decide⟩

theorem witness_First :
    let u : State := { inData with pixcnt := 4 }
    (FrameOk inData ∧ inData.prevValid = false ∧ 2 ≤ inData.m.toNat ∧ inData.m.toNat ≤ 8 ∧ (3 : Code).toNat < inData.clear ∧
        inData.pixcnt.toNat < inData.framePixels) ∧
      (FrameOk u ∧ u.prevValid = false ∧ 2 ≤ u.m.toNat ∧ u.m.toNat ≤ 8 ∧ (3 : Code).toNat < u.clear ∧
        u.pixcnt.toNat = u.framePixels) :=
  ⟨⟨⟨by decide, by decide, by decide, by decide, by decide⟩, by decide, by decide, by decide, by decide, by decide⟩,
    ⟨⟨by decide, by decide, by decide, by decide, by decide⟩, by decide, by decide, by decide, by decide, by decide⟩⟩

theorem witness_Insert :
    let s : State := { full with next := 15 }
    let u : State := { full with width := 12, next := 4095 }
    let v : State := { full with width := 12, next := 4096 }
    (s.next.toNat ≤ 4095 ∧ s.next.toNat + 1 = 2 ^ s.width.toNat ∧ s.width.toNat < 12) ∧
      (full.next.toNat ≤ 4095 ∧ ¬ (full.next.toNat + 1 = 2 ^ full.width.toNat ∧ full.width.toNat < 12)) ∧
      (u.next.toNat ≤ 4095 ∧ ¬ (u.next.toNat + 1 = 2 ^ u.width.toNat ∧ u.width.toNat < 12)) ∧ 4095 < v.next.toNat := by decide

theorem witness_Expansion : LzwOk full ∧ (8 : Code).toNat < full.next.toNat ∧ full.plain (8 : Code).toNat ∧
    full.clear ≤ (8 : Code).toNat ∧ (3 : Code).toNat < full.next.toNat ∧ full.plain (3 : Code).toNat ∧
    (3 : Code).toNat < full.clear :=
  ⟨lzwOk_full, by decide, by unfold State.plain; decide, by decide, by decide, by unfold State.plain; decide, by decide⟩

theorem witness_FirstIsTheHead : LzwOk full ∧ (8 : Code).toNat < full.next.toNat ∧ full.plain (8 : Code).toNat :=
  ⟨lzwOk_full, by decide, by unfold State.plain; decide⟩

theorem witness_Dict : LzwOk roomy ∧ FrameOk roomy ∧ roomy.prevValid = true ∧ (8 : Code).toNat < roomy.next.toNat ∧
    roomy.plain (8 : Code).toNat ∧ expOf roomy 8 = some (1 :: [0]) ∧
    roomy.pixcnt.toNat + ([(0 : Byte)].length + 1) ≤ roomy.framePixels ∧
    LzwOk full ∧ FrameOk full ∧ full.prevValid = true ∧ expOf full 8 = some (1 :: [0]) ∧
    full.framePixels < full.pixcnt.toNat + ([(0 : Byte)].length + 1) :=
  ⟨lzwOk_roomy, frameOk_roomy, by decide, by decide, by unfold State.plain; decide, by decide, by decide,
    lzwOk_full, frameOk_full, by decide, by decide, by decide⟩

theorem witness_Kwkwk : LzwOk roomy ∧ FrameOk roomy ∧ roomy.prevValid = true ∧ (9 : Code).toNat = roomy.next.toNat ∧
    expOf roomy roomy.prev = some (0 :: []) ∧ roomy.pixcnt.toNat + (([] : List Byte).length + 2) ≤ roomy.framePixels ∧
    LzwOk full ∧ FrameOk full ∧ full.prevValid = true ∧ (9 : Code).toNat = full.next.toNat ∧
    expOf full full.prev = some (0 :: []) ∧ full.framePixels < full.pixcnt.toNat + (([] : List Byte).length + 2) :=
  ⟨lzwOk_roomy, frameOk_roomy, by decide, by decide, by decide, by decide,
    lzwOk_full, frameOk_full, by decide, by decide, by decide, by decide⟩

theorem witness_CodesChange : inData.canvas.wf = true ∧ (∃ t, exec (.firstCode 1) inData = .next t) ∧
    (∃ t, exec (.dictCode 1) oneIndex = .next t) ∧ (∃ t, exec (.kwkwk 6) oneIndex = .next t) ∧
    (∃ t, exec (.sbdata 0x44) inData = .next t) ∧ ∃ t, exec (.push 0x44) inData = .next t :=
  ⟨by decide, exists_next (by decide), exists_next (by decide), exists_next (by decide), exists_next (by decide),
    exists_next (by decide)⟩

theorem witness_PushIsTheBlit : (∃ t, exec (.push 0x02) oneIndex = .next t) ∧ ∃ t, exec (.push 0x02) idle = .next t :=
  ⟨exists_next (by decide), exists_next (by decide)⟩

theorem witness_Width : LzwOk oneIndex ∧ (1 : Code).toNat ≠ oneIndex.clear ∧ ∃ t, execCode 1 oneIndex = .go t :=
  ⟨lzwOk_oneIndex, by decide, _,
    show execCode 1 oneIndex =
      .go (setPrev 1 ((Machine.insert 1 oneIndex).accept [1])) by decide⟩

theorem witness_Stale : MachineInv inData ∧ inData.runState = .busy ∧
    SameLive inData { inData with prev := 9, dict := [(9, { prefixCode := 1, suffix := 1 })], dictEra := 5 } :=
  ⟨inv_inData, by decide, rfl, fun h => absurd h (by decide),
    fun e h1 h2 => absurd (Nat.lt_of_le_of_lt h1 h2) (by decide)⟩

theorem witness_Interlace : 0 < 1 ∧ 1 < 2 ∧ ilrow 0 2 = 0 ∧ ilrow 1 2 = 1 := by decide

theorem witness_Cursor : 7 < 2 * 4 ∧ RowCursor.after 2 4 true 7 = { col := 1, pass := 4, row := 3 } := by decide

theorem witness_PixelAddress : FrameOk started ∧ 3 < started.framePixels := ⟨frameOk_started, by decide⟩

theorem witness_FrameDrawn : idle.runState = .idle ∧ gives (exec .start idle) (fun t => t.runState) = some .busy ∧
    MachineInv inData ∧ inData.runState = .busy ∧ FrameDrawn [] [] inData ∧ (∃ t, exec (.push 0x44) inData = .next t) ∧
    MachineInv ended ∧ gives (exec (.push 0) ended) (fun t => t.runState) = some .done :=
  ⟨by decide, by decide, inv_inData, by decide,
    ⟨[], rfl, rfl, fun a n v h => absurd h (by simp), fun a _ => rfl⟩, exists_next (by decide), inv_ended, by decide⟩

theorem witness_CanvasNeverRead : gives (exec (.push 0x02) oneIndex) (fun t => t.cwTrace) =
    some (oneIndex.cwTrace ++ [(1, 1), (2, 1), (3, 0)]) := by decide

theorem witness_StateMoves : (∃ t, step (withEvent .hardReset failed) = .next t) ∧
    (∃ t, step (withEvent (.regWrite 0 3) failed) = .next t) ∧ (∃ t, step (withEvent (.regWrite 0 1) failed) = .next t) ∧
    (∃ t, step (withEvent (.regWrite 0 1) idle) = .next t) ∧ (∃ t, step (withEvent (.regWrite 3 1) idle) = .next t) ∧
    (∃ t, step (withByte 0 ended) = .next t) ∧ (∃ t, step (withEvent (.regWrite 0 2) opened) = .next t) ∧
    (∃ t, step (withEvent (.regRead 0) opened) = .next t) ∧ decodeEvent (.regWrite 0 3) = .reset ∧
    decodeEvent (.regWrite 0 1) = .start ∧ decodeEvent (.regWrite 0 2) = .eos ∧ decodeEvent (.regWrite 3 1) = .push 1 :=
  ⟨exists_next (by decide), exists_next (by decide), exists_next (by decide), exists_next (by decide),
    exists_next (by decide), exists_next (by decide), exists_next (by decide), exists_next (by decide), by decide,
    by decide, by decide, by decide⟩

/-- E1 and E2 (V41), E3 (V2), E7 (V4), E8 (the example of R96): an event that enters ERROR, with the kind. -/
theorem witness_ErrorCauses :
    let kind (x : Host.Outcome State Fault Refusal) := gives x fun t => (t.runState, t.error)
    idle.runState ≠ .error ∧ started.runState = .busy ∧ opened.runState = .busy ∧
    kind (step (withEvent (.regWrite 0 1) { idle with canvasW := 801 })) = some (.error, .fileTooWide) ∧
    kind (step (withEvent (.regWrite 0 1) { idle with frameX := 1 })) = some (.error, .decodeError) ∧
    kind (step (withByte 1 started)) = some (.error, .decodeError) ∧
    kind (step (withByte 9 started)) = some (.error, .decodeError) ∧
    kind (step (withByte 0 opened)) = some (.error, .decodeError) ∧
    kind (step (withEvent (.regWrite 0 2) opened)) = some (.error, .earlyEOF) := by decide

/-- The state in which the fetch loop of a data byte starts, the byte being pushed in `s` with nothing else pending. -/
def fed (b : Byte) (s : State) : State := addByte b (countData (countByte s))

/-- E4, E6 and E5 of each kind of code: a byte that enters ERROR by its first code, and the class of that code. -/
theorem witness_ErrorCauses_firstCode :
    let raises (b : Nat) (s : State) := gives (step (withByte b s)) fun t => (t.runState, t.error)
    let classOf (u : State) := classify (dropCode u).ctx (nextCode u)
    let bad : State := { oneIndex with acc := 3 }
    let first : State := { inData with pixcnt := 4 }
    let dict : State := { oneIndex with pixcnt := 4 }
    let kwkwk : State := { oneIndex with pixcnt := 3, acc := 2 }
    (raises 0x0B bad = some (.error, .decodeError) ∧ FetchReaches (fed 0x0B bad) (fed 0x0B bad) ∧
      classOf (fed 0x0B bad) = .bad) ∧
    (raises 0x07 oneIndex = some (.error, .decodeError) ∧ FetchReaches (fed 0x07 oneIndex) (fed 0x07 oneIndex) ∧
      classOf (fed 0x07 oneIndex) = .endCode ∧ oneIndex.pixcnt.toNat ≠ oneIndex.framePixels) ∧
    (raises 0 first = some (.error, .decodeError) ∧ FetchReaches (fed 0 first) (fed 0 first) ∧
      classOf (fed 0 first) = .firstCode ∧ first.pixcnt.toNat = first.framePixels) ∧
    (raises 0 dict = some (.error, .decodeError) ∧ FetchReaches (fed 0 dict) (fed 0 dict) ∧
      classOf (fed 0 dict) = .dictCode ∧ expOf (dropCode (fed 0 dict)) 1 = some [1] ∧
      dict.framePixels < dict.pixcnt.toNat + 1) ∧
    (raises 0x01 kwkwk = some (.error, .decodeError) ∧ FetchReaches (fed 0x01 kwkwk) (fed 0x01 kwkwk) ∧
      classOf (fed 0x01 kwkwk) = .kwkwk ∧ expOf (dropCode (fed 0x01 kwkwk)) 0 = some [0] ∧
      kwkwk.framePixels < kwkwk.pixcnt.toNat + (1 + 1)) :=
  ⟨⟨by decide, .start, by decide⟩, ⟨by decide, .start, by decide, by decide⟩, ⟨by decide, .start, by decide, by decide⟩,
    ⟨by decide, .start, by decide, by decide, by decide⟩, ⟨by decide, .start, by decide, by decide, by decide⟩⟩

/-- V27: in a zero-pixel frame the byte 44 is CLR, which raises nothing, and then FIRST 0, which does. -/
theorem witness_ErrorCauses_laterCode :
    let u : State := lzwInit (dropCode (fed 0x44 empty))
    gives (step (withByte 0x44 empty)) (fun t => (t.runState, t.error)) = some (.error, .decodeError) ∧
    FetchReaches (fed 0x44 empty) u ∧ u.ended = false ∧ u.width.toNat ≤ u.nbits.toNat ∧
    classify (dropCode u).ctx (nextCode u) = .firstCode ∧ (dropCode u).pixcnt.toNat = (dropCode u).framePixels :=
  ⟨by decide, .round .start (by decide) (by decide) (by decide), by decide, by decide, by decide, by decide⟩

theorem witness_ErrorStays : failed.runState = .error ∧ (withEvent (.canvasWrite 5 7) failed).inputs = [.canvasWrite 5 7] ∧
    (∃ t, step (withEvent (.canvasWrite 5 7) failed) = .next t) ∧ (∃ t, step (withEvent (.regWrite 0 1) failed) = .next t) ∧
    decodeEvent (.regWrite 0 1) ≠ .hardreset ∧ decodeEvent (.regWrite 0 1) ≠ .reset :=
  ⟨by decide, by decide, exists_next (by decide), exists_next (by decide), by decide, by decide⟩

theorem witness_ConfigFrozen : opened.runState = .busy ∧ (∃ t, step (withEvent (.regWrite 0x04 7) opened) = .next t) ∧
    (∃ t, step (withEvent (.regWrite 0x0B 7) opened) = .next t) ∧
    decodeEvent (.regWrite 0x04 7) ≠ .hardreset ∧ (∃ t, step (withEvent (.regWrite 0 1) idle) = .next t) ∧
    ∀ r v, decodeEvent (.regWrite 0 1) ≠ .cfgwrite r v :=
  ⟨by decide, exists_next (by decide), exists_next (by decide), by decide, exists_next (by decide), fun r v h => nomatch h⟩

theorem witness_Pos : (∃ t, step (withByte 3 opened) = .next t) ∧ (∃ t, step (withByte 3 idle) = .next t) ∧
    (∃ t, step (withEvent .hardReset opened) = .next t) ∧ (∃ t, step (withEvent (.regWrite 0 1) idle) = .next t) ∧
    (∃ t, step (withEvent (.regRead 0x0D) opened) = .next t) :=
  ⟨exists_next (by decide), exists_next (by decide), exists_next (by decide), exists_next (by decide),
    exists_next (by decide)⟩

theorem witness_ZeroPixels : LzwOk empty ∧ FrameOk empty ∧ empty.framePixels = 0 ∧ classify empty.ctx 3 = .firstCode ∧
    LzwOk { empty with prevValid := true } ∧ classify ({ empty with prevValid := true } : State).ctx 3 = .dictCode ∧
    classify ({ empty with prevValid := true } : State).ctx 6 = .kwkwk :=
  ⟨lzwOk_empty, frameOk_empty, by decide, by decide,
    setFirstPrev_lzwOk (c := 0) lzwOk_empty (by decide) (by unfold State.plain; decide), by decide, by decide⟩

theorem witness_StepKeepsInv : MachineInv (withByte 0x44 inData) ∧ (∃ t, step (withByte 0x44 inData) = .next t) ∧
    MachineInv (withEvent (.regWrite 0 1) idle) ∧ ∃ t, step (withEvent (.regWrite 0 1) idle) = .next t :=
  ⟨inv_withEvent inv_inData _, exists_next (by decide), inv_withEvent inv_idle _, exists_next (by decide)⟩

theorem witness_Completes : MachineInv (withByte 0x44 inData) ∧ MachineInv (withEvent (.canvasRead 5) inData) ∧
    step (withEvent (.canvasRead 5) inData) = .refused .canvasPortBusy ∧ MachineInv (withEvent (.canvasRead 480000) idle) ∧
    step (withEvent (.canvasRead 480000) idle) = .refused .canvasPortAddress :=
  ⟨inv_withEvent inv_inData _, inv_withEvent inv_inData _, rfl, inv_withEvent inv_idle _, rfl⟩

end Sys2Proof.Tests
end

/-! ### One step, by the host event it takes (R9, R60, R90) -/

namespace Sys2Proof.Machine

/-- A step with an event pending takes the oldest one and runs it (R9, R60). -/
theorem step_of_inputs {s : State} {e : HostEvent} {rest : List HostEvent} (h : s.inputs = e :: rest) :
    step s = exec (decodeEvent e) { s with inputs := rest } := by
  simp only [step, fetchEvent, h]

/-- The eleven rows of R90: the instructions that a host event can be. -/
inductive HostInstr : Instr → Prop where
  | start : HostInstr .start
  | eos : HostInstr .eos
  | reset : HostInstr .reset
  | cmdReserved (v : Byte) : HostInstr (.cmdReserved v)
  | push (b : Byte) : HostInstr (.push b)
  | cfgwrite (r : CfgReg) (v : Word) : HostInstr (.cfgwrite r v)
  | rowrite (r : RegSel) (v : Word) : HostInstr (.rowrite r v)
  | regread (r : RegSel) : HostInstr (.regread r)
  | hardreset : HostInstr .hardreset
  | canvasread (a : Nat) : HostInstr (.canvasread a)
  | canvaswrite (a : Nat) (v : Byte) : HostInstr (.canvaswrite a v)

/-- A write to CMD is a command (R83). -/
theorem decodeCommand_hostInstr (v : Byte) : HostInstr (decodeCommand v) := by
  unfold decodeCommand
  split
  · exact .start
  · split
    · exact .eos
    · split
      · exact .reset
      · exact .cmdReserved v

/-- A register write is a command, a PUSH, or a write that is kept or ignored (R83, R92, R93). -/
theorem decodeRegWrite_hostInstr (r : RegSel) (v : Word) : HostInstr (decodeRegWrite r v) := by
  cases r with
  | unmapped n => exact .rowrite _ v
  | reg r =>
    cases r with
    | cmd => exact decodeCommand_hostInstr _
    | dataIn => exact .push _
    | canvasW | canvasH | frameX | frameY | frameW | frameH | frameFlags | transpIdx => exact .cfgwrite _ v
    | status | error | pixcnt | pos | mincode | width | next | prev => exact .rowrite _ v

/-- Every host event is one of the rows of R90. -/
theorem decodeEvent_hostInstr (e : HostEvent) : HostInstr (decodeEvent e) := by
  cases e with
  | hardReset => exact .hardreset
  | regWrite n v => exact decodeRegWrite_hostInstr _ v
  | regRead n => exact .regread _
  | canvasRead a => exact .canvasread a
  | canvasWrite a v => exact .canvaswrite a _

/-- The canvas port answers only outside BUSY and at an address that exists (R100, R191). -/
theorem canvasPort_eq_next {a : Nat} {s k t : State} (h : canvasPort a s k = .next t) :
    s.runState ≠ .busy ∧ a < s.canvasCells ∧ t = k := by
  unfold canvasPort at h
  split at h
  · cases h
  · next hbusy =>
    split at h
    · next ha => cases h; exact ⟨hbusy, ha, rfl⟩
    · cases h

end Sys2Proof.Machine

/-! ### POS (R28): what each host event makes of it -/

namespace Sys2Proof.Machine

/-- A byte's own item leaves POS as PUSH has counted it (R95, R110). -/
theorem runByte_pos {b : Byte} {s t : State} (h : (runByte b s).outcome = .next t) : t.pos = s.pos := by
  rcases runByte_ends b s with ⟨ix, u, hu, hdel, -⟩ | ⟨ix, u, hu, hdel⟩ | ⟨f, hf⟩
  · rw [hu] at h; cases h; exact hdel.pos
  · rw [hu] at h; cases h; exact hdel.pos
  · rw [hf] at h; cases h

theorem execPush_pos {b : Byte} {s t : State} (h : execPush b s = .next t) :
    t.pos = if s.runState = .busy then s.pos + 1 else s.pos := by
  unfold execPush at h
  split at h
  · next hbusy => rw [if_pos hbusy, runByte_pos h, countByte_pos]
  · next hbusy => cases h; rw [if_neg hbusy]

/-- START clears POS before its checks, so a frame that it refuses has POS = 0 too (R94). -/
theorem execStart_pos {s t : State} (h : execStart s = .next t) :
    t.pos = if s.runState = .idle ∨ s.runState = .done then 0 else s.pos := by
  unfold execStart at h
  split at h
  · next hready =>
    rw [if_pos hready]
    split at h
    · cases h; rfl
    · split at h <;> cases h <;> rfl
  · next hready => cases h; rw [if_neg hready]

theorem execEos_pos {s t : State} (h : execEos s = .next t) : t.pos = s.pos := by
  unfold execEos at h
  split at h <;> cases h <;> rfl

@[simp] theorem writeConfig_pos (r : CfgReg) (v : Word) (s : State) : (writeConfig r v s).pos = s.pos := by
  cases r <;> rfl

theorem execCfgwrite_pos {r : CfgReg} {v : Word} {s t : State} (h : execCfgwrite r v s = .next t) : t.pos = s.pos := by
  unfold execCfgwrite at h
  split at h
  · cases h; rfl
  · cases h; exact writeConfig_pos r v s

theorem execRegread_pos {r : RegSel} {s t : State} (h : execRegread r s = .next t) : t.pos = s.pos := by
  unfold execRegread at h
  split at h <;> cases h <;> rfl

/-- A host event that is no PUSH, START, RESET or HardReset leaves POS. -/
theorem exec_pos_of_other {i : Instr} {s t : State} (hi : HostInstr i) (h : exec i s = .next t)
    (hpush : ∀ b, i ≠ .push b) (hhard : i ≠ .hardreset) (hreset : i ≠ .reset) (hstart : i ≠ .start) :
    t.pos = s.pos := by
  cases hi with
  | start => exact absurd rfl hstart
  | reset => exact absurd rfl hreset
  | hardreset => exact absurd rfl hhard
  | push b => exact absurd rfl (hpush b)
  | eos => exact execEos_pos h
  | cfgwrite r v => exact execCfgwrite_pos h
  | regread r => exact execRegread_pos h
  | cmdReserved v => cases h; rfl
  | rowrite r v => cases h; rfl
  | canvasread a => obtain ⟨-, -, rfl⟩ := canvasPort_eq_next h; rfl
  | canvaswrite a v => obtain ⟨-, -, rfl⟩ := canvasPort_eq_next h; rfl

/-- Settles O55: the event is decoded to a row of R90, and each row has its own lemma on POS. -/
theorem posCountsAcceptedBytes : Obligations.PosCountsAcceptedBytes := by
  intro s t e rest hin hstep
  rw [step_of_inputs hin] at hstep
  refine ⟨fun b hd => ?_, fun hd => ?_, fun hd => ?_, fun hpush hhard hreset hstart => ?_⟩
  · rw [hd] at hstep
    exact (execPush_pos hstep :)
  · rcases hd with hd | hd <;> rw [hd] at hstep <;> cases hstep <;> rfl
  · rw [hd] at hstep
    exact (execStart_pos hstep :)
  · exact (exec_pos_of_other (decodeEvent_hostInstr e) hstep hpush hhard hreset hstart :)

end Sys2Proof.Machine

/-! ### The code classes (R77): the table's rows cover every code and exclude each other -/

namespace Sys2Proof.Machine

/-- The condition that the table of R77 gives in the row of each code-level instruction. -/
def CodeRow (x : DecodeCtx) (c : Code) : CodeClass → Prop
  | .clr => c.toNat = x.clear
  | .endCode => c.toNat = x.endVal
  | .firstCode => c.toNat ≠ x.clear ∧ c.toNat ≠ x.endVal ∧ x.prevValid = false ∧ c.toNat < x.next.toNat
  | .dictCode => c.toNat ≠ x.clear ∧ c.toNat ≠ x.endVal ∧ x.prevValid = true ∧ c.toNat < x.next.toNat
  | .kwkwk => c.toNat ≠ x.clear ∧ c.toNat ≠ x.endVal ∧ x.prevValid = true ∧ c.toNat = x.next.toNat
  | .bad => c.toNat ≠ x.clear ∧ c.toNat ≠ x.endVal ∧
      (x.next.toNat < c.toNat ∨ c.toNat = x.next.toNat ∧ x.prevValid = false)

/-- The rows cover all cases: along each branch of the classifier the tests passed so far give the row's condition. -/
theorem codeRow_classify (x : DecodeCtx) (c : Code) : CodeRow x c (classify x c) := by
  fun_cases classify x c with
  | case1 hclr => exact hclr
  | case2 _ hend => exact hend
  | case3 hclr hend habove => exact ⟨hclr, hend, .inl habove⟩
  | case4 hclr hend _ hnext hprev => exact ⟨hclr, hend, hprev, hnext⟩
  | case5 hclr hend _ hnext hprev => exact ⟨hclr, hend, .inr ⟨hnext, eq_false_of_ne_true hprev⟩⟩
  | case6 hclr hend habove hnext hprev => exact ⟨hclr, hend, hprev, by omega⟩
  | case7 hclr hend habove hnext hprev => exact ⟨hclr, hend, eq_false_of_ne_true hprev, by omega⟩

/-- END is CLEAR + 1 (R76), so the two special codes differ. -/
theorem endVal_ne_clear (x : DecodeCtx) : x.endVal ≠ x.clear := Nat.succ_ne_self _

/-- The rows exclude each other: a code that meets one is classified to that one. -/
theorem CodeRow.classify_eq {x : DecodeCtx} {c : Code} {k : CodeClass} (h : CodeRow x c k) : classify x c = k := by
  unfold classify
  cases k with
  | clr => exact if_pos h
  | endCode =>
    have hend : c.toNat = x.endVal := h
    rw [if_neg (hend.trans_ne (endVal_ne_clear x)), if_pos hend]
  | firstCode =>
    obtain ⟨hclr, hend, hprev, hlt⟩ := h
    rw [if_neg hclr, if_neg hend, if_neg hlt.not_gt, if_neg hlt.ne, if_neg (ne_true_of_eq_false hprev)]
  | dictCode =>
    obtain ⟨hclr, hend, hprev, hlt⟩ := h
    rw [if_neg hclr, if_neg hend, if_neg hlt.not_gt, if_neg hlt.ne, if_pos hprev]
  | kwkwk =>
    obtain ⟨hclr, hend, hprev, hnext⟩ := h
    rw [if_neg hclr, if_neg hend, if_neg hnext.not_gt, if_pos hnext, if_pos hprev]
  | bad =>
    obtain ⟨hclr, hend, habove | ⟨hnext, hprev⟩⟩ := h
    · rw [if_neg hclr, if_neg hend, if_pos habove]
    · rw [if_neg hclr, if_neg hend, if_neg hnext.not_gt, if_pos hnext, if_neg (ne_true_of_eq_false hprev)]

theorem classify_eq_iff {x : DecodeCtx} {c : Code} {k : CodeClass} : classify x c = k ↔ CodeRow x c k :=
  ⟨fun h => h ▸ codeRow_classify x c, CodeRow.classify_eq⟩

/-- Settles O4: the six equivalences are the one of `classify_eq_iff`, read at each row of the table. -/
theorem codeClassesAreDisjointAndCover : Obligations.CodeClassesAreDisjointAndCover := fun _ _ =>
  ⟨classify_eq_iff, classify_eq_iff, classify_eq_iff, classify_eq_iff, classify_eq_iff, classify_eq_iff⟩

end Sys2Proof.Machine

/-! ### Commands (R83, R94, R96, R97, R98): the low byte of a write to CMD and what it starts -/

namespace Sys2Proof.Machine

/-- A write to CMD is the command in its low byte (R83). -/
theorem decodeEvent_cmd (v : Word) : decodeEvent (.regWrite 0x00 v) = decodeCommand (v.extractLsb' 0 8) :=
  congrArg decodeCommand (BitVec.setWidth_eq_extractLsb' (by decide))

theorem decodeCommand_reserved {c : Byte} (h1 : c ≠ 1) (h2 : c ≠ 2) (h3 : c ≠ 3) : decodeCommand c = .cmdReserved c := by
  unfold decodeCommand
  rw [if_neg h1, if_neg h2, if_neg h3]

/-- In BUSY and in ERROR a START is ignored (R94). -/
theorem execStart_ignored {s : State} (h : s.runState = .busy ∨ s.runState = .error) : execStart s = .next s := by
  refine if_neg ?_
  rcases h with h | h <;> rw [h] <;> decide

theorem execStart_canvasTooBig {s : State} (hready : s.runState = .idle ∨ s.runState = .done)
    (hbig : s.canvasTooBig = true) : execStart s = .next (raise .fileTooWide (beginFrame s)) := by
  unfold execStart
  rw [if_pos hready, if_pos hbig]

theorem execStart_frameOutside {s : State} (hready : s.runState = .idle ∨ s.runState = .done)
    (hbig : s.canvasTooBig = false) (hout : s.frameOutside = true) :
    execStart s = .next (raise .decodeError (beginFrame s)) := by
  unfold execStart
  rw [if_pos hready, if_neg (ne_true_of_eq_false hbig), if_pos hout]

theorem execStart_begins {s : State} (hready : s.runState = .idle ∨ s.runState = .done)
    (hbig : s.canvasTooBig = false) (hout : s.frameOutside = false) :
    execStart s = .next { beginFrame s with runState := .busy } := by
  unfold execStart
  rw [if_pos hready, if_neg (ne_true_of_eq_false hbig), if_neg (ne_true_of_eq_false hout)]

theorem canvasTooBig_eq_false {s : State} (hw : s.canvasW.toNat ≤ s.params.maxW) (hh : s.canvasH.toNat ≤ s.params.maxH) :
    s.canvasTooBig = false := decide_eq_false (by omega)

theorem frameOutside_eq_false {s : State} (hx : s.frameX.toNat + s.frameW.toNat ≤ s.canvasW.toNat)
    (hy : s.frameY.toNat + s.frameH.toNat ≤ s.canvasH.toNat) : s.frameOutside = false := decide_eq_false (by omega)

theorem execEos_busy {s : State} (h : s.runState = .busy) : execEos s = .next (raise .earlyEOF s) := if_pos h

theorem execEos_ignored {s : State} (h : s.runState ≠ .busy) : execEos s = .next s := if_neg h

/-- `raise` is an error entry: it touches only ERROR, STATE and the working registers (R163). -/
theorem raise_errorEntry (e : ErrorKind) (s : State) : ErrorEntry e s (raise e s) :=
  ⟨rfl, rfl, rfl, SameConfig.refl s, ⟨rfl, rfl, rfl, rfl⟩, rfl, rfl⟩

/-- A frame that START refuses has POS and PIXCNT cleared; the rest of what `beginFrame` clears is undefined after the
error (R94, R163). -/
theorem raise_beginFrame_errorEntry (e : ErrorKind) (s : State) :
    ErrorEntry e { s with pos := 0, pixcnt := 0 } (raise e (beginFrame s)) := raise_errorEntry e (beginFrame s)

/-- In ERROR every command but RESET is ignored (R94, R96, R98). -/
theorem exec_decodeCommand_of_error {s : State} (h : s.runState = .error) {c : Byte} (hc : c ≠ 3) :
    exec (decodeCommand c) s = .next s := by
  by_cases h1 : c = 1
  · subst h1; exact execStart_ignored (.inr h)
  by_cases h2 : c = 2
  · subst h2; exact execEos_ignored (by rw [h]; decide)
  · rw [decodeCommand_reserved h1 h2 hc]; rfl

/-- Settles O9: RESET is `clearRun`; any other command leaves a state in ERROR as it is. -/
theorem softResetKeepsConfigurationAndCanvas : Obligations.SoftResetKeepsConfigurationAndCanvas := by
  refine fun s => ⟨fun v hv => ?_, rfl, fun herr v t hv ht => ?_⟩
  · rw [decodeEvent_cmd, hv]; rfl
  · rw [decodeEvent_cmd, exec_decodeCommand_of_error herr hv] at ht
    cases ht
    exact herr

/-- Settles O10: one lemma on `execStart` for each outcome, the checks in the order R94 writes them. -/
theorem startChecksThenBeginsAFrame : Obligations.StartChecksThenBeginsAFrame := by
  refine fun s => ⟨fun v hv => ?_, execStart_ignored, fun hready =>
    ⟨fun hbig => ?_, fun hw hh hout => ?_, fun hw hh hx hy => ?_⟩⟩
  · rw [decodeEvent_cmd, hv]; rfl
  · exact ⟨_, execStart_canvasTooBig hready (decide_eq_true hbig), raise_beginFrame_errorEntry _ s⟩
  · exact ⟨_, execStart_frameOutside hready (canvasTooBig_eq_false hw hh) (decide_eq_true hout),
      raise_beginFrame_errorEntry _ s⟩
  · exact execStart_begins hready (canvasTooBig_eq_false hw hh) (frameOutside_eq_false hx hy)

/-- Settles O11: in BUSY EOS is `raise`, an error entry; elsewhere it is ignored. -/
theorem eosRaisesEarlyEof : Obligations.EosRaisesEarlyEof := by
  refine fun s => ⟨fun v hv => ?_, fun hbusy => ⟨_, execEos_busy hbusy, raise_errorEntry _ s⟩, execEos_ignored⟩
  rw [decodeEvent_cmd, hv]; rfl

/-- Settles O12: a low byte that fails all three tests of `decodeCommand` is CMD_RESERVED. -/
theorem reservedCommandsAreIgnored : Obligations.ReservedCommandsAreIgnored :=
  fun _ _ h1 h2 h3 => ⟨decodeCommand_reserved h1 h2 h3, rfl⟩

end Sys2Proof.Machine

/-! ### Writes to the other registers (R92, R93) -/

namespace Sys2Proof.Machine

/-- A number above 0x11 is not in the map (R32). -/
theorem ofNum_of_above {n : Nat} (h : 0x11 < n) : RegSel.ofNum n = .unmapped n := by
  unfold RegSel.ofNum
  split
  case h_19 => rfl
  all_goals omega

/-- The numbers of R93 select registers that ignore writes. -/
theorem ofNum_ignoresWrites {n : Nat} (h : n = 0x01 ∨ n = 0x02 ∨ 0x0C ≤ n) : (RegSel.ofNum n).ignoresWrites = true := by
  rcases h with rfl | rfl | hlo
  · rfl
  · rfl
  · by_cases hhi : 0x11 < n
    · rw [ofNum_of_above hhi]; exact decide_eq_true hhi
    · interval_cases n <;> rfl

/-- A write to a register that ignores writes is ROWRITE (R93). -/
theorem decodeRegWrite_of_ignoresWrites {r : RegSel} (h : r.ignoresWrites = true) (v : Word) :
    decodeRegWrite r v = .rowrite r v := by
  cases r with
  | unmapped n => rfl
  | reg r =>
    cases r with
    | status | error | pixcnt | pos | mincode | width | next | prev => rfl
    | cmd | dataIn | canvasW | canvasH | frameX | frameY | frameW | frameH | frameFlags | transpIdx => cases h

/-- Settles O13: the numbers of R93 select registers that ignore writes, and ROWRITE keeps the state. -/
theorem readOnlyWritesAreIgnored : Obligations.ReadOnlyWritesAreIgnored :=
  fun _ _ v hn => ⟨decodeRegWrite_of_ignoresWrites (ofNum_ignoresWrites hn) v, rfl⟩

theorem execCfgwrite_busy {s : State} (h : s.runState = .busy) (r : CfgReg) (v : Word) : execCfgwrite r v s = .next s :=
  if_pos h

theorem execCfgwrite_of_not_busy {s : State} (h : s.runState ≠ .busy) (r : CfgReg) (v : Word) :
    execCfgwrite r v s = .next (writeConfig r v s) := if_neg h

/-- A write to the number of a configuration register is CFGWRITE of that register (R32, R92). -/
theorem decodeEvent_cfgReg (r : CfgReg) (v : Word) : decodeEvent (.regWrite r.num v) = .cfgwrite r v := by
  cases r <;> rfl

/-- Outside BUSY the register written takes its bits, with the register named by its number (R92). -/
theorem exec_regWrite_cfgReg {s : State} (h : s.runState ≠ .busy) (r : CfgReg) (v : Word) :
    exec (decodeEvent (.regWrite r.num v)) s = .next (writeConfig r v s) := by
  rw [decodeEvent_cfgReg]
  exact execCfgwrite_of_not_busy h r v

/-- Settles O14: each clause is `exec_regWrite_cfgReg` at one register. -/
theorem configWriteTakesTheLowBits : Obligations.ConfigWriteTakesTheLowBits := by
  intro s v
  have h16 : v.extractLsb' 0 16 = v.setWidth 16 := (BitVec.setWidth_eq_extractLsb' (by decide)).symm
  have h8 : v.extractLsb' 0 8 = v.setWidth 8 := (BitVec.setWidth_eq_extractLsb' (by decide)).symm
  rw [h16, h8]
  refine ⟨fun hbusy r => execCfgwrite_busy hbusy r v, fun hfree => ?_⟩
  have hcfg : ∀ r : CfgReg, exec (decodeEvent (.regWrite r.num v)) s = .next (writeConfig r v s) :=
    fun r => exec_regWrite_cfgReg hfree r v
  exact ⟨hcfg .canvasW, hcfg .canvasH, hcfg .frameX, hcfg .frameY, hcfg .frameW, hcfg .frameH, hcfg .frameFlags,
    hcfg .transpIdx⟩

end Sys2Proof.Machine

/-! ### PUSH (R95): the byte is counted and run as the item that FSTATE makes it -/

namespace Sys2Proof.Machine

/-- A byte runs as the instruction it is classified to (R71, R110). -/
theorem runByte_outcome (b : Byte) (s : State) :
    (runByte b s).outcome = exec ((classifyByte s.fstate b).toInstr b) s := by
  unfold runByte
  cases classifyByte s.fstate b <;> rfl

/-- In BUSY a PUSH counts the byte and runs the item of the byte's class (R95). -/
theorem exec_push_of_class {s : State} {b : Byte} {k : ByteClass} (hbusy : s.runState = .busy)
    (hk : classifyByte s.fstate b = k) : exec (.push b) s = exec (k.toInstr b) (countByte s) := by
  subst hk
  exact (execPush_busy hbusy b).trans (runByte_outcome b (countByte s))

theorem exec_push_ignored {s : State} (h : s.runState ≠ .busy) (b : Byte) : exec (.push b) s = .next s := if_neg h

/-- Settles O6: FSTATE and the byte fix the class, hence the item run; `execPush_pos` covers every next state. -/
theorem pushCountsAndRunsTheItem : Obligations.PushCountsAndRunsTheItem := by
  intro s b
  refine ⟨fun v hv => ?_, fun hfree => exec_push_ignored hfree b, fun hbusy =>
    ⟨fun hmcs => exec_push_of_class hbusy (k := .mcs) ?_, fun hlen hzero => exec_push_of_class hbusy (k := .sbterm) ?_,
      fun hlen hne => exec_push_of_class hbusy (k := .sblen) ?_, fun hdata => exec_push_of_class hbusy (k := .sbdata) ?_,
      fun t ht => (execPush_pos ht).trans (if_pos hbusy)⟩⟩
  · rw [← hv]
    exact congrArg Instr.push (BitVec.setWidth_eq_extractLsb' (by decide))
  · rw [hmcs]; rfl
  · rw [hlen, hzero]; rfl
  · rw [hlen]; exact if_neg hne
  · rw [hdata]; rfl

end Sys2Proof.Machine

/-! ### The canvas port (R100, R191) -/

namespace Sys2Proof.Machine

theorem canvasPort_busy {s : State} (h : s.runState = .busy) (a : Nat) (k : State) :
    canvasPort a s k = .refused .canvasPortBusy := if_pos h

theorem canvasPort_outside {s : State} (h : s.runState ≠ .busy) {a : Nat} (ha : s.canvasCells ≤ a) (k : State) :
    canvasPort a s k = .refused .canvasPortAddress := by
  unfold canvasPort
  rw [if_neg h, if_neg ha.not_gt]

theorem canvasPort_accepted {s : State} (h : s.runState ≠ .busy) {a : Nat} (ha : a < s.canvasCells) (k : State) :
    canvasPort a s k = .next k := by
  unfold canvasPort
  rw [if_neg h, if_pos ha]

/-- Settles O19: the port's three answers, and `Memory.read_write` for the cell written and for the others. -/
theorem canvasPortReadsAndWritesOneCell : Obligations.CanvasPortReadsAndWritesOneCell := by
  intro s a v hwf
  refine ⟨fun hbusy => ⟨canvasPort_busy hbusy a _, canvasPort_busy hbusy a _⟩,
    fun hfree ha => ⟨canvasPort_outside hfree ha _, canvasPort_outside hfree ha _⟩,
    fun hfree ha => ⟨canvasPort_accepted hfree ha _, _, canvasPort_accepted hfree ha _, rfl, ?_, fun b hb => ?_⟩⟩
  · rw [Memory.read_write hwf, if_pos rfl]
    exact BitVec.setWidth_eq_extractLsb' (by decide)
  · rw [Memory.read_write hwf, if_neg hb]

end Sys2Proof.Machine

/-! ### Stream framing (R111 to R114): what each kind of byte does -/

namespace Sys2Proof.Machine

theorem execMcs_legal {b : Byte} (h2 : 2 ≤ b.toNat) (h8 : b.toNat ≤ 8) (s : State) :
    execMcs b s = .next { lzwInit (setMinCode b s) with fstate := .len } := by
  unfold execMcs doMcs
  rw [if_neg (by omega), Flow.outcome_go]

theorem execMcs_illegal {b : Byte} (h : b.toNat < 2 ∨ 8 < b.toNat) (s : State) :
    execMcs b s = .next (raise .decodeError s) := by
  unfold execMcs doMcs
  rw [if_pos h, Flow.outcome_raised]

/-- The registers `lzw_init` leaves after a legal MCS byte (R26, R111): its invariant, read with PREV_VALID = 0. -/
theorem lzwInit_setMinCode_toNat {b : Byte} (h2 : 2 ≤ b.toNat) (h8 : b.toNat ≤ 8) (s : State) :
    (lzwInit (setMinCode b s)).width.toNat = b.toNat + 1 ∧
      (lzwInit (setMinCode b s)).next.toNat = 2 ^ b.toNat + 2 := by
  have hm : (setMinCode b s).m.toNat = b.toNat := setMinCode_m_toNat h8 s
  have hl : LzwOk (lzwInit (setMinCode b s)) := lzwInit_lzwOk (hm.symm ▸ h2) (hm.symm ▸ h8)
  obtain ⟨hnext, hwidth⟩ := hl.fresh rfl
  rw [State.clear, lzwInit_m, hm] at hnext
  rw [lzwInit_m, hm] at hwidth
  exact ⟨hwidth, hnext⟩

theorem execSbterm_ended {s : State} (h : s.ended = true) : execSbterm s = .next { s with runState := .done } := by
  unfold execSbterm doSbterm
  rw [if_pos h, Flow.outcome_go]

theorem execSbterm_not_ended {s : State} (h : s.ended = false) : execSbterm s = .next (raise .decodeError s) := by
  unfold execSbterm doSbterm
  rw [if_neg (ne_true_of_eq_false h), Flow.outcome_raised]

theorem execSbdata_ended {s : State} (h : s.ended = true) (b : Byte) : execSbdata b s = .next (countData s) := by
  unfold execSbdata doSbdata
  rw [if_pos h, Flow.outcome_go]

theorem execSbdata_not_ended {s : State} (h : s.ended = false) (b : Byte) :
    execSbdata b s = (feed b (countData s)).outcome := by
  unfold execSbdata doSbdata
  rw [if_neg (ne_true_of_eq_false h)]

/-- Settles O20: in range the byte is kept whole in M and `lzw_init` runs; out of range it is `raise`, an error entry. -/
theorem mcsByteSetsTheCodeSize : Obligations.McsByteSetsTheCodeSize := by
  refine fun s b => ⟨fun h2 h8 => ?_, fun hbad => ⟨_, execMcs_illegal hbad s, raise_errorEntry _ s⟩⟩
  obtain ⟨hwidth, hnext⟩ := lzwInit_setMinCode_toNat h2 h8 s
  exact ⟨_, execMcs_legal h2 h8 s, rfl, setMinCode_m_toNat h8 s, hwidth, hnext⟩

/-- Settles O21: the two assignments of `do_sblen` are all that SBLEN does, for whatever byte. -/
theorem sblenSetsRem : Obligations.SblenSetsRem := fun _ _ _ => rfl

/-- Settles O22: the two branches of `do_sbterm`, the second an error entry. -/
theorem sbtermCompletesOrFails : Obligations.SbtermCompletesOrFails :=
  fun s => ⟨execSbterm_ended, fun h => ⟨_, execSbterm_not_ended h, raise_errorEntry _ s⟩⟩

/-- Settles O23: the state counted in is `countData s`; REM reaches 0 exactly from 1. -/
theorem dataByteIsCountedThenFed : Obligations.DataByteIsCountedThenFed := by
  intro s b hrem hdata
  have hfstate : (countData s).fstate = if s.rem = 1 then .len else .data := countData_fstate_data hdata
  refine ⟨countData s, rfl, countData_rem_toNat hrem, fun hone => ?_, fun hmore => ?_,
    fun h => execSbdata_ended h b, fun h => execSbdata_not_ended h b⟩
  · rw [hfstate, if_pos (BitVec.eq_of_toNat_eq hone)]
  · rw [hfstate, if_neg fun h => hmore (congrArg BitVec.toNat h)]

end Sys2Proof.Machine

/-! ### The LZW codes (R126 to R136): what each of the six delivers, inserts and remembers -/

namespace Sys2Proof.Machine

/-! #### Delivering indices (R136) -/

/-- The part of a sequence of indices that a frame still has room for (R170). -/
def State.fitting (s : State) (ix : List Byte) : List Byte := ix.take (s.framePixels - s.pixcnt.toNat)

theorem fitting_room {s : State} (hf : FrameOk s) (ix : List Byte) :
    s.pixcnt.toNat + (s.fitting ix).length ≤ s.framePixels := by
  have hcount := hf.count
  have hlen : (s.fitting ix).length ≤ s.framePixels - s.pixcnt.toNat := List.length_take_le _ ix
  omega

/-- Where not all indices fit, those that do fill the frame (R146, R170). -/
theorem accept_fitting_pixcnt_toNat {s : State} (hf : FrameOk s) {ix : List Byte}
    (h : s.framePixels < s.pixcnt.toNat + ix.length) : (s.accept (s.fitting ix)).pixcnt.toNat = s.framePixels := by
  have hcount := hf.count
  have hlen : (s.fitting ix).length = s.framePixels - s.pixcnt.toNat := List.length_take_of_le (by omega)
  rw [accept_pixcnt_toNat (fitting_room hf ix)]
  omega

/-- Settles O33: `emit_of_room` and `emit_of_excess`; the raise keeps the PIXCNT that filled the frame. -/
theorem emitDeliversWhatFits : Obligations.EmitDeliversWhatFits := fun _ ix hf =>
  ⟨emit_of_room hf ix, fun h =>
    ⟨_, emit_of_excess hf ix h, raise_errorEntry _ _, accept_fitting_pixcnt_toNat hf h⟩⟩

theorem Ran.refl (s : State) : Ran [] s s :=
  .of_same (SameConfig.refl s) ⟨rfl, rfl⟩ ⟨rfl, rfl⟩ rfl rfl rfl rfl rfl rfl ⟨rfl, rfl, rfl, rfl⟩

/-- An error raised after some codes have run is an error entry from the indices they delivered (R163, R170). -/
theorem Ran.raise_errorEntry {ix : List Byte} {s t : State} (h : Ran ix s t) (e : ErrorKind) :
    ErrorEntry e (s.accept ix) (raise e t) :=
  ⟨rfl, rfl, h.pos, h.config, ⟨h.canvas, h.pixcnt, h.idxTrace, h.cwTrace⟩, h.host⟩

/-! The emitting codes first change registers of the LZW stage only (`u`), then emit, then write PREV (`k`). -/
section
variable {s u : State} {ix : List Byte} (hf : FrameOk s) (hu : Ran [] s u) (k : State → State)
include hf hu

/-- An emitting code with room in the frame accepts its indices (R130 to R132). -/
theorem emit_bind_of_room (h : s.pixcnt.toNat + ix.length ≤ s.framePixels) :
    ((emit ix u).bind fun t => .go (k t)).outcome = .next (k (u.accept ix)) := by
  have hpix : u.pixcnt.toNat = s.pixcnt.toNat := hu.pixcnt_toNat
  rw [← hu.config.framePixels, ← hpix] at h
  rw [emit_of_room (hu.frameOk hf) ix h, Flow.bind_go, Flow.outcome_go]

/-- An emitting code without room in the frame raises DecodeError after the indices that fit (R170). -/
theorem emit_bind_of_excess (h : s.framePixels < s.pixcnt.toNat + ix.length) :
    ∃ t, ((emit ix u).bind fun t => .go (k t)).outcome = .next t ∧
      ErrorEntry .decodeError (s.accept (s.fitting ix)) t := by
  have hfu : FrameOk u := hu.frameOk hf
  have hpix : u.pixcnt.toNat = s.pixcnt.toNat := hu.pixcnt_toNat
  have hfit : u.fitting ix = s.fitting ix := by rw [State.fitting, hu.config.framePixels, hpix, State.fitting]
  have hran : Ran (u.fitting ix) s (u.accept (u.fitting ix)) := hu.trans (.accept fun _ => fitting_room hfu ix)
  rw [← hu.config.framePixels, ← hpix] at h
  rw [emit_of_excess hfu ix h, Flow.bind_raised, Flow.outcome_raised, ← hfit]
  exact ⟨_, rfl, hran.raise_errorEntry _⟩

end

/-- Settles O35: the code is its own one index; a full frame has room for none. -/
theorem firstEmitsOneIndex : Obligations.FirstEmitsOneIndex := by
  intro s c hf _ _ _ _
  rw [BitVec.ofNat_toNat]
  refine ⟨fun hroom => emit_bind_of_room hf (.refl s) (setFirstPrev c) hroom, fun hfull => ?_⟩
  obtain ⟨t, ht, herr⟩ := emit_bind_of_excess (ix := [c.setWidth 8]) hf (.refl s) (setFirstPrev c) (by simp; omega)
  have hnone : s.fitting [c.setWidth 8] = [] := by rw [State.fitting, hfull, Nat.sub_self, List.take_zero]
  rw [hnone, State.accept_nil] at herr
  exact ⟨t, ht, herr⟩

/-! #### Inserting an entry (R133) -/

theorem insert_eq_update (k : Byte) (s : State) :
    insert k s =
      { s with dict := (insert k s).dict, next := (insert k s).next, width := (insert k s).width } := by
  unfold insert grow
  split
  · split <;> rfl
  · rfl

/-- Settles O36: NEXT, DICT and WIDTH after `insert` by their own lemmas; WIDTH grows from below 12 and so does not wrap. -/
theorem insertDefinesOneEntry : Obligations.InsertDefinesOneEntry := by
  refine fun s k => ⟨fun hroom => ⟨_, rfl, insert_eq_update k s, insert_next hroom k, ?_, fun c hc => ?_,
    fun hnext hwidth => ?_, fun hkeep => ?_⟩, fun hfull => insert_full hfull k⟩
  · rw [insert_dictAt hroom, if_pos rfl]
  · rw [insert_dictAt hroom, if_neg hc]
  · rw [insert_width hroom, if_pos ⟨hnext, hwidth⟩, BitVec.toNat_add]
    exact Nat.mod_eq_of_lt (by simp; omega)
  · rw [insert_width hroom, if_neg hkeep]

/-! #### The expansion of a code (R126, R127) -/

/-- A code that is neither singleton nor special is at or above CLEAR + 2 (R36). -/
theorem State.plain.above {s : State} {c : Nat} (hp : s.plain c) (h : s.clear ≤ c) : s.clear + 2 ≤ c := by
  obtain ⟨hclr, hend⟩ := hp
  unfold State.endVal at hend
  omega

/-- The walk's bound does not matter as long as it is enough. -/
theorem expand_eq_expOf {s : State} (hl : LzwOk s) {n : Nat} {c : Code} (hn : EnoughLinks s n c.toNat)
    (hle : n ≤ Config.maxChainDepth) (hc : c.toNat < s.next.toNat) (hp : s.plain c.toNat) :
    expand s n c.toNat = expOf s c := by
  obtain ⟨k, ix, hx, -⟩ := expand_spec hl hn hc hp
  have hmore := expand_more hx (Config.maxChainDepth - n)
  rw [Nat.add_sub_cancel' hle] at hmore
  rw [hx, expOf, hmore]

/-- `exp` reads M and DICT only. -/
theorem expOf_congr {s u : State} (hm : u.m = s.m) (hd : u.dict = s.dict) (he : u.dictEra = s.dictEra) (c : Code) :
    expOf u c = expOf s c := by
  unfold expOf
  exact (expand_congr hm hd he _ _).1

theorem expOf_setPrev (p : Code) (s : State) (c : Code) : expOf (setPrev p s) c = expOf s c :=
  expOf_congr (setPrev_m p s) (setPrev_dict p s) (setPrev_dictEra p s) c

theorem expOf_accept (ix : List Byte) (s : State) (c : Code) : expOf (s.accept ix) c = expOf s c :=
  expOf_congr (State.accept_m ix s) (State.accept_dict ix s) (State.accept_dictEra ix s) c

theorem expOf_singleton {s : State} {c : Code} (h : c.toNat < s.clear) : expOf s c = some [BitVec.ofNat 8 c.toNat] :=
  expand_singleton h _

/-- A code at or above CLEAR stands for what its entry's first field stands for, one link shorter, then the suffix (R126). -/
theorem expOf_of_clear_le {s : State} {c : Code} (h : s.clear ≤ c.toNat) :
    expOf s c = (expand s 4095 (s.dictAt c.toNat).prefixCode.toNat).map (· ++ [(s.dictAt c.toNat).suffix]) :=
  if_neg h.not_gt

/-- A code below 4096 is at most 4095 links away from a singleton (R37). -/
theorem enoughLinks_4095 {s : State} {c : Nat} (h : c < 4096) : EnoughLinks s 4095 c := .inr (by omega)

/-- Each link of a walk goes to a smaller code, so an expansion is no longer than the code is above CLEAR (R37). -/
theorem expOf_length {s : State} (hl : LzwOk s) {c : Code} (hc : c.toNat < s.next.toNat) (hp : s.plain c.toNat)
    {ix : List Byte} (hx : expOf s c = some ix) : ix.length ≤ 4095 - s.clear := by
  obtain ⟨-, hclear, -⟩ := hl.clear_le
  have hc12 := c.isLt
  by_cases h : c.toNat < s.clear
  · rw [expOf_singleton h, Option.some.injEq] at hx
    subst hx
    rw [List.length_singleton]
    omega
  · have habove := hp.above (by omega)
    have hn : EnoughLinks s (c.toNat - s.clear - 1) c.toNat := .inr (by omega)
    obtain ⟨k, jx, hj, -, -, hlen⟩ := expand_spec hl hn hc hp
    rw [expand_eq_expOf hl hn (by unfold Config.maxChainDepth; omega) hc hp, hx, Option.some.injEq] at hj
    subst hj
    rw [List.length_cons]
    omega

/-- Settles O37: a defined code's walk ends (`expOf_spec`); at or above CLEAR its first link is to a smaller code, for
which one link less is enough. -/
theorem expansionFollowsThePrefixChain : Obligations.ExpansionFollowsThePrefixChain := by
  intro s c hl hc hp
  obtain ⟨k, ix, hx, -, hall, -⟩ := expOf_spec hl hc hp
  refine ⟨k :: ix, hx, List.cons_ne_nil k ix, hall, expOf_length hl hc hp hx, fun hlow => ?_, fun hhigh => ?_⟩
  · rwa [expOf_singleton hlow, Option.some.injEq, eq_comm] at hx
  · obtain ⟨hlt, hplain, -⟩ := hl.dictOk c.toNat (hp.above hhigh) hc
    rw [expOf_of_clear_le hhigh,
      expand_eq_expOf hl (enoughLinks_4095 (BitVec.isLt _)) (by decide) (hlt.trans hc) hplain] at hx
    obtain ⟨jx, hj, happ⟩ := Option.map_eq_some_iff.mp hx
    exact ⟨jx, hj, happ.symm⟩

/-- Settles O38: `exp` and `first` walk the same links. -/
theorem firstIsTheHeadOfTheExpansion : Obligations.FirstIsTheHeadOfTheExpansion := by
  intro s c hl hc hp
  obtain ⟨k, ix, hx, hfirst, -⟩ := expOf_spec hl hc hp
  exact ⟨k, ix, hx, hfirst⟩

/-! #### The codes that insert (R131, R132) -/

theorem execDict_eq {s : State} {c : Code} {ix : List Byte} {k : Byte} (hx : expOf s c = some ix)
    (hfirst : firstOf s c = some k) :
    execDict c s = ((emit ix (insert k s)).bind fun t => .go (setPrev c t)).outcome := by
  simp only [execDict, doDict, hx, hfirst]

theorem execKwkwk_eq {s : State} {ix : List Byte} {k : Byte} (hx : expOf s s.prev = some ix)
    (hfirst : firstOf s s.prev = some k) (c : Code) :
    execKwkwk c s = ((emit (ix ++ [k]) (insert k s)).bind fun t => .go (setPrev c t)).outcome := by
  simp only [execKwkwk, doKwkwk, hx, hfirst]

/-- Settles O39: DICT emits `exp(c)` after the insertion of its head. -/
theorem dictEmitsAndInserts : Obligations.DictEmitsAndInserts := by
  intro s c hl hf _ hc hp
  obtain ⟨k, ix, hx, hfirst, -⟩ := expOf_spec hl hc hp
  have hexec := execDict_eq hx hfirst
  refine ⟨k, ix, hx, fun hroom => hexec.trans (emit_bind_of_room hf (insert_ran k s) (setPrev c) hroom),
    fun hexcess => ?_⟩
  obtain ⟨t, ht, herr⟩ := emit_bind_of_excess (ix := k :: ix) hf (insert_ran k s) (setPrev c) hexcess
  exact ⟨t, hexec.trans ht, herr⟩

/-- The entry inserted at NEXT stands for PREV's expansion and the new suffix (R132, R133). -/
theorem expOf_insert_next {s : State} (hl : LzwOk s) (hv : s.prevValid = true) {c : Code} (hc : c.toNat = s.next.toNat)
    (k : Byte) : expOf (insert k s) c = (expOf s s.prev).map (· ++ [k]) := by
  obtain ⟨hprev, hplain⟩ := hl.prevOk hv
  have hnext : s.next.toNat ≤ 4095 := by have := c.isLt; omega
  have hhigh : (insert k s).clear ≤ c.toNat := by have := hl.nextLow; rw [insert_clear]; omega
  rw [expOf_of_clear_le hhigh, insert_dictAt hnext, if_pos hc, expand_insert hl hprev hplain,
    expand_eq_expOf hl (enoughLinks_4095 s.prev.isLt) (by decide) hprev hplain]

/-- Settles O40: KWKWK emits `exp(PREV)` and its head again, which is what the entry inserted at NEXT stands for; the
registers written after the insertion are not those `exp` reads. -/
theorem kwkwkEmitsAndInserts : Obligations.KwkwkEmitsAndInserts := by
  intro s c hl hf hv hc
  obtain ⟨hprev, hplain⟩ := hl.prevOk hv
  obtain ⟨k, ix, hx, hfirst, -⟩ := expOf_spec hl hprev hplain
  have hexec := execKwkwk_eq hx hfirst c
  have hlen : (k :: ix ++ [k]).length = ix.length + 2 := by simp
  refine ⟨k, ix, hx, fun hroom => ⟨setPrev c ((insert k s).accept (k :: ix ++ [k])), ?_, rfl, ?_⟩, fun hexcess => ?_⟩
  · exact hexec.trans (emit_bind_of_room hf (insert_ran k s) (setPrev c) (hlen ▸ hroom))
  · calc expOf (setPrev c ((insert k s).accept (k :: ix ++ [k]))) c
      _ = expOf (insert k s) c := by rw [expOf_setPrev, expOf_accept]
      _ = (expOf s s.prev).map (· ++ [k]) := expOf_insert_next hl hv hc k
      _ = some (k :: ix ++ [k]) := by rw [hx]; rfl
  · obtain ⟨t, ht, herr⟩ := emit_bind_of_excess hf (insert_ran k s) (setPrev c) (hlen ▸ hexcess)
    exact ⟨t, hexec.trans ht, herr⟩

/-! #### The codes that deliver nothing (R128, R129, R135) -/

/-- Settles O30: the three assignments of `do_clr` are those of `lzw_init`. -/
theorem clearRestartsTheDictionary : Obligations.ClearRestartsTheDictionary := fun _ => ⟨rfl, rfl⟩

theorem execEnd_full {s : State} (h : s.frameFull = true) : execEnd s = .next { s with ended := true } := by
  unfold execEnd doEnd
  rw [if_pos h, Flow.outcome_go]

theorem execEnd_not_full {s : State} (h : s.frameFull = false) : execEnd s = .next (raise .decodeError s) := by
  unfold execEnd doEnd
  rw [if_neg (ne_true_of_eq_false h), Flow.outcome_raised]

/-- Once ENDED is set no bits are taken (R116, R129). -/
theorem fetchLoop_ended {s : State} (h : s.ended = true) (n : Nat) : fetchLoop (n + 1) s = .go s :=
  if_neg fun hmore => Bool.false_ne_true (hmore.1.symm.trans h)

/-- Settles O31: the two branches of `do_end`, the second an error entry, and `fetchLoop_ended`. -/
theorem endNeedsAFullFrame : Obligations.EndNeedsAFullFrame := fun s =>
  ⟨fun hfull => execEnd_full (decide_eq_true hfull),
    fun hpart => ⟨_, execEnd_not_full (decide_eq_false hpart), raise_errorEntry _ s⟩,
    fun n => fetchLoop_ended rfl n⟩

/-- Settles O41: BAD is `raise`, an error entry. -/
theorem badCodeRaisesDecodeError : Obligations.BadCodeRaisesDecodeError := fun s _ => ⟨_, rfl, raise_errorEntry _ s⟩

end Sys2Proof.Machine

/-! ### The BLIT stage (43_blitter.md) -/

namespace Sys2Proof.Machine

/-! #### One index at its place (R146 to R148) -/

theorem frameFull_iff {s : State} : s.frameFull = true ↔ s.pixcnt.toNat = s.framePixels := decide_eq_true_iff

/-- The transparency mask as a condition (R148). -/
theorem transparent_iff {s : State} {v : Byte} : s.transparent v = true ↔ s.transpEn = true ∧ v = s.transpIdx := by
  rw [State.transparent, Bool.and_eq_true, decide_eq_true_iff]

theorem blitWrites_singleton (s : State) (n : Nat) (v : Byte) :
    s.blitWrites n [v] = if s.transparent v then [] else [(s.indexAddr n, v)] := rfl

/-- A transparent index is traced and counted, and nothing is written (R148). -/
theorem accept_transparent {s : State} {v : Byte} (h : s.transparent v = true) :
    s.accept [v] = { s with idxTrace := s.idxTrace ++ [v], pixcnt := s.pixcnt + 1 } := by
  have hw : s.blitWrites s.pixcnt.toNat [v] = [] := by rw [blitWrites_singleton, if_pos h]
  simp only [State.accept, hw, List.append_nil]
  rfl

/-- Any other index is also written at its cell (R146). -/
theorem accept_written {s : State} {v : Byte} (h : ¬ s.transparent v = true) :
    s.accept [v] = { s with
      idxTrace := s.idxTrace ++ [v], pixcnt := s.pixcnt + 1
      canvas := s.canvas.write (s.indexAddr s.pixcnt.toNat) v
      cwTrace := s.cwTrace ++ [(s.indexAddr s.pixcnt.toNat, v)] } := by
  have hw : s.blitWrites s.pixcnt.toNat [v] = [(s.indexAddr s.pixcnt.toNat, v)] := by
    rw [blitWrites_singleton, if_neg h]
  simp only [State.accept, hw]
  rfl

/-- Settles O32: a full frame raises; one with room accepts the index, and whether that writes is the transparency mask. -/
theorem emitIndexPlacesOneIndex : Obligations.EmitIndexPlacesOneIndex := by
  intro s v hf
  refine ⟨fun hfull => ?_, fun hroom hen hv => ?_, fun hroom hwrite => ?_⟩
  · exact ⟨_, emitIndex_full (frameFull_iff.mpr hfull) v, raise_errorEntry _ s⟩
  · exact (emitIndex_of_room hf hroom v).trans (congrArg Flow.go (accept_transparent (transparent_iff.mpr ⟨hen, hv⟩)))
  · exact (emitIndex_of_room hf hroom v).trans (congrArg Flow.go (accept_written (mt transparent_iff.mp hwrite)))

/-! #### The interlaced rows (R150) -/

/-- The pass of a decoded row's destination, by the number of rows of the passes before it (R150). -/
theorem rowPass_ilrow (k h : Nat) :
    rowPass (ilrow k h) =
      if k < (h + 7) / 8 then 1
      else if k < (h + 7) / 8 + (h + 3) / 8 then 2
      else if k < (h + 7) / 8 + (h + 3) / 8 + (h + 1) / 4 then 3
      else 4 := by
  have pass1 (a : Nat) : rowPass (8 * a) = 1 := if_pos (by omega)
  have pass2 (a : Nat) : rowPass (8 * a + 4) = 2 := by
    rw [rowPass, if_neg (by omega), if_pos (by omega)]
  have pass3 (a : Nat) : rowPass (4 * a + 2) = 3 := by
    rw [rowPass, if_neg (by omega), if_neg (by omega), if_pos (by omega)]
  have pass4 (a : Nat) : rowPass (2 * a + 1) = 4 := by
    rw [rowPass, if_neg (by omega), if_neg (by omega), if_neg (by omega)]
  simp only [ilrow, apply_ite rowPass, pass1, pass2, pass3, pass4]

/-- A later decoded row goes to no earlier pass (R150). -/
theorem rowPass_ilrow_mono {j k : Nat} (hjk : j < k) (h : Nat) : rowPass (ilrow j h) ≤ rowPass (ilrow k h) := by
  rw [rowPass_ilrow, rowPass_ilrow]
  split_ifs <;> omega

/-- Within a pass, decoded rows go from top to bottom (R150). -/
theorem ilrow_lt_of_rowPass_eq {j k h : Nat} (hjk : j < k) (hpass : rowPass (ilrow j h) = rowPass (ilrow k h)) :
    ilrow j h < ilrow k h := by
  rw [rowPass_ilrow, rowPass_ilrow] at hpass
  simp only [ilrow]
  split_ifs at hpass ⊢ <;> omega

/-- Every row is some decoded row's destination: `ilrow` is an injection of a finite set into itself (R150). -/
theorem ilrow_surjective {row h : Nat} (hrow : row < h) : ∃ k, k < h ∧ ilrow k h = row := by
  have hinj : Function.Injective fun k : Fin h => (⟨ilrow k h, ilrow_lt k.isLt⟩ : Fin h) := fun j k e =>
    Fin.ext (ilrow_injective j.isLt k.isLt (Fin.mk.inj e))
  obtain ⟨k, hk⟩ := Finite.surjective_of_injective hinj ⟨row, hrow⟩
  exact ⟨k, k.isLt, Fin.mk.inj hk⟩

/-- Settles O46: `ilrow` stays among the rows (`ilrow_lt`), keeps the pass order, and is onto because no two decoded rows
share a destination (`ilrow_injective`). -/
theorem interlacePermutesTheRows : Obligations.InterlacePermutesTheRows := fun _ =>
  ⟨fun _ => ilrow_lt,
    fun _ _ hjk _ => (rowPass_ilrow_mono hjk _).lt_or_eq.imp_right fun hpass => ⟨hpass, ilrow_lt_of_rowPass_eq hjk hpass⟩,
    fun _ => ilrow_surjective⟩

end Sys2Proof.Machine

/-! ### ERROR holds the first error (R171): no event but RESET and HardReset moves STATE, ERROR or the frame's progress -/

namespace Sys2Proof.Machine

/-- The same run state and error, the same two counters and the same traces. -/
structure SameProgress (s t : State) : Prop where
  run : SameRun s t
  pixcnt : t.pixcnt = s.pixcnt
  pos : t.pos = s.pos
  idxTrace : t.idxTrace = s.idxTrace
  cwTrace : t.cwTrace = s.cwTrace

theorem SameProgress.refl (s : State) : SameProgress s s := ⟨⟨rfl, rfl⟩, rfl, rfl, rfl, rfl⟩

theorem writeConfig_sameProgress (r : CfgReg) (v : Word) (s : State) : SameProgress s (writeConfig r v s) := by
  cases r <;> exact ⟨⟨rfl, rfl⟩, rfl, rfl, rfl, rfl⟩

@[simp] theorem writeConfig_canvas (r : CfgReg) (v : Word) (s : State) : (writeConfig r v s).canvas = s.canvas := by
  cases r <;> rfl

/-- A register read changes only what the host was given and the count of free values (R61, R91). -/
theorem execRegread_eq_next {r : RegSel} {s t : State} (h : execRegread r s = .next t) :
    t = { s with returned := t.returned, draws := t.draws } := by
  unfold execRegread at h
  split at h <;> cases h <;> rfl

/-- The events that could raise an error (R171). -/
def CouldRaise (i : Instr) : Prop := i = .start ∨ i = .eos ∨ ∃ b, i = .push b

/-- In ERROR an event that could raise an error is ignored (R94 to R96, R171). -/
theorem exec_couldRaise_of_error {s : State} (herr : s.runState = .error) {i : Instr} (hi : CouldRaise i) :
    exec i s = .next s := by
  have hfree : s.runState ≠ .busy := by rw [herr]; decide
  rcases hi with rfl | rfl | ⟨b, rfl⟩
  · exact execStart_ignored (.inr herr)
  · exact execEos_ignored hfree
  · exact exec_push_ignored hfree b

/-- In ERROR a host event that is no reset keeps the progress and, unless it writes the canvas, the canvas. -/
theorem exec_sameProgress_of_error {s t : State} {i : Instr} (herr : s.runState = .error) (hi : HostInstr i)
    (h : exec i s = .next t) (hhard : i ≠ .hardreset) (hreset : i ≠ .reset) :
    SameProgress s t ∧ ((∀ a v, i ≠ .canvaswrite a v) → t.canvas = s.canvas) := by
  by_cases hraise : CouldRaise i
  · cases (exec_couldRaise_of_error herr hraise).symm.trans h
    exact ⟨.refl s, fun _ => rfl⟩
  cases hi with
  | hardreset => exact absurd rfl hhard
  | reset => exact absurd rfl hreset
  | start => exact absurd (.inl rfl) hraise
  | eos => exact absurd (.inr (.inl rfl)) hraise
  | push b => exact absurd (.inr (.inr ⟨b, rfl⟩)) hraise
  | cmdReserved v => cases h; exact ⟨.refl s, fun _ => rfl⟩
  | rowrite r v => cases h; exact ⟨.refl s, fun _ => rfl⟩
  | cfgwrite r v =>
    cases (execCfgwrite_of_not_busy (by rw [herr]; decide) r v).symm.trans h
    exact ⟨writeConfig_sameProgress r v s, fun _ => writeConfig_canvas r v s⟩
  | regread r =>
    rw [execRegread_eq_next h]
    exact ⟨⟨⟨rfl, rfl⟩, rfl, rfl, rfl, rfl⟩, fun _ => rfl⟩
  | canvasread a =>
    obtain ⟨-, -, rfl⟩ := canvasPort_eq_next h
    exact ⟨⟨⟨rfl, rfl⟩, rfl, rfl, rfl, rfl⟩, fun _ => rfl⟩
  | canvaswrite a v =>
    obtain ⟨-, -, rfl⟩ := canvasPort_eq_next h
    exact ⟨⟨⟨rfl, rfl⟩, rfl, rfl, rfl, rfl⟩, fun hother => absurd rfl (hother a v)⟩

/-- Settles O53: both resets clear STATE and ERROR; an event that could raise an error is ignored; every other event keeps
the progress. -/
theorem errorStaysUntilReset : Obligations.ErrorStaysUntilReset := by
  intro s t e rest herr hin hstep
  rw [step_of_inputs hin] at hstep
  have herr' : ({ s with inputs := rest } : State).runState = .error := herr
  refine ⟨fun hd => ?_, fun hd => ?_, fun hhard hreset => ?_⟩
  · rcases hd with hd | hd <;> rw [hd] at hstep <;> cases hstep <;> exact ⟨rfl, rfl⟩
  · cases (exec_couldRaise_of_error herr' hd).symm.trans hstep
    rfl
  · obtain ⟨⟨⟨hrun, herror⟩, hpixcnt, hpos, hidx, hcw⟩, hcanvas⟩ :=
      exec_sameProgress_of_error herr' (decodeEvent_hostInstr e) hstep hhard hreset
    exact ⟨hrun.trans herr, herror, hpixcnt, hpos, hidx, hcw, hcanvas⟩

end Sys2Proof.Machine

/-! ### The configuration (R190): which host events can change it -/

namespace Sys2Proof.Machine

theorem SameConfig.params {s t : State} (h : SameConfig s t) : t.params = s.params := by
  obtain ⟨-, -, -, -, -, -, -, -, -, hparams⟩ := h
  exact hparams

/-- A byte's own item keeps the configuration, whether it returns or raises (R95, R163). -/
theorem runByte_sameConfig {b : Byte} {s t : State} (h : (runByte b s).outcome = .next t) : SameConfig s t := by
  rcases runByte_ends b s with ⟨ix, u, hu, hdel, -⟩ | ⟨ix, u, hu, hdel⟩ | ⟨f, hf⟩
  · rw [hu] at h; cases h; exact hdel.config
  · rw [hu] at h; cases h; exact hdel.config
  · rw [hf] at h; cases h

theorem execPush_sameConfig {b : Byte} {s t : State} (h : execPush b s = .next t) : SameConfig s t := by
  unfold execPush at h
  split at h
  · exact (countByte_sameConfig s).trans (runByte_sameConfig h)
  · cases h; exact .refl s

/-- START keeps the configuration in each of its outcomes (R94). -/
theorem execStart_sameConfig {s t : State} (h : execStart s = .next t) : SameConfig s t := by
  unfold execStart at h
  split at h
  · split at h
    · cases h; exact .refl s
    · split at h <;> cases h <;> exact .refl s
  · cases h; exact .refl s

theorem execEos_sameConfig {s t : State} (h : execEos s = .next t) : SameConfig s t := by
  unfold execEos at h
  split at h <;> cases h <;> exact .refl s

/-- Every host event but HardReset keeps the configuration in BUSY, and every one but HardReset and a configuration write
keeps it anywhere (R190). -/
theorem exec_sameConfig {i : Instr} {s t : State} (hi : HostInstr i) (h : exec i s = .next t) (hhard : i ≠ .hardreset)
    (hkeep : s.runState = .busy ∨ ∀ r v, i ≠ .cfgwrite r v) : SameConfig s t := by
  cases hi with
  | hardreset => exact absurd rfl hhard
  | cfgwrite r v =>
    rcases hkeep with hbusy | hother
    · cases (execCfgwrite_busy hbusy r v).symm.trans h
      exact .refl s
    · exact absurd rfl (hother r v)
  | push b => exact execPush_sameConfig h
  | start => exact execStart_sameConfig h
  | eos => exact execEos_sameConfig h
  | reset => cases h; exact .refl s
  | cmdReserved v => cases h; exact .refl s
  | rowrite r v => cases h; exact .refl s
  | regread r => rw [execRegread_eq_next h]; exact .refl s
  | canvasread a => obtain ⟨-, -, rfl⟩ := canvasPort_eq_next h; exact .refl s
  | canvaswrite a v => obtain ⟨-, -, rfl⟩ := canvasPort_eq_next h; exact .refl s

@[simp] theorem writeConfig_params (r : CfgReg) (v : Word) (s : State) : (writeConfig r v s).params = s.params := by
  cases r <;> rfl

theorem execCfgwrite_params {r : CfgReg} {v : Word} {s t : State} (h : execCfgwrite r v s = .next t) :
    t.params = s.params := by
  unfold execCfgwrite at h
  split at h
  · cases h; rfl
  · cases h; exact writeConfig_params r v s

/-- MAX_W and MAX_H are fixed (R8): the two events that change the configuration leave them too. -/
theorem exec_params {i : Instr} {s t : State} (hi : HostInstr i) (h : exec i s = .next t) : t.params = s.params := by
  by_cases hhard : i = .hardreset
  · subst hhard; cases h; rfl
  by_cases hcfg : ∃ r v, i = .cfgwrite r v
  · obtain ⟨r, v, rfl⟩ := hcfg
    exact execCfgwrite_params h
  · exact (exec_sameConfig hi h hhard (.inr fun r v hrv => hcfg ⟨r, v, hrv⟩)).params

/-- The numbers 0x04 to 0x0B are those of the configuration registers (R32). -/
theorem exists_cfgReg_num {n : Nat} (hlo : 0x04 ≤ n) (hhi : n ≤ 0x0B) : ∃ r : CfgReg, r.num = n := by
  interval_cases n
  · exact ⟨.canvasW, rfl⟩
  · exact ⟨.canvasH, rfl⟩
  · exact ⟨.frameX, rfl⟩
  · exact ⟨.frameY, rfl⟩
  · exact ⟨.frameW, rfl⟩
  · exact ⟨.frameH, rfl⟩
  · exact ⟨.frameFlags, rfl⟩
  · exact ⟨.transpIdx, rfl⟩

/-- In BUSY a write to the number of a configuration register is ignored (R190). -/
theorem exec_regWrite_cfgReg_busy {s : State} (h : s.runState = .busy) (r : CfgReg) (v : Word) :
    exec (decodeEvent (.regWrite r.num v)) s = .next s := by
  rw [decodeEvent_cfgReg]
  exact execCfgwrite_busy h r v

/-- Settles O54: the event is decoded to a row of R90; `exec_params` and `exec_sameConfig` say what each row keeps, and the
numbers 0x04 to 0x0B are configuration writes, ignored in BUSY. -/
theorem configurationIsFrozenWhileBusy : Obligations.ConfigurationIsFrozenWhileBusy := by
  intro s t e rest hin hstep
  rw [step_of_inputs hin] at hstep
  have hhost := decodeEvent_hostInstr e
  refine ⟨(exec_params hhost hstep :), fun n v hlo hhi he hbusy => ?_,
    fun hhard hkeep => (exec_sameConfig hhost hstep hhard hkeep :)⟩
  obtain ⟨r, rfl⟩ := exists_cfgReg_num hlo hhi
  subst he
  have hbusy' : ({ s with inputs := rest } : State).runState = .busy := hbusy
  cases (exec_regWrite_cfgReg_busy hbusy' r v).symm.trans hstep
  rfl

end Sys2Proof.Machine

/-! ### Every host event completes (R195) -/

namespace Sys2Proof.Machine

/-- The two events of the canvas port (R100). -/
def UsesCanvasPort (i : Instr) : Prop := (∃ a, i = .canvasread a) ∨ ∃ a v, i = .canvaswrite a v

/-- Under the invariant every host event but those of the canvas port completes: only PUSH could stop, and a byte does
not (R195). -/
theorem exec_completes {i : Instr} {s : State} (hi : HostInstr i) (hinv : MachineInv s) (hport : ¬ UsesCanvasPort i) :
    ∃ t, exec i s = .next t := by
  cases hi with
  | start =>
    simp only [exec, execStart]
    split_ifs <;> exact ⟨_, rfl⟩
  | eos =>
    simp only [exec, execEos]
    split <;> exact ⟨_, rfl⟩
  | cfgwrite r v =>
    simp only [exec, execCfgwrite]
    split <;> exact ⟨_, rfl⟩
  | regread r =>
    simp only [exec, execRegread]
    split <;> exact ⟨_, rfl⟩
  | reset => exact ⟨_, rfl⟩
  | cmdReserved v => exact ⟨_, rfl⟩
  | rowrite r v => exact ⟨_, rfl⟩
  | hardreset => exact ⟨_, rfl⟩
  | canvasread a => exact absurd (.inl ⟨a, rfl⟩) hport
  | canvaswrite a v => exact absurd (.inr ⟨a, v, rfl⟩) hport
  | push b =>
    by_cases hbusy : s.runState = .busy
    · have hpush : exec (.push b) s = (runByte b (countByte s)).outcome := execPush_busy hbusy b
      cases hx : runByte b (countByte s) with
      | go t => exact ⟨t, by rw [hpush, hx, Flow.outcome_go]⟩
      | raised t => exact ⟨t, by rw [hpush, hx, Flow.outcome_raised]⟩
      | stop f => exact absurd hx (runByte_no_stop hinv hbusy b f)
    · exact ⟨s, exec_push_ignored hbusy b⟩

/-- The three answers of the canvas port (R100, R191). -/
theorem canvasPort_answers (a : Nat) (s k : State) :
    canvasPort a s k = .next k ∨
      (canvasPort a s k = .refused .canvasPortBusy ∧ s.runState = .busy) ∨
      (canvasPort a s k = .refused .canvasPortAddress ∧ s.runState ≠ .busy ∧ s.canvasCells ≤ a) := by
  by_cases hbusy : s.runState = .busy
  · exact .inr (.inl ⟨canvasPort_busy hbusy a k, hbusy⟩)
  · by_cases ha : a < s.canvasCells
    · exact .inl (canvasPort_accepted hbusy ha k)
    · exact .inr (.inr ⟨canvasPort_outside hbusy (not_lt.mp ha) k, hbusy, not_lt.mp ha⟩)

/-- No register write is a canvas port event (R83, R90). -/
theorem not_usesCanvasPort_decodeRegWrite (r : RegSel) (v : Word) : ¬ UsesCanvasPort (decodeRegWrite r v) := by
  rintro (⟨a, h⟩ | ⟨a, w, h⟩)
  all_goals
    cases r with
    | unmapped n => cases h
    | reg r =>
      cases r with
      | cmd => simp only [decodeRegWrite, decodeCommand] at h; split_ifs at h
      | _ => cases h

theorem step_of_no_input {s : State} (h : s.inputs = []) : step s = .next s := by
  simp only [step, fetchEvent, h]

/-- The invariant does not depend on the events pending. -/
theorem MachineInv.withInputs {s : State} (hinv : MachineInv s) (l : List HostEvent) :
    MachineInv { s with inputs := l } := hinv.host l s.returned s.draws

/-- Settles O59: the two canvas port events by the port's answers, every other event by `exec_completes`. -/
theorem everyAcceptedEventCompletes : Obligations.EveryAcceptedEventCompletes := by
  intro s hinv
  cases hin : s.inputs with
  | nil => exact .inl ⟨s, step_of_no_input hin⟩
  | cons e rest =>
    rw [step_of_inputs hin]
    have hother (hport : ¬ UsesCanvasPort (decodeEvent e)) :
        ∃ t, exec (decodeEvent e) { s with inputs := rest } = .next t :=
      exec_completes (decodeEvent_hostInstr e) (hinv.withInputs rest) hport
    cases e with
    | canvasRead a =>
      rcases canvasPort_answers a { s with inputs := rest } _ with h | ⟨h, hbusy⟩ | ⟨h, hfree, ha⟩
      · exact .inl ⟨_, h⟩
      · exact .inr (.inl ⟨h, hbusy, a, rest, .inl rfl⟩)
      · exact .inr (.inr ⟨h, hfree, a, rest, ha, .inl rfl⟩)
    | canvasWrite a v =>
      rcases canvasPort_answers a { s with inputs := rest } _ with h | ⟨h, hbusy⟩ | ⟨h, hfree, ha⟩
      · exact .inl ⟨_, h⟩
      · exact .inr (.inl ⟨h, hbusy, a, rest, .inr ⟨v, rfl⟩⟩)
      · exact .inr (.inr ⟨h, hfree, a, rest, ha, .inr ⟨v, rfl⟩⟩)
    | hardReset => exact .inl ⟨_, rfl⟩
    | regRead n => exact .inl (hother (by rintro (⟨a, h⟩ | ⟨a, v, h⟩) <;> cases h))
    | regWrite n v => exact .inl (hother (not_usesCanvasPort_decodeRegWrite _ v))

end Sys2Proof.Machine

/-! ### Every host event keeps the invariant -/

namespace Sys2Proof.Machine
/-- The run registers have their reset values exactly when each of them has (R38). -/
theorem eq_clearRun_congr {s t : State} (hrun : SameRun s t) (hcursor : SameCursor s t) (hlzw : SameLzw s t)
    (hpix : t.pixcnt = s.pixcnt) (h : s = clearRun s) : t = clearRun t := by
  obtain ⟨hr1, hr2⟩ := hrun
  obtain ⟨hc1, hc2, hc3, hc4, hc5⟩ := hcursor
  obtain ⟨hl1, hl2, hl3, hl4, hl5, hl6, -, -⟩ := hlzw
  rw [h] at hr1 hr2 hc1 hc2 hc3 hc4 hc5 hl1 hl2 hl3 hl4 hl5 hl6 hpix
  cases t
  simp only [clearRun] at *
  simp only [*]

/-- Outside BUSY the invariant speaks of the run registers, the dictionary and the canvas, not of the configuration. -/
theorem MachineInv.outside_busy {s t : State} (hinv : MachineInv s) (hfree : s.runState ≠ .busy) (hrun : SameRun s t)
    (hcursor : SameCursor s t) (hlzw : SameLzw s t) (hpix : t.pixcnt = s.pixcnt) (hform : t.canvas.wf = true)
    (hrange : ∀ a, t.canvasCells ≤ a → t.canvas.read a = 0) : MachineInv t := by
  have hidle := eq_clearRun_congr hrun hcursor hlzw hpix
  obtain ⟨hr, he⟩ := hrun
  obtain ⟨-, hfs, -⟩ := hcursor
  obtain ⟨hm, hw, hn, hp, hv, hen, hd, hera⟩ := hlzw
  have hfree' : t.runState ≠ .busy := hr ▸ hfree
  exact {
    canvasForm := hform
    canvasRange := hrange
    dictTable := hd ▸ hinv.dictTable
    errorIff := by rw [hr, he]; exact hinv.errorIff
    idleFresh := fun h => hidle (hinv.idleFresh (hr ▸ h))
    busyFrame := fun h => absurd h hfree'
    endedFull := fun h => absurd h hfree'
    startOk := fun h => absurd h hfree'
    lzwOk := fun h => (hinv.lzwOk (by rwa [hr, hfs] at h)).congr hm hw hn hp hv hd hera
    cursorOk := fun h => absurd h hfree'
    doneEnded := fun h => by rw [hen, hfs]; exact hinv.doneEnded (hr ▸ h) }

/-- A configuration write outside BUSY keeps the invariant (R92). -/
theorem writeConfig_inv {s : State} (hinv : MachineInv s) (hfree : s.runState ≠ .busy) (r : CfgReg) (v : Word) :
    MachineInv (writeConfig r v s) := by
  cases r <;> exact hinv.outside_busy hfree ⟨rfl, rfl⟩ ⟨rfl, rfl, rfl, rfl, rfl⟩
    ⟨rfl, rfl, rfl, rfl, rfl, rfl, rfl, rfl⟩ rfl hinv.canvasForm hinv.canvasRange

/-- A host's canvas write outside BUSY, at a cell that exists, keeps the invariant (R100). -/
theorem canvasWrite_inv {s : State} (hinv : MachineInv s) (hfree : s.runState ≠ .busy) {a : Nat}
    (ha : a < s.canvasCells) (v : Byte) : MachineInv { s with canvas := s.canvas.write a v } := by
  refine hinv.outside_busy hfree ⟨rfl, rfl⟩ ⟨rfl, rfl, rfl, rfl, rfl⟩ ⟨rfl, rfl, rfl, rfl, rfl, rfl, rfl, rfl⟩ rfl
    (Memory.wf_write hinv.canvasForm a v) fun b hb => ?_
  have hne : b ≠ a := (ha.trans_le hb).ne'
  rw [Memory.read_write hinv.canvasForm, if_neg hne]
  exact hinv.canvasRange b hb

/-- Every cell and register at its reset value (R38, R99). -/
theorem hardReset_inv (s : State) : MachineInv (hardReset s) :=
  clearRun_inv (s := hardReset s) rfl (fun _ _ => rfl) rfl

/-- What START's checks establish: the frame lies in the canvas, and no pixel is counted yet (R94, R149, R153). -/
theorem frameOk_of_checks {s : State} (hbig : s.canvasTooBig = false) (hout : s.frameOutside = false)
    (hpix : s.pixcnt = 0) : FrameOk s := by
  have hbig' := of_decide_eq_false hbig
  have hout' := of_decide_eq_false hout
  exact ⟨by omega, by omega, by omega, by omega, by rw [hpix]; exact Nat.zero_le _⟩

/-- An accepted START from a state without an error begins a frame with the invariant (R94). -/
theorem beginFrame_inv {s : State} (hinv : MachineInv s) (hready : s.runState = .idle ∨ s.runState = .done)
    (hbig : s.canvasTooBig = false) (hout : s.frameOutside = false) :
    MachineInv { beginFrame s with runState := .busy } where
  canvasForm := hinv.canvasForm
  canvasRange := hinv.canvasRange
  dictTable := hinv.dictTable
  errorIff := by
    have hne : s.runState ≠ .error := by rcases hready with h | h <;> rw [h] <;> decide
    have hsuccess : s.error = .success := by_contra fun h => hne (hinv.errorIff.mpr h)
    simp [hsuccess]
  idleFresh := by simp
  busyFrame := fun _ => frameOk_of_checks hbig hout rfl
  endedFull := by simp
  startOk := fun _ _ => ⟨rfl, rfl, rfl, rfl, rfl, rfl, rfl⟩
  lzwOk := by simp
  cursorOk := by simp
  doneEnded := by simp

theorem execStart_inv {s t : State} (hinv : MachineInv s) (h : execStart s = .next t) : MachineInv t := by
  unfold execStart at h
  split_ifs at h with hready hbig hout <;> cases h
  · exact raise_inv (by decide) hinv.canvasForm hinv.canvasRange
  · exact raise_inv (by decide) hinv.canvasForm hinv.canvasRange
  · exact beginFrame_inv hinv hready (eq_false_of_ne_true hbig) (eq_false_of_ne_true hout)
  · exact hinv

theorem execPush_inv {b : Byte} {s t : State} (hinv : MachineInv s) (h : execPush b s = .next t) : MachineInv t := by
  unfold execPush at h
  split at h
  · next hbusy => exact runByte_inv hinv hbusy h
  · cases h; exact hinv

/-- Every row of R90 keeps the invariant. -/
theorem exec_inv {i : Instr} {s t : State} (hi : HostInstr i) (hinv : MachineInv s) (h : exec i s = .next t) :
    MachineInv t := by
  cases hi with
  | start => exact execStart_inv hinv h
  | push b => exact execPush_inv hinv h
  | eos =>
    simp only [exec, execEos] at h
    split at h <;> cases h
    · exact raise_inv (by decide) hinv.canvasForm hinv.canvasRange
    · exact hinv
  | reset => cases h; exact clearRun_inv hinv.canvasForm hinv.canvasRange hinv.dictTable
  | hardreset => cases h; exact hardReset_inv s
  | cmdReserved v => cases h; exact hinv
  | rowrite r v => cases h; exact hinv
  | cfgwrite r v =>
    simp only [exec, execCfgwrite] at h
    split at h <;> cases h
    · exact hinv
    · next hfree => exact writeConfig_inv hinv hfree r v
  | regread r => rw [execRegread_eq_next h]; exact hinv.host s.inputs t.returned t.draws
  | canvasread a =>
    obtain ⟨-, -, rfl⟩ := canvasPort_eq_next h
    exact hinv.host s.inputs _ s.draws
  | canvaswrite a v =>
    obtain ⟨hfree, ha, rfl⟩ := canvasPort_eq_next h
    exact canvasWrite_inv hinv hfree ha v

/-- Settles O58: a step is no step, or the event taken and run by `exec_inv`. -/
theorem stepKeepsInv : Obligations.StepKeepsInv := by
  intro s t hinv hstep
  cases hin : s.inputs with
  | nil => cases (step_of_no_input hin).symm.trans hstep; exact hinv
  | cons e rest =>
    rw [step_of_inputs hin] at hstep
    exact exec_inv (decodeEvent_hostInstr e) (hinv.withInputs rest) hstep

/-- Settles O57: the reset state has its run registers at their reset values, an empty canvas and no entry. -/
theorem invHoldsAtReset : Obligations.InvHoldsAtReset :=
  clearRun_inv (s := .reset) rfl (fun _ _ => rfl) rfl

end Sys2Proof.Machine

/-! ### STATE (R101) and the causes of an error (R162), by the host event taken -/

namespace Sys2Proof.Machine

/-- A host event that is no reset and could not raise an error leaves STATE and ERROR (R90). -/
theorem exec_sameRun_of_other {i : Instr} {s t : State} (hi : HostInstr i) (h : exec i s = .next t)
    (hhard : i ≠ .hardreset) (hreset : i ≠ .reset) (hraise : ¬ CouldRaise i) : SameRun s t := by
  cases hi with
  | start => exact absurd (.inl rfl) hraise
  | eos => exact absurd (.inr (.inl rfl)) hraise
  | push b => exact absurd (.inr (.inr ⟨b, rfl⟩)) hraise
  | hardreset => exact absurd rfl hhard
  | reset => exact absurd rfl hreset
  | cmdReserved v => cases h; exact ⟨rfl, rfl⟩
  | rowrite r v => cases h; exact ⟨rfl, rfl⟩
  | cfgwrite r v =>
    simp only [exec, execCfgwrite] at h
    split at h <;> cases h
    · exact ⟨rfl, rfl⟩
    · exact (writeConfig_sameProgress r v s).run
  | regread r => rw [execRegread_eq_next h]; exact ⟨rfl, rfl⟩
  | canvasread a => obtain ⟨-, -, rfl⟩ := canvasPort_eq_next h; exact ⟨rfl, rfl⟩
  | canvaswrite a v => obtain ⟨-, -, rfl⟩ := canvasPort_eq_next h; exact ⟨rfl, rfl⟩

/-- The three outcomes of a START that is not ignored (R94). -/
theorem execStart_outcomes {s t : State} (hready : s.runState = .idle ∨ s.runState = .done)
    (h : execStart s = .next t) :
    (s.canvasTooBig = true ∧ t = raise .fileTooWide (beginFrame s)) ∨
      (s.frameOutside = true ∧ t = raise .decodeError (beginFrame s)) ∨ t = { beginFrame s with runState := .busy } := by
  unfold execStart at h
  rw [if_pos hready] at h
  split_ifs at h with hbig hout <;> cases h
  · exact .inl ⟨hbig, rfl⟩
  · exact .inr (.inl ⟨hout, rfl⟩)
  · exact .inr (.inr rfl)

/-- How a byte that returns leaves STATE and ERROR: as they were, or DONE by the terminator after END (R113). -/
theorem ByteGoes.run {b : Byte} {s t : State} (h : ByteGoes b s t) :
    SameRun s t ∨ t = { s with runState := .done } ∧ s.fstate = .len ∧ b = 0 ∧ s.ended = true := by
  obtain ⟨herr, ⟨-, -, -, rfl⟩ | ⟨-, -, rfl⟩ | ⟨hlen, hzero, hended, rfl⟩ | ⟨-, -, rfl⟩ | ⟨-, -, -, hrun, -⟩⟩ := h
  · exact .inl ⟨rfl, rfl⟩
  · exact .inl ⟨rfl, rfl⟩
  · exact .inr ⟨rfl, hlen, hzero, hended⟩
  · exact .inl ⟨rfl, rfl⟩
  · exact .inl ⟨hrun, herr⟩

/-- How a byte leaves STATE: as it was, in ERROR with DecodeError, or DONE by the terminator after END (R101). -/
theorem runByte_runState {b : Byte} {s t : State} (h : (runByte b s).outcome = .next t) :
    t.runState = s.runState ∨ (t.runState = .error ∧ t.error = .decodeError) ∨
      (t.runState = .done ∧ s.fstate = .len ∧ b = 0 ∧ s.ended = true) := by
  rcases runByte_ends b s with ⟨ix, u, hu, -, hgoes⟩ | ⟨ix, u, hu, -⟩ | ⟨f, hf⟩
  · rw [hu] at h; cases h
    rcases hgoes.run with hsame | ⟨rfl, hdone⟩
    · exact .inl hsame.1
    · exact .inr (.inr ⟨rfl, hdone⟩)
  · rw [hu] at h; cases h; exact .inr (.inl ⟨rfl, rfl⟩)
  · rw [hf] at h; cases h

/-- Outside BUSY only START can move STATE, apart from the resets (R94 to R96). -/
theorem exec_runState_of_not_busy {i : Instr} {s t : State} (hi : HostInstr i) (h : exec i s = .next t)
    (hfree : s.runState ≠ .busy) (hhard : i ≠ .hardreset) (hreset : i ≠ .reset) (hstart : i ≠ .start) :
    t.runState = s.runState := by
  by_cases hraise : CouldRaise i
  · rcases hraise with hi | rfl | ⟨b, rfl⟩
    · exact absurd hi hstart
    · cases (execEos_ignored hfree).symm.trans h; rfl
    · cases (exec_push_ignored hfree b).symm.trans h; rfl
  · exact (exec_sameRun_of_other hi h hhard hreset hraise).1

/-- In BUSY only PUSH and EOS can move STATE, apart from the resets (R94 to R96). -/
theorem exec_runState_of_busy {i : Instr} {s t : State} (hi : HostInstr i) (h : exec i s = .next t)
    (hbusy : s.runState = .busy) (hhard : i ≠ .hardreset) (hreset : i ≠ .reset) (hpush : ∀ b, i ≠ .push b)
    (heos : i ≠ .eos) : t.runState = .busy := by
  by_cases hraise : CouldRaise i
  · rcases hraise with rfl | hi | ⟨b, hi⟩
    · cases (execStart_ignored (.inl hbusy)).symm.trans h; exact hbusy
    · exact absurd hi heos
    · exact absurd hi (hpush b)
  · exact (exec_sameRun_of_other hi h hhard hreset hraise).1.trans hbusy

/-- Settles O51: the event is decoded to a row of R90, and each row that can move STATE has its own lemma. -/
theorem stateMovesOnlyAsTheDiagramSays : Obligations.StateMovesOnlyAsTheDiagramSays := by
  intro s t e rest hin hstep
  rw [step_of_inputs hin] at hstep
  have hi := decodeEvent_hostInstr e
  refine ⟨fun hd => ?_, fun hhard hreset => ⟨fun herr => ?_, fun hready => ⟨fun hd => ?_, fun hd => ?_⟩,
    fun hbusy => ⟨fun b hd => ?_, fun hd => ?_, fun hpush heos => ?_⟩⟩⟩
  · rcases hd with hd | hd <;> rw [hd] at hstep <;> cases hstep <;> rfl
  · exact (exec_sameProgress_of_error (s := { s with inputs := rest }) herr hi hstep hhard hreset).1.run.1.trans herr
  · rw [hd] at hstep
    rcases execStart_outcomes (s := { s with inputs := rest }) hready hstep with ⟨-, rfl⟩ | ⟨-, rfl⟩ | rfl
    · exact .inr rfl
    · exact .inr rfl
    · exact .inl rfl
  · have hfree : s.runState ≠ .busy := by rcases hready with h | h <;> rw [h] <;> decide
    exact exec_runState_of_not_busy (s := { s with inputs := rest }) hi hstep hfree hhard hreset hd
  · rw [hd] at hstep
    have hrun := (execPush_busy (s := { s with inputs := rest }) hbusy b).symm.trans hstep
    rcases runByte_runState hrun with hsame | herr | hdone
    · exact .inl (hsame.trans hbusy)
    · exact .inr (.inl herr)
    · exact .inr (.inr hdone)
  · rw [hd] at hstep
    cases (execEos_busy (s := { s with inputs := rest }) hbusy).symm.trans hstep
    exact ⟨rfl, rfl⟩
  · exact exec_runState_of_busy (s := { s with inputs := rest }) hi hstep hbusy hhard hreset hpush heos

/-! #### What raises an error -/

/-- Why the fetch loop that starts in `s` raises, and the state `t` it raises in: the next code of a state the loop comes
to (R116), for one of the causes of R162. -/
def CodeRaises (s t : State) : Prop :=
  ∃ u c w, FetchReaches s u ∧ u.ended = false ∧ u.width.toNat ≤ u.nbits.toNat ∧ c = nextCode u ∧ w = dropCode u ∧
    execCode c w = .raised t ∧ CodeError c w ∧
    (classify w.ctx c = .firstCode ∨ classify w.ctx c = .dictCode ∨ classify w.ctx c = .kwkwk →
      t.pixcnt.toNat = t.framePixels)

theorem feed_raised {b : Byte} {s t : State} (h : feed b s = .raised t) : CodeRaises (addByte b s) t := by
  obtain ⟨u, hreach, hended, hbits, hraised⟩ := fetchLoop_raised h
  exact ⟨u, _, _, hreach, hended, hbits, rfl, rfl, hraised, execCode_raised hraised⟩

/-- Why a byte raises an error (R162): a minimum code size out of range (E3), a terminator before END (E7), or a code that a
data byte before END completes (E4 to E6). -/
def ByteRaises (b : Byte) (s t : State) : Prop :=
  s.fstate = .mcs ∧ (b.toNat < 2 ∨ 8 < b.toNat) ∨ s.fstate = .len ∧ b = 0 ∧ s.ended = false ∨
    s.fstate = .data ∧ s.ended = false ∧ CodeRaises (addByte b (countData s)) t

theorem runByte_raised {b : Byte} {s t : State} (h : runByte b s = .raised t) : ByteRaises b s t := by
  unfold runByte at h
  cases hfs : s.fstate with
  | mcs =>
    simp only [hfs, classifyByte, doMcs] at h
    split at h
    · next hbad => exact .inl ⟨hfs, hbad⟩
    · cases h
  | len =>
    by_cases hzero : b = 0
    · simp only [hfs, classifyByte, if_pos hzero, doSbterm] at h
      split at h
      · cases h
      · next hended => exact .inr (.inl ⟨hfs, hzero, eq_false_of_ne_true hended⟩)
    · simp only [hfs, classifyByte, if_neg hzero, doSblen] at h
      cases h
  | data =>
    simp only [hfs, classifyByte, doSbdata] at h
    split at h
    · cases h
    · next hended => exact .inr (.inr ⟨hfs, eq_false_of_ne_true hended, feed_raised h⟩)

/-- A byte that enters ERROR has raised DecodeError, for one of the causes of a byte. -/
theorem runByte_enters_error {b : Byte} {s t : State} (hok : s.runState ≠ .error) (h : (runByte b s).outcome = .next t)
    (ht : t.runState = .error) : t.error = .decodeError ∧ ByteRaises b s t := by
  rcases runByte_ends b s with ⟨ix, u, hu, -, hgoes⟩ | ⟨ix, u, hu, -⟩ | ⟨f, hf⟩
  · rw [hu] at h; cases h
    rcases hgoes.run with hsame | ⟨rfl, -⟩
    · exact absurd (hsame.1.symm.trans ht) hok
    · cases ht
  · rw [hu] at h; cases h
    exact ⟨rfl, runByte_raised hu⟩
  · rw [hf] at h; cases h

/-- A START that enters ERROR failed its first check (E1) or its second (E2) (R94). -/
theorem execStart_enters_error {s t : State} (hok : s.runState ≠ .error) (h : execStart s = .next t)
    (ht : t.runState = .error) :
    (s.canvasTooBig = true ∧ t.error = .fileTooWide) ∨ (s.frameOutside = true ∧ t.error = .decodeError) := by
  have hready : s.runState = .idle ∨ s.runState = .done := by
    by_contra hno
    have hkeep : execStart s = .next s := if_neg hno
    cases hkeep.symm.trans h
    exact hok ht
  rcases execStart_outcomes hready h with ⟨hbig, rfl⟩ | ⟨hout, rfl⟩ | rfl
  · exact .inl ⟨hbig, rfl⟩
  · exact .inr ⟨hout, rfl⟩
  · cases ht

/-- An event that enters ERROR is one that could raise: the resets lead to IDLE, the others keep STATE. -/
theorem exec_enters_error {i : Instr} {s t : State} (hi : HostInstr i) (hok : s.runState ≠ .error)
    (h : exec i s = .next t) (ht : t.runState = .error) : CouldRaise i := by
  by_contra hraise
  by_cases hhard : i = .hardreset
  · subst hhard; cases h; cases ht
  by_cases hreset : i = .reset
  · subst hreset; cases h; cases ht
  exact hok ((exec_sameRun_of_other hi h hhard hreset hraise).1.symm.trans ht)

theorem execEos_enters_error {s t : State} (hok : s.runState ≠ .error) (h : execEos s = .next t)
    (ht : t.runState = .error) : s.runState = .busy ∧ t.error = .earlyEOF := by
  unfold execEos at h
  split at h <;> cases h
  · next hbusy => exact ⟨hbusy, rfl⟩
  · exact absurd ht hok

theorem execPush_enters_error {b : Byte} {s t : State} (hok : s.runState ≠ .error) (h : execPush b s = .next t)
    (ht : t.runState = .error) : s.runState = .busy ∧ t.error = .decodeError ∧ ByteRaises b (countByte s) t := by
  unfold execPush at h
  split at h
  · next hbusy => exact ⟨hbusy, runByte_enters_error (s := countByte s) hok h ht⟩
  · cases h; exact absurd ht hok

/-- Settles O52: only START, EOS and PUSH could raise, and each has its own lemma on why it enters ERROR. -/
theorem errorsHaveOnlyTheListedCauses : Obligations.ErrorsHaveOnlyTheListedCauses := by
  intro s t e rest hok hin hstep ht
  rw [step_of_inputs hin] at hstep
  have hok' : ({ s with inputs := rest } : State).runState ≠ .error := hok
  rcases exec_enters_error (decodeEvent_hostInstr e) hok' hstep ht with hd | hd | ⟨b, hd⟩
  · rw [hd] at hstep
    rcases execStart_enters_error hok' hstep ht with ⟨hbig, herr⟩ | ⟨hout, herr⟩
    · exact .inl ⟨hd, herr, of_decide_eq_true hbig⟩
    · exact .inr (.inl ⟨hd, herr, of_decide_eq_true hout⟩)
  · rw [hd] at hstep
    obtain ⟨hbusy, herr⟩ := execEos_enters_error hok' hstep ht
    exact .inr (.inr (.inl ⟨hd, hbusy, herr⟩))
  · rw [hd] at hstep
    obtain ⟨hbusy, herr, hcause⟩ := execPush_enters_error hok' hstep ht
    exact .inr (.inr (.inr ⟨b, hd, hbusy, herr, hcause⟩))

end Sys2Proof.Machine

/-! ### A data byte under the invariant (R114 to R116, R195) -/

namespace Sys2Proof.Machine

/-- Between data bytes before END at most 11 bits wait (R29, R138). -/
theorem MachineInv.nbits_le {s : State} (hinv : MachineInv s) (hbusy : s.runState = .busy) (hfs : s.fstate ≠ .mcs)
    (hended : s.ended = false) : s.nbits.toNat ≤ 11 := by
  have hwaiting := (hinv.cursorOk hbusy hfs).fewBits hended
  have hwidth := (hinv.lzwOk (.inl ⟨hbusy, hfs⟩)).widthHigh
  omega

/-- Under the invariant the codes of a data byte do not stop the machine (R195). -/
theorem feed_countData_no_stop {s : State} (hinv : MachineInv s) (hbusy : s.runState = .busy) (hfs : s.fstate ≠ .mcs)
    (hended : s.ended = false) (b : Byte) (f : Fault) : feed b (countData s) ≠ .stop f :=
  (feed_ok (s := countData s) ((hinv.lzwOk (.inl ⟨hbusy, hfs⟩)).congr rfl rfl rfl rfl rfl rfl rfl)
    ((countData_delivered s).frameOk (hinv.busyFrame hbusy)) hinv.dictTable (hinv.cursorOk hbusy hfs).accHigh
    (hinv.nbits_le hbusy hfs hended) b).1 f

/-- How a data byte before END returns: the bookkeeping of `countData` done, and the bits of complete codes taken. -/
theorem ByteGoes.of_data {b : Byte} {s t : State} (h : ByteGoes b s t) (hdata : s.fstate = .data)
    (hended : s.ended = false) :
    SameRun s t ∧ t.m = s.m ∧ t.rem = (countData s).rem ∧ t.fstate = (countData s).fstate ∧
      (t.ended = false → t.nbits.toNat < t.width.toNat) ∧ (t.ended = true → t.frameFull = true) := by
  obtain ⟨herr, ⟨hfs, -⟩ | ⟨hfs, -⟩ | ⟨hfs, -⟩ | ⟨-, he, -⟩ | ⟨-, -, -, hrun, hfs, hrem, hm, hbits, hfull⟩⟩ := h
  · cases hdata.symm.trans hfs
  · cases hdata.symm.trans hfs
  · cases hdata.symm.trans hfs
  · cases hended.symm.trans he
  · exact ⟨⟨hrun, herr⟩, hm, hrem, hfs, hbits, hfull⟩

/-- FSTATE goes back to `F_LEN` with the last byte of the sub-block (R114). -/
theorem countData_fstate_eq_len_iff {s : State} (hdata : s.fstate = .data) :
    (countData s).fstate = .len ↔ s.rem.toNat = 1 := by
  rw [countData_fstate_data hdata]
  split
  · next hone => simp [hone]
  · next hmore => exact iff_of_false (by decide) fun h => hmore (BitVec.eq_of_toNat_eq h)

/-- Settles O25: SBDATA is the byte's run in `F_DATA`; it does not stop (`feed_countData_no_stop`), so it returns, as
`ByteGoes.of_data` says, or raises DecodeError. -/
theorem dataByteRunsItsCodesToCompletion : Obligations.DataByteRunsItsCodesToCompletion := by
  intro s b hinv hbusy hdata hended
  have hfs : s.fstate ≠ .mcs := by rw [hdata]; decide
  have hexec : exec (.sbdata b) s = (runByte b s).outcome := by rw [runByte_outcome, hdata]; rfl
  have hrun : runByte b s = feed b (countData s) := by
    simp only [runByte, hdata, classifyByte, doSbdata, hended, Bool.false_eq_true, if_false]
  rcases runByte_ends b s with ⟨ix, t, ht, hdel, hgoes⟩ | ⟨ix, u, hu, hdel⟩ | ⟨f, hf⟩
  · obtain ⟨⟨hr, herr⟩, hm, hrem, hfstate, hbits, hfull⟩ := hgoes.of_data hdata hended
    refine ⟨t, by rw [hexec, ht, Flow.outcome_go], hdel.config, hdel.pos, hdel.host,
      .inl ⟨hr.trans hbusy, herr, hm, ?_, ?_, hbits, fun h => frameFull_iff.mp (hfull h)⟩⟩
    · rw [hrem, countData_rem_toNat ((hinv.cursorOk hbusy hfs).moreData hdata)]
    · rw [hfstate, countData_fstate_eq_len_iff hdata]
  · exact ⟨raise .decodeError u, by rw [hexec, hu, Flow.outcome_raised], hdel.config, hdel.pos, hdel.host,
      .inr ⟨rfl, rfl⟩⟩
  · exact absurd (hrun.symm.trans hf) (feed_countData_no_stop hinv hbusy hfs hended b f)

/-! #### Data bytes that complete no code -/

/-- While ENDED is set or no code is complete the fetch loop takes nothing (R116). -/
theorem fetchLoop_of_no_code {s : State} (h : ¬ (s.ended = false ∧ s.width.toNat ≤ s.nbits.toNat)) (n : Nat) :
    fetchLoop (n + 1) s = .go s := if_neg h

/-- Settles O24: the byte's bits join the ones waiting (`addByte_bits`), and the fetch loop takes nothing. -/
theorem dataByteWaitsForItsCode : Obligations.DataByteWaitsForItsCode := by
  intro s b hended hrem hdata hacc hfew hwidth
  obtain ⟨hnbits, hsum, -⟩ := addByte_bits (s := countData s) (show s.nbits.toNat ≤ 11 by omega) hacc b
  have hnone : ¬ ((addByte b (countData s)).ended = false ∧
      (addByte b (countData s)).width.toNat ≤ (addByte b (countData s)).nbits.toNat) := fun h => by
    rw [hnbits] at h
    exact absurd hfew h.2.not_gt
  have hexec : exec (.sbdata b) s = .next (addByte b (countData s)) := by
    show execSbdata b s = _
    rw [execSbdata_not_ended hended, feed, fetchLoop_of_no_code hnone, Flow.outcome_go]
  have hlen := countData_fstate_eq_len_iff hdata
  refine ⟨_, hexec, rfl, countData_rem_toNat hrem, hlen.mpr, fun hmore => ?_, hnbits, hsum⟩
  have hfstate := countData_fstate_data hdata
  rwa [if_neg fun h => hmore (congrArg BitVec.toNat h)] at hfstate

end Sys2Proof.Machine

/-! ### Two runs side by side: what the codes do not read (R36, R53, R117) -/

namespace Sys2Proof.Machine

/-! The codes' operations on two states of a relation `R` that fixes NEXT and WIDTH. -/
section
variable {R : State → State → Prop}
  (hwider : ∀ {s u}, R s u → R { s with width := s.width + 1 } { u with width := u.width + 1 })
include hwider

theorem grow_rel {s u : State} (h : R s u) (hnext : u.next = s.next) (hwidth : u.width = s.width) :
    R (grow s) (grow u) := by
  unfold grow
  by_cases hfull : s.next.toNat = 2 ^ s.width.toNat ∧ s.width.toNat < 12
  · rw [if_pos hfull, if_pos (by rwa [hnext, hwidth])]
    exact hwider h
  · rw [if_neg hfull, if_neg (by rwa [hnext, hwidth])]
    exact h

/-- `insert` keeps a relation that its two assignments keep (R133, R134). -/
theorem insert_rel {s u : State} (h : R s u) (hnext : u.next = s.next) (hwidth : u.width = s.width) {k : Byte}
    (hadd : R (addEntry k s) (addEntry k u)) : R (insert k s) (insert k u) := by
  unfold insert
  rw [hnext]
  split
  · exact grow_rel hwider hadd (by rw [addEntry_next, addEntry_next, hnext]) hwidth
  · exact h

end

/-! #### Where the byte stream stands (R117) -/

/-- An operation that neither reads nor writes POS, REM and FSTATE keeps two states alike but for these. -/
theorem SameButFraming.map {s u : State} (h : SameButFraming s u) (f : State → State)
    (hf : ∀ p r fs, f { s with pos := p, rem := r, fstate := fs } = { f s with pos := p, rem := r, fstate := fs }) :
    SameButFraming (f s) (f u) := by
  rw [h, hf u.pos u.rem u.fstate]
  rfl

/-- `exp` and `first` read M and DICT only (R126, R127). -/
theorem expOf_firstOf_congr {s u : State} (hm : u.m = s.m) (hd : u.dict = s.dict) (he : u.dictEra = s.dictEra)
    (c : Code) : expOf u c = expOf s c ∧ firstOf u c = firstOf s c := by
  unfold expOf firstOf
  exact expand_congr hm hd he _ _

/-- The codes are blind to POS, REM and FSTATE. -/
theorem blind_sameButFraming : Blind (fun _ => True) SameButFraming where
  keepCode _ _ := trivial
  keepDrop _ := trivial
  config h := by rw [h]; exact .refl _
  pixcnt h := by rw [h]
  m h := by rw [h]
  width h := by rw [h]
  next h := by rw [h]
  prevValid h := by rw [h]
  ended h := by rw [h]
  acc h := by rw [h]
  nbits h := by rw [h]
  exps _ h _ := expOf_firstOf_congr (by rw [h]) (by rw [h]) (by rw [h]) _
  prevs {s u} _ h _ := by
    have hprev : u.prev = s.prev := by rw [h]
    rw [hprev]
    exact expOf_firstOf_congr (by rw [h]) (by rw [h]) (by rw [h]) _
  trace _ h := h.map _ fun _ _ _ => rfl
  count h := h.map _ fun _ _ _ => rfl
  write a v h := h.map (fun s => { s with canvas := s.canvas.write a v, cwTrace := s.cwTrace ++ [(a, v)] })
    fun _ _ _ => rfl
  insert k h _ := insert_rel (fun h => h.map (fun s => { s with width := s.width + 1 }) fun _ _ _ => rfl) h
    (by rw [h]) (by rw [h]) (h.map _ fun _ _ _ => rfl)
  setPrev _ h := h.map _ fun _ _ _ => rfl
  setFirstPrev _ h := h.map _ fun _ _ _ => rfl
  init h := h.map _ fun _ _ _ => rfl
  finish h := h.map (fun s => { s with ended := true }) fun _ _ _ => rfl
  raise h := by rw [h]; rfl
  drop h := h.map _ fun _ _ _ => rfl
  add _ h := h.map _ fun _ _ _ => rfl

/-- The sub-block bookkeeping writes REM and FSTATE only (R114). -/
theorem SameButFraming.countData {s u : State} (h : SameButFraming s u) :
    SameButFraming (countData s) (countData u) := by
  rw [h]; rfl

/-- Settles O29: a data byte is counted in REM and FSTATE and then fed to codes that are blind to them. -/
theorem subBlockBoundariesDoNotReachTheCodes : Obligations.SubBlockBoundariesDoNotReachTheCodes := by
  intro s u b h
  have hended : u.ended = s.ended := by rw [h]
  have hrun : Alike SameButFraming (doSbdata b s) (doSbdata b u) := by
    unfold doSbdata
    rw [hended]
    split
    · exact .go h.countData
    · exact blind_sameButFraming.feed b trivial h.countData
  refine ⟨fun t ht => hrun.outcome_next ht, fun t ht => ?_⟩
  cases ht
  rw [h]; rfl

end Sys2Proof.Machine

namespace Sys2Proof.Machine

/-! #### A stream byte in two states -/

/-- Only in `F_DATA` is a byte a data byte (R71). -/
theorem classifyByte_eq_sbdata {f : FState} {b : Byte} (h : classifyByte f b = .sbdata) : f = .data := by
  cases f with
  | mcs => cases h
  | len => simp only [classifyByte] at h; split at h <;> cases h
  | data => rfl

/-- A byte runs alike in two states when the codes are blind to their difference and the byte-level items keep it
(R110 to R114). -/
theorem Blind.runByte {P : State → Prop} {R : State → State → Prop} (B : Blind P R) {s u : State} (b : Byte) (h : R s u)
    (hfs : u.fstate = s.fstate)
    (hmcs : R { lzwInit (setMinCode b s) with fstate := .len } { lzwInit (setMinCode b u) with fstate := .len })
    (hlen : R { s with rem := b, fstate := .data } { u with rem := b, fstate := .data })
    (hdone : R { s with runState := .done } { u with runState := .done })
    (hcount : R (countData s) (countData u))
    (hp : s.fstate = .data → s.ended = false → P (addByte b (countData s))) :
    Alike R (runByte b s) (Machine.runByte b u) := by
  unfold Machine.runByte
  rw [hfs]
  have hended := B.ended h
  cases hclass : classifyByte s.fstate b with
  | mcs =>
    simp only [doMcs]
    split
    · exact .raised (B.raise h)
    · exact .go hmcs
  | sblen => exact .go hlen
  | sbterm =>
    simp only [doSbterm]
    by_cases he : s.ended = true
    · rw [if_pos he, if_pos (hended.trans he)]
      exact .go hdone
    · rw [if_neg he, if_neg (hended ▸ he)]
      exact .raised (B.raise h)
  | sbdata =>
    simp only [doSbdata, hended]
    split
    · exact .go hcount
    · next he =>
      exact B.feed b (hp (classifyByte_eq_sbdata hclass) (eq_false_of_ne_true he)) hcount

/-! #### The canvas (R53) -/

/-- `u` is `s` on another canvas: `other`, with the writes made that the CW trace of `s` has grown by since it was `t0`. -/
def OnOtherCanvas (t0 : List (Nat × Byte)) (other : Memory) (s u : State) : Prop :=
  ∃ ws, s.cwTrace = t0 ++ ws ∧ u = { s with canvas := other.writeAll ws }

section
variable {t0 : List (Nat × Byte)} {other : Memory}

/-- An operation that neither reads nor writes the canvas and the CW trace keeps two states alike but for the canvas. -/
theorem OnOtherCanvas.map {s u : State} (h : OnOtherCanvas t0 other s u) (f : State → State)
    (htrace : (f s).cwTrace = s.cwTrace) (hf : ∀ m, f { s with canvas := m } = { f s with canvas := m }) :
    OnOtherCanvas t0 other (f s) (f u) := by
  obtain ⟨ws, hws, rfl⟩ := h
  exact ⟨ws, htrace.trans hws, hf _⟩

/-- A canvas write is made on both canvases and traced (R12). -/
theorem OnOtherCanvas.write {s u : State} (h : OnOtherCanvas t0 other s u) (a : Nat) (v : Byte) :
    OnOtherCanvas t0 other { s with canvas := s.canvas.write a v, cwTrace := s.cwTrace ++ [(a, v)] }
      { u with canvas := u.canvas.write a v, cwTrace := u.cwTrace ++ [(a, v)] } := by
  obtain ⟨ws, hws, rfl⟩ := h
  refine ⟨ws ++ [(a, v)], by simp only [hws, List.append_assoc], ?_⟩
  rw [Memory.writeAll_append]
  rfl

theorem OnOtherCanvas.eq_update {s u : State} (h : OnOtherCanvas t0 other s u) : u = { s with canvas := u.canvas } := by
  obtain ⟨ws, -, rfl⟩ := h
  rfl

/-- The codes are blind to the canvas. -/
theorem blind_onOtherCanvas : Blind (fun _ => True) (OnOtherCanvas t0 other) where
  keepCode _ _ := trivial
  keepDrop _ := trivial
  config h := by rw [h.eq_update]; exact .refl _
  pixcnt h := by rw [h.eq_update]
  m h := by rw [h.eq_update]
  width h := by rw [h.eq_update]
  next h := by rw [h.eq_update]
  prevValid h := by rw [h.eq_update]
  ended h := by rw [h.eq_update]
  acc h := by rw [h.eq_update]
  nbits h := by rw [h.eq_update]
  exps _ h _ := expOf_firstOf_congr (by rw [h.eq_update]) (by rw [h.eq_update]) (by rw [h.eq_update]) _
  prevs {s u} _ h _ := by
    have hprev : u.prev = s.prev := by rw [h.eq_update]
    rw [hprev]
    exact expOf_firstOf_congr (by rw [h.eq_update]) (by rw [h.eq_update]) (by rw [h.eq_update]) _
  trace _ h := h.map _ rfl fun _ => rfl
  count h := h.map _ rfl fun _ => rfl
  write a v h := h.write a v
  insert k h _ := insert_rel (fun h => h.map (fun s => { s with width := s.width + 1 }) rfl fun _ => rfl) h
    (by rw [h.eq_update]) (by rw [h.eq_update]) (h.map _ rfl fun _ => rfl)
  setPrev _ h := h.map _ rfl fun _ => rfl
  setFirstPrev _ h := h.map _ rfl fun _ => rfl
  init h := h.map _ rfl fun _ => rfl
  finish h := h.map (fun s => { s with ended := true }) rfl fun _ => rfl
  raise h := h.map _ rfl fun _ => rfl
  drop h := h.map _ rfl fun _ => rfl
  add _ h := h.map _ rfl fun _ => rfl

theorem OnOtherCanvas.runByte {s u : State} (h : OnOtherCanvas t0 other s u) (b : Byte) :
    Alike (OnOtherCanvas t0 other) (runByte b s) (Machine.runByte b u) :=
  blind_onOtherCanvas.runByte b h (by rw [h.eq_update])
    (h.map (fun s => { lzwInit (setMinCode b s) with fstate := .len }) rfl fun _ => rfl)
    (h.map (fun s => { s with rem := b, fstate := .data }) rfl fun _ => rfl)
    (h.map (fun s => { s with runState := .done }) rfl fun _ => rfl) (h.map _ rfl fun _ => rfl) fun _ _ => trivial

end

/-- Settles O50: in BUSY the byte runs alike on both canvases, with the traced writes made on the other one; elsewhere a PUSH
is ignored and traces nothing. -/
theorem canvasIsNeverRead : Obligations.CanvasIsNeverRead := by
  intro s t b other ws ht hws
  by_cases hbusy : s.runState = .busy
  · have hstart : OnOtherCanvas s.cwTrace other (countByte s) (countByte { s with canvas := other }) :=
      ⟨[], (List.append_nil _).symm, rfl⟩
    obtain ⟨v, hv, ws', hws', rfl⟩ := (hstart.runByte b).outcome_next ((execPush_busy hbusy b).symm.trans ht)
    cases List.append_cancel_left (hws.symm.trans hws')
    exact (execPush_busy (s := { s with canvas := other }) hbusy b).trans hv
  · cases (exec_push_ignored hbusy b).symm.trans ht
    cases List.append_cancel_left ((List.append_nil _).trans hws)
    exact exec_push_ignored (s := { s with canvas := other }) hbusy b

end Sys2Proof.Machine

namespace Sys2Proof.Machine

/-! #### The dictionary outside its defined entries, and PREV while PREV_VALID = 0 (R24, R36) -/

/-- `DICT[c]` reads the dictionary and its era only. -/
theorem dictAt_congr {s u : State} (hd : u.dict = s.dict) (he : u.dictEra = s.dictEra) (c : Nat) :
    u.dictAt c = s.dictAt c := by
  unfold State.dictAt
  rw [hd, he]

/-- An operation that neither reads nor writes DICT, PREV, PREV_VALID, M and NEXT keeps two states alike but for what no
rule reads. -/
theorem SameLive.map {s u : State} (h : SameLive s u) (f : State → State)
    (hf : ∀ d e p, f { s with dict := d, dictEra := e, prev := p } = { f s with dict := d, dictEra := e, prev := p })
    (hv : (f s).prevValid = s.prevValid := by rfl) (hp : (f s).prev = s.prev := by rfl)
    (hm : (f s).m = s.m := by rfl) (hn : (f s).next = s.next := by rfl) (hd : (f s).dict = s.dict := by rfl)
    (he : (f s).dictEra = s.dictEra := by rfl) : SameLive (f s) (f u) := by
  obtain ⟨heq, hprev, hlive⟩ := h
  have hfu : f u = { f s with dict := u.dict, dictEra := u.dictEra, prev := u.prev } := by
    rw [← hf u.dict u.dictEra u.prev]
    exact congrArg f heq
  have hclear : (f s).clear = s.clear := congrArg (2 ^ ·.toNat) hm
  rw [hfu]
  refine ⟨rfl, fun h => ?_, fun c hlow hhigh => ?_⟩
  · exact (hprev (hv ▸ h)).trans hp.symm
  · rw [hclear] at hlow
    rw [hn] at hhigh
    exact (hlive c hlow hhigh).trans (dictAt_congr hd he c).symm

/-- Where every entry is outside the range read and PREV is the same or not read, the two states are alike. -/
theorem SameLive.of_fresh {s u : State} (heq : u = { s with dict := u.dict, dictEra := u.dictEra, prev := u.prev })
    (hv : s.prevValid = false) (hnext : s.next.toNat ≤ s.clear + 2) : SameLive s u :=
  ⟨heq, fun h => Bool.noConfusion (hv.symm.trans h), fun c hlow hhigh => by omega⟩

theorem lzwInit_next_le (s : State) : (Machine.lzwInit s).next.toNat ≤ s.clear + 2 := by
  rw [lzwInit_next, BitVec.toNat_ofNat]
  exact Nat.mod_le _ _

/-- After `lzw_init` no entry is defined and no previous code (R26). -/
theorem SameLive.lzwInit {s u : State} (h : SameLive s u) : SameLive (lzwInit s) (lzwInit u) := by
  have heq : Machine.lzwInit u =
      { Machine.lzwInit s with dict := u.dict, dictEra := u.dictEra, prev := u.prev } := by rw [h.1]; rfl
  exact .of_fresh heq rfl (lzwInit_next_le s)

/-- PREV is written in both states (R130 to R132). -/
theorem SameLive.setPrev {s u : State} (h : SameLive s u) (c : Code) : SameLive (setPrev c s) (setPrev c u) := by
  obtain ⟨heq, -, hlive⟩ := h
  refine ⟨?_, fun _ => rfl, hlive⟩
  rw [heq]; rfl

theorem SameLive.setFirstPrev {s u : State} (h : SameLive s u) (c : Code) :
    SameLive (setFirstPrev c s) (setFirstPrev c u) := by
  obtain ⟨heq, -, hlive⟩ := h
  refine ⟨?_, fun _ => rfl, hlive⟩
  rw [heq]; rfl

/-- The same entry is added in both states, PREV being defined (R133). -/
theorem SameLive.addEntry {s u : State} (h : SameLive s u) (hv : s.prevValid = true) (k : Byte) :
    SameLive (addEntry k s) (addEntry k u) := by
  obtain ⟨heq, hprev, hlive⟩ := h
  have hnext : u.next = s.next := by rw [heq]
  refine ⟨?_, hprev, fun c hlow hhigh => ?_⟩
  · rw [heq]; rfl
  · have hle : (Machine.addEntry k s).next.toNat ≤ s.next.toNat + 1 := by
      rw [addEntry_next, BitVec.toNat_add]
      exact Nat.mod_le _ _
    rw [dictAt_addEntry, dictAt_addEntry, hnext, hprev hv]
    split
    · rfl
    · exact hlive c hlow (by omega)

/-- After an error the dictionary is new in both states, and PREV is the same free value (R163, U2). -/
theorem SameLive.raise {s u : State} (h : SameLive s u) (e : ErrorKind) : SameLive (raise e s) (raise e u) := by
  have heq : Machine.raise e u = Machine.raise e s := by rw [h.1]; rfl
  rw [heq]
  exact ⟨rfl, fun _ => rfl, fun _ _ _ => rfl⟩

/-- A walk from a defined code reads defined entries only (R36, R37). -/
theorem expand_sameLive {s u : State} (hl : LzwOk s) (h : SameLive s u) {n c : Nat} (hc : c < s.next.toNat)
    (hp : s.plain c) : expand u n c = expand s n c ∧ walkFirst u n c = walkFirst s n c := by
  have hclear : u.clear = s.clear := by rw [h.1]; rfl
  induction n generalizing c with
  | zero => simp only [expand, walkFirst, hclear, and_self]
  | succ n ih =>
    simp only [expand, walkFirst, hclear]
    split
    · exact ⟨rfl, rfl⟩
    · next hhigh =>
      have habove := hp.above (not_lt.mp hhigh)
      obtain ⟨hlt, hplain, -⟩ := hl.dictOk c habove hc
      obtain ⟨hexp, hwalk⟩ := ih (hlt.trans hc) hplain
      rw [h.2.2 c habove hc, hexp, hwalk]
      exact ⟨rfl, rfl⟩

theorem expOf_sameLive {s u : State} (hl : LzwOk s) (h : SameLive s u) {c : Code} (hc : c.toNat < s.next.toNat)
    (hp : s.plain c.toNat) : expOf u c = expOf s c ∧ firstOf u c = firstOf s c := by
  unfold expOf firstOf
  exact expand_sameLive hl h hc hp

/-- Under R138 the codes are blind to what no rule reads. -/
theorem blind_sameLive : Blind (fun s => LzwOk s ∧ dictForm 0 s.dict = true) SameLive where
  keepCode hp h := execCode_lzwOk hp.1 hp.2 h
  keepDrop hp := ⟨hp.1.congr rfl rfl rfl rfl rfl rfl rfl, hp.2⟩
  config h := by rw [h.1]; exact .refl _
  pixcnt h := by rw [h.1]
  m h := by rw [h.1]
  width h := by rw [h.1]
  next h := by rw [h.1]
  prevValid h := by rw [h.1]
  ended h := by rw [h.1]
  acc h := by rw [h.1]
  nbits h := by rw [h.1]
  exps hp h hclass := by
    obtain ⟨hlt, hplain, -⟩ := classify_first_dict (.inr hclass)
    exact expOf_sameLive hp.1 h hlt hplain
  prevs hp h hv := by
    obtain ⟨hlt, hplain⟩ := hp.1.prevOk hv
    rw [h.2.1 hv]
    exact expOf_sameLive hp.1 h hlt hplain
  trace _ h := h.map _ fun _ _ _ => rfl
  count h := h.map _ fun _ _ _ => rfl
  write a v h := h.map (fun s => { s with canvas := s.canvas.write a v, cwTrace := s.cwTrace ++ [(a, v)] })
    fun _ _ _ => rfl
  insert k h hv := insert_rel (fun h => h.map (fun s => { s with width := s.width + 1 }) fun _ _ _ => rfl) h
    (by rw [h.1]) (by rw [h.1]) (h.addEntry hv k)
  setPrev c h := h.setPrev c
  setFirstPrev c h := h.setFirstPrev c
  init h := h.lzwInit
  finish h := h.map (fun s => { s with ended := true }) fun _ _ _ => rfl
  raise h := h.raise _
  drop h := h.map _ fun _ _ _ => rfl
  add b h := h.map _ fun _ _ _ => rfl

/-- Under the invariant a stream byte runs alike in two states that differ only in what no rule reads. -/
theorem SameLive.runByte {s u : State} (h : SameLive s u) (hinv : MachineInv s) (hbusy : s.runState = .busy) (b : Byte) :
    Alike SameLive (runByte b (countByte s)) (Machine.runByte b (countByte u)) := by
  have h' : SameLive (countByte s) (countByte u) := h.map _ fun _ _ _ => rfl
  refine blind_sameLive.runByte b h' (by rw [h'.1])
    (.of_fresh (by rw [h'.1]; rfl) rfl (lzwInit_next_le (setMinCode b (countByte s))))
    (h'.map (fun s => { s with rem := b, fstate := .data }) fun _ _ _ => rfl)
    (h'.map (fun s => { s with runState := .done }) fun _ _ _ => rfl) (h'.map _ fun _ _ _ => rfl) fun hdata _ => ?_
  have hfs : s.fstate ≠ .mcs := fun hmcs => FState.noConfusion (hmcs.symm.trans hdata)
  exact ⟨(hinv.lzwOk (.inl ⟨hbusy, hfs⟩)).congr rfl rfl rfl rfl rfl rfl rfl, hinv.dictTable⟩

/-- Settles O45: under the invariant the byte completes (`runByte_no_stop`), and it runs alike in both states. -/
theorem staleDictionaryIsNeverRead : Obligations.StaleDictionaryIsNeverRead := by
  intro s u b hinv hbusy h
  have hbusy' : u.runState = .busy := by rw [h.1]; exact hbusy
  obtain ⟨t, ht⟩ := exec_completes (.push b) hinv fun hport => by rcases hport with ⟨a, h⟩ | ⟨a, v, h⟩ <;> cases h
  obtain ⟨v, hv, hlive⟩ := (h.runByte hinv hbusy b).outcome_next ((execPush_busy hbusy b).symm.trans ht)
  exact ⟨t, v, ht, (execPush_busy hbusy' b).trans hv, hlive⟩

end Sys2Proof.Machine

/-! ### Decode and encode (R71, R77, R83) -/

namespace Sys2Proof.Machine

/-! #### Codes -/

/-- The special codes fit a code's 12 bits (R76, R138). -/
theorem special_toNat {x : DecodeCtx} (h : x.codesOk = true) :
    (BitVec.ofNat 12 x.clear).toNat = x.clear ∧ (BitVec.ofNat 12 x.endVal).toNat = x.endVal := by
  simp only [DecodeCtx.codesOk, decide_eq_true_eq] at h
  obtain ⟨-, hm, -⟩ := h
  have hclear : x.clear ≤ 2 ^ 8 := Nat.pow_le_pow_right (by decide) hm
  have hend : x.endVal = x.clear + 1 := rfl
  rw [BitVec.toNat_ofNat, BitVec.toNat_ofNat]
  omega

theorem plainCode_ne {x : DecodeCtx} {c : Code} (h : x.plainCode c = true) :
    c.toNat ≠ x.clear ∧ c.toNat ≠ x.endVal := by
  simp only [DecodeCtx.plainCode, decide_eq_true_eq] at h
  exact h.2

/-- A code that is wide enough decodes to the row whose condition it meets (R73, R77). -/
theorem decode_code {x : DecodeCtx} {c : Code} {k : CodeClass} (hlt : c.toNat < 2 ^ x.width.toNat)
    (hrow : CodeRow x c k) : decode x (.code c) = .instr (k.toInstr c) := by
  simp only [decode, if_pos hlt, hrow.classify_eq]

/-! #### Register numbers -/

theorem ofNum_num (r : RegName) : RegSel.ofNum r.num = .reg r := by cases r <;> rfl

/-- A well-formed selector is the one its number selects (R32). -/
theorem ofNum_num_of_wellFormed {r : RegSel} (h : r.wellFormed = true) : RegSel.ofNum r.num = r := by
  cases r with
  | reg r => exact ofNum_num r
  | unmapped n => exact ofNum_of_above (of_decide_eq_true h)

theorem wellFormed_of_ignoresWrites {r : RegSel} (h : r.ignoresWrites = true) : r.wellFormed = true := by
  cases r with
  | reg r => rfl
  | unmapped n => exact h

/-- Every number selects a well-formed selector: a register of the map, or a number above 0x11. -/
theorem ofNum_wellFormed (n : Nat) : (RegSel.ofNum n).wellFormed = true := by
  by_cases h : 0x11 < n
  · rw [ofNum_of_above h]; exact decide_eq_true h
  · interval_cases n <;> rfl

/-- A byte widened to a word keeps its low byte. -/
theorem setWidth_setWidth_byte (b : Byte) : (b.setWidth 32).setWidth 8 = b := by
  apply BitVec.eq_of_toNat_eq
  have := b.isLt
  simp only [BitVec.toNat_setWidth]
  omega

/-- Settles O2: a byte and a host event by the decoder's own row; a code by the condition of its row in the table, which is
what fitting the context says. -/
theorem decodeOfEncodeIsTheInstruction : Obligations.DecodeOfEncodeIsTheInstruction := by
  intro x i hwf hfit
  cases i with
  | mcs b | sbdata b =>
    rw [encode, decode, of_decide_eq_true hfit]; rfl
  | sblen b =>
    have hne : b ≠ 0 := of_decide_eq_true hwf
    rw [encode, decode, of_decide_eq_true hfit, classifyByte, if_neg hne]; rfl
  | sbterm =>
    rw [encode, decode, of_decide_eq_true hfit]; rfl
  | clr => exact decode_code (Laws.EncodeFits.clr x _ hfit rfl) (k := .clr) (special_toNat hfit).1
  | endCode => exact decode_code (Laws.EncodeFits.endCode x _ hfit rfl) (k := .endCode) (special_toNat hfit).2
  | firstCode c =>
    have hwide := Laws.EncodeFits.firstCode c x c hfit rfl
    simp only [Instr.fitsContext, Bool.and_eq_true, Bool.not_eq_true', decide_eq_true_eq] at hfit
    obtain ⟨⟨⟨-, hplain⟩, hprev⟩, hlt⟩ := hfit
    obtain ⟨hclr, hend⟩ := plainCode_ne hplain
    exact decode_code hwide (k := .firstCode) ⟨hclr, hend, hprev, hlt⟩
  | dictCode c =>
    have hwide := Laws.EncodeFits.dictCode c x c hfit rfl
    simp only [Instr.fitsContext, Bool.and_eq_true, decide_eq_true_eq] at hfit
    obtain ⟨⟨⟨-, hplain⟩, hprev⟩, hlt⟩ := hfit
    obtain ⟨hclr, hend⟩ := plainCode_ne hplain
    exact decode_code hwide (k := .dictCode) ⟨hclr, hend, hprev, hlt⟩
  | kwkwk c =>
    have hwide := Laws.EncodeFits.kwkwk c x c hfit rfl
    simp only [Instr.fitsContext, Bool.and_eq_true, decide_eq_true_eq] at hfit
    obtain ⟨⟨⟨-, hplain⟩, hprev⟩, hnext⟩ := hfit
    obtain ⟨hclr, hend⟩ := plainCode_ne hplain
    exact decode_code hwide (k := .kwkwk) ⟨hclr, hend, hprev, hnext⟩
  | bad c =>
    have hwide := Laws.EncodeFits.bad c x c hfit rfl
    simp only [Instr.fitsContext, Bool.and_eq_true, Bool.or_eq_true, Bool.not_eq_true', decide_eq_true_eq] at hfit
    obtain ⟨⟨-, hplain⟩, habove⟩ := hfit
    obtain ⟨hclr, hend⟩ := plainCode_ne hplain
    exact decode_code hwide (k := .bad) ⟨hclr, hend, habove⟩
  | start | eos | reset | hardreset => rfl
  | cmdReserved v =>
    obtain ⟨h1, h2, h3⟩ := of_decide_eq_true hwf
    show Decoded.instr (decodeCommand ((v.setWidth 32).setWidth 8)) = _
    rw [setWidth_setWidth_byte, decodeCommand_reserved h1 h2 h3]
  | push b => exact congrArg (Decoded.instr ∘ Instr.push) (setWidth_setWidth_byte b)
  | cfgwrite r v => exact congrArg Decoded.instr (decodeEvent_cfgReg r v)
  | rowrite r v =>
    show Decoded.instr (decodeRegWrite (RegSel.ofNum r.num) v) = _
    rw [ofNum_num_of_wellFormed (wellFormed_of_ignoresWrites hwf), decodeRegWrite_of_ignoresWrites hwf]
  | regread r => exact congrArg (Decoded.instr ∘ Instr.regread) (ofNum_num_of_wellFormed hwf)
  | canvasread a => rfl
  | canvaswrite a v => exact congrArg (Decoded.instr ∘ Instr.canvaswrite a) (setWidth_setWidth_byte v)

/-! #### What is decoded -/

theorem decodeCommand_wellFormed (v : Byte) : (decodeCommand v).wellFormed = true := by
  unfold decodeCommand
  split
  · rfl
  · split
    · rfl
    · split
      · rfl
      · next h1 h2 h3 => exact decide_eq_true ⟨h1, h2, h3⟩

theorem decodeRegWrite_wellFormed {r : RegSel} (h : r.wellFormed = true) (v : Word) :
    (decodeRegWrite r v).wellFormed = true := by
  cases r with
  | unmapped n => exact h
  | reg r =>
    cases r with
    | cmd => exact decodeCommand_wellFormed _
    | _ => rfl

/-- Every host event decodes to a well-formed instruction (R83, R90). -/
theorem decodeEvent_wellFormed (e : HostEvent) : (decodeEvent e).wellFormed = true := by
  cases e with
  | regWrite n v => exact decodeRegWrite_wellFormed (ofNum_wellFormed n) v
  | regRead n => exact ofNum_wellFormed n
  | hardReset | canvasRead _ | canvasWrite _ _ => rfl

/-- The rows of R90 stand in every context. -/
theorem HostInstr.fitsContext {i : Instr} (h : HostInstr i) (x : DecodeCtx) : i.fitsContext x = true := by
  cases h <;> rfl

/-- A byte decodes to a well-formed item of its context (R71, R112). -/
theorem byteItem_wellFormed (x : DecodeCtx) (b : Byte) :
    ((classifyByte x.fstate b).toInstr b).wellFormed = true ∧
      ((classifyByte x.fstate b).toInstr b).fitsContext x = true := by
  cases hfs : x.fstate with
  | mcs => exact ⟨rfl, decide_eq_true hfs⟩
  | data => exact ⟨rfl, decide_eq_true hfs⟩
  | len =>
    by_cases hzero : b = 0
    · simp only [classifyByte, if_pos hzero]
      exact ⟨rfl, decide_eq_true hfs⟩
    · simp only [classifyByte, if_neg hzero]
      exact ⟨decide_eq_true hzero, decide_eq_true hfs⟩

/-- A code decodes to a well-formed instruction of its context where the LZW registers have the ranges of R138 and R24. -/
theorem codeItem_wellFormed {x : DecodeCtx} {c : Code} (hok : x.codesOk = true)
    (hfresh : x.prevValid = false → x.next.toNat = x.clear + 2) (hlt : c.toNat < 2 ^ x.width.toNat) :
    ((classify x c).toInstr c).wellFormed = true ∧ ((classify x c).toInstr c).fitsContext x = true := by
  have hranges := hok
  simp only [DecodeCtx.codesOk, decide_eq_true_eq] at hranges
  obtain ⟨hm2, hm8, -, -, hnext, -⟩ := hranges
  have h4 : 2 ^ 2 ≤ x.clear := Nat.pow_le_pow_right (by decide) hm2
  have h256 : x.clear ≤ 2 ^ 8 := Nat.pow_le_pow_right (by decide) hm8
  have hend : x.endVal = x.clear + 1 := rfl
  have hplain (hclr : c.toNat ≠ x.clear) (hne : c.toNat ≠ x.endVal) : x.plainCode c = true :=
    decide_eq_true ⟨hlt, hclr, hne⟩
  have hrow := codeRow_classify x c
  cases hk : classify x c <;> rw [hk] at hrow
  case clr => exact ⟨rfl, hok⟩
  case endCode => exact ⟨rfl, hok⟩
  case firstCode =>
    obtain ⟨hclr, hne, hprev, hbelow⟩ := hrow
    have hnext' := hfresh hprev
    exact ⟨decide_eq_true (by omega),
      by simp [CodeClass.toInstr, Instr.fitsContext, hok, hplain hclr hne, hprev, hbelow]⟩
  case dictCode =>
    obtain ⟨hclr, hne, hprev, hbelow⟩ := hrow
    exact ⟨rfl, by simp [CodeClass.toInstr, Instr.fitsContext, hok, hplain hclr hne, hprev, hbelow]⟩
  case kwkwk =>
    obtain ⟨hclr, hne, hprev, heq⟩ := hrow
    exact ⟨decide_eq_true (by omega),
      by simp [CodeClass.toInstr, Instr.fitsContext, hok, hplain hclr hne, hprev, heq]⟩
  case bad =>
    obtain ⟨hclr, hne, habove⟩ := hrow
    exact ⟨decide_eq_true (by omega), by simp [CodeClass.toInstr, Instr.fitsContext, hok, hplain hclr hne, habove]⟩

/-- Settles O3: one lemma for each kind of raw item. -/
theorem decodedItemsAreWellFormed : Obligations.DecodedItemsAreWellFormed := by
  intro x raw i hcode h
  cases raw with
  | byte b => cases h; exact byteItem_wellFormed x b
  | event e => cases h; exact ⟨decodeEvent_wellFormed e, (decodeEvent_hostInstr e).fitsContext x⟩
  | code c =>
    obtain ⟨hok, hfresh⟩ := hcode c rfl
    simp only [decode] at h
    split at h
    · next hlt => cases h; exact codeItem_wellFormed hok hfresh hlt
    · cases h

end Sys2Proof.Machine

/-! ### The canvas after a run of indices (R146 to R149, R155) -/

namespace Sys2Proof.Machine

/-! #### Where the writes of a run of indices go -/

/-- A cell that the list writes, always with the same value, holds that value afterwards. -/
theorem Memory.read_writeAll_mem (ws : List (Nat × Byte)) {m : Memory} (hm : m.wf = true) {a : Nat} {v : Byte}
    (hmem : (a, v) ∈ ws) (hall : ∀ w ∈ ws, w.1 = a → w.2 = v) : (m.writeAll ws).read a = v := by
  induction ws generalizing m with
  | nil => cases hmem
  | cons w ws ih =>
    rw [Memory.writeAll_cons]
    by_cases hlater : ∃ x ∈ ws, x.1 = a
    · obtain ⟨x, hx, hxa⟩ := hlater
      have hxv := hall x (.tail _ hx) hxa
      refine ih (Memory.wf_write hm w.1 w.2) ?_ fun y hy => hall y (.tail _ hy)
      rw [← hxa, ← hxv]
      exact hx
    · have hw : w = (a, v) := by
        rcases List.mem_cons.mp hmem with h | h
        · exact h.symm
        · exact absurd ⟨_, h, rfl⟩ hlater
      rw [Memory.read_writeAll_other ws (Memory.wf_write hm w.1 w.2) a fun x hx hxa => hlater ⟨x, hx, hxa⟩,
        Memory.read_write hm, hw, if_pos rfl]

/-- The writes of a run of indices, the first of them index number `n`: one for each index that is not transparent. -/
theorem mem_blitWrites {s : State} {n : Nat} {ix : List Byte} {w : Nat × Byte} :
    w ∈ s.blitWrites n ix ↔
      ∃ j v, ix[j]? = some v ∧ s.transparent v = false ∧ w = (s.indexAddr (n + j), v) := by
  induction ix generalizing n with
  | nil => simp [State.blitWrites]
  | cons u us ih =>
    have hcons : w ∈ s.blitWrites n (u :: us) ↔
        s.transparent u = false ∧ w = (s.indexAddr n, u) ∨ w ∈ s.blitWrites (n + 1) us := by
      simp only [State.blitWrites]
      cases htr : s.transparent u <;> simp
    rw [hcons, ih]
    constructor
    · rintro (⟨htr, rfl⟩ | ⟨j, v, hv, htr, rfl⟩)
      · exact ⟨0, u, rfl, htr, rfl⟩
      · exact ⟨j + 1, v, hv, htr, by rw [Nat.add_assoc, Nat.add_comm 1]⟩
    · rintro ⟨j, v, hv, htr, rfl⟩
      cases j with
      | zero => cases hv; exact .inl ⟨htr, rfl⟩
      | succ j => exact .inr ⟨j, v, hv, htr, by rw [Nat.add_assoc, Nat.add_comm 1]⟩

/-- A cell that no index of the run is drawn at keeps its value. -/
theorem accept_read_other {s : State} {ix : List Byte} (hwf : s.canvas.wf = true) {a : Nat}
    (h : ∀ j v, ix[j]? = some v → s.transparent v = false → s.indexAddr (s.pixcnt.toNat + j) ≠ a) :
    (s.accept ix).canvas.read a = s.canvas.read a := by
  rw [State.accept_canvas]
  refine Memory.read_writeAll_other _ hwf a fun w hw => ?_
  obtain ⟨j, v, hv, htr, rfl⟩ := mem_blitWrites.mp hw
  exact h j v hv htr

theorem lt_length_of_getElem? {α : Type} {l : List α} {j : Nat} {v : α} (h : l[j]? = some v) : j < l.length :=
  (List.getElem?_eq_some_iff.mp h).1

section
variable {s : State} {ix : List Byte} (hf : FrameOk s) (hroom : s.pixcnt.toNat + ix.length ≤ s.framePixels)
include hf hroom

/-- Within a run no two indices go to the same cell (R150). -/
theorem run_indexAddr_injective {i j : Nat} (hi : i < ix.length) (hj : j < ix.length)
    (e : s.indexAddr (s.pixcnt.toNat + i) = s.indexAddr (s.pixcnt.toNat + j)) : i = j :=
  Nat.add_left_cancel (indexAddr_injective hf (by omega) (by omega) e)

/-- The cell of an index accepted earlier keeps its value (R150). -/
theorem accept_read_earlier (hwf : s.canvas.wf = true) {n : Nat} (hn : n < s.pixcnt.toNat) :
    (s.accept ix).canvas.read (s.indexAddr n) = s.canvas.read (s.indexAddr n) := by
  refine accept_read_other hwf fun j v hv _ haddr => ?_
  have hj := lt_length_of_getElem? hv
  have hsame := indexAddr_injective hf (by omega) (by omega) haddr
  omega

/-- The cell of an index that is not transparent holds it (R146). -/
theorem accept_read_drawn (hwf : s.canvas.wf = true) {j : Nat} {v : Byte} (hv : ix[j]? = some v)
    (htr : s.transparent v = false) : (s.accept ix).canvas.read (s.indexAddr (s.pixcnt.toNat + j)) = v := by
  rw [State.accept_canvas]
  refine Memory.read_writeAll_mem _ hwf (mem_blitWrites.mpr ⟨j, v, hv, htr, rfl⟩) fun w hw haddr => ?_
  obtain ⟨i, u, hu, -, rfl⟩ := mem_blitWrites.mp hw
  have hij := run_indexAddr_injective hf hroom (lt_length_of_getElem? hu) (lt_length_of_getElem? hv) haddr
  rw [hij, hv] at hu
  exact (Option.some.inj hu).symm

/-- The cell of a transparent index keeps its value (R148). -/
theorem accept_read_transparent (hwf : s.canvas.wf = true) {j : Nat} {v : Byte} (hv : ix[j]? = some v)
    (htr : s.transparent v = true) : (s.accept ix).canvas.read (s.indexAddr (s.pixcnt.toNat + j)) =
      s.canvas.read (s.indexAddr (s.pixcnt.toNat + j)) := by
  refine accept_read_other hwf fun i u hu hopaque haddr => ?_
  have hij := run_indexAddr_injective hf hroom (lt_length_of_getElem? hu) (lt_length_of_getElem? hv) haddr
  rw [hij, hv] at hu
  cases hu
  exact Bool.noConfusion (htr.symm.trans hopaque)

end

/-- Settles O34: the cells of the run by `accept_read_transparent` and `accept_read_drawn`, every other by
`accept_read_other`. -/
theorem acceptedIndicesStandInTheCanvas : Obligations.AcceptedIndicesStandInTheCanvas := by
  intro s ix hf hwf hroom
  refine ⟨fun j v hv => ?_, fun a ha => accept_read_other hwf fun j v hv _ => ha j (lt_length_of_getElem? hv)⟩
  split
  · next htr => exact accept_read_transparent hf hroom hwf hv htr
  · next htr => exact accept_read_drawn hf hroom hwf hv (eq_false_of_ne_true htr)

/-- Settles O48: an index of the frame has a column and a row of the frame, and those are pixels of the canvas. -/
theorem everyPixelAddressIsInTheCanvas : Obligations.EveryPixelAddressIsInTheCanvas := fun _ _ hf hn =>
  ⟨(pixelAddr_lt hf (colOf_lt hn) (rowOf_lt hn)).1, Nat.mul_le_mul hf.wide hf.high⟩

/-! #### What the events that run codes deliver (R95, R114, R130 to R132) -/

/-- Whether a flow returns or raises, it has delivered some indices. -/
theorem EndsIn.delivered {s t : State} {P : List Byte → State → Prop} {x : Flow} (h : EndsIn s P x)
    (ht : x.outcome = .next t) : ∃ ix, Delivered ix s t := by
  rcases h with ⟨ix, u, rfl, hran, -⟩ | ⟨ix, u, rfl, hran⟩ | ⟨f, rfl⟩
  · cases ht; exact ⟨ix, hran.delivered⟩
  · cases ht; exact ⟨ix, hran.delivered.raise _⟩
  · cases ht

theorem runByte_delivered {b : Byte} {s t : State} (h : (runByte b s).outcome = .next t) : ∃ ix, Delivered ix s t := by
  rcases runByte_ends b s with ⟨ix, u, hu, hdel, -⟩ | ⟨ix, u, hu, hdel⟩ | ⟨f, hf⟩
  · rw [hu] at h; cases h; exact ⟨ix, hdel⟩
  · rw [hu] at h; cases h; exact ⟨ix, hdel.raise _⟩
  · rw [hf] at h; cases h

theorem execSbdata_delivered {b : Byte} {s t : State} (h : execSbdata b s = .next t) : ∃ ix, Delivered ix s t := by
  by_cases hended : s.ended = true
  · cases (execSbdata_ended hended b).symm.trans h
    exact ⟨[], countData_delivered s⟩
  · obtain ⟨ix, hdel⟩ := (feed_ends b (countData s)).delivered
      ((execSbdata_not_ended (eq_false_of_ne_true hended) b).symm.trans h)
    exact ⟨ix, hdel.from_other (SameConfig.refl s) ⟨rfl, rfl⟩ rfl ⟨rfl, rfl, rfl, rfl⟩⟩

/-- POS is not the BLIT stage's: it may be counted before the indices are delivered. -/
theorem Delivered.withPos {ix : List Byte} {s t : State} (h : Delivered ix s t) (p : BitVec 32) :
    Delivered ix { s with pos := p } { t with pos := p } := by
  have hb := blitWrites_congr (s := s) (t := { s with pos := p }) (SameConfig.refl s)
  refine ⟨h.config, h.host, rfl, h.idxTrace, ?_, ?_, h.pixcnt, h.room⟩
  · rw [State.accept_cwTrace, hb]; exact h.cwTrace
  · rw [State.accept_canvas, hb]; exact h.canvas

/-- A PUSH delivers the indices of its byte, and counts it in POS; outside BUSY it delivers none (R95). -/
theorem execPush_delivered {b : Byte} {s t : State} (h : execPush b s = .next t) :
    ∃ ix, Delivered ix s { t with pos := s.pos } := by
  unfold execPush at h
  split at h
  · obtain ⟨ix, hdel⟩ := runByte_delivered h
    exact ⟨ix, hdel.withPos s.pos⟩
  · cases h
    exact ⟨[], .nil (SameConfig.refl s) ⟨rfl, rfl⟩ rfl ⟨rfl, rfl, rfl, rfl⟩⟩

/-- Delivering indices changes only their own cells, and PIXCNT does not decrease. -/
theorem Delivered.changes_only_pixels {ix : List Byte} {s t : State} (h : Delivered ix s t) (hwf : s.canvas.wf = true) :
    t.canvas.wf = true ∧ s.pixcnt.toNat ≤ t.pixcnt.toNat ∧
      ∀ a, (∀ n, s.pixcnt.toNat ≤ n → n < t.pixcnt.toNat → s.indexAddr n ≠ a) → t.canvas.read a = s.canvas.read a := by
  have hcount := h.pixcnt_toNat
  refine ⟨?_, by omega, fun a ha => ?_⟩
  · rw [h.canvas, State.accept_canvas]
    exact Memory.wf_writeAll _ hwf
  · rw [h.canvas]
    refine accept_read_other hwf fun j v hv _ => ha _ (Nat.le_add_right _ j) ?_
    have := lt_length_of_getElem? hv
    omega

/-- Settles O42: each of the five delivers some indices, PUSH with POS counted beside. -/
theorem codesChangeOnlyTheirPixels : Obligations.CodesChangeOnlyTheirPixels := by
  intro s t i hwf hi ht
  have hcode (h : ∃ ix, Delivered ix s t) :
      (∃ ix, Delivered ix s { t with pos := s.pos }) ∧ ((∀ b, i ≠ .push b) → t.pos = s.pos) := by
    obtain ⟨ix, hdel⟩ := h
    exact ⟨⟨ix, hdel.withPos s.pos⟩, fun _ => hdel.pos⟩
  obtain ⟨⟨ix, hdel⟩, hpos⟩ :
      (∃ ix, Delivered ix s { t with pos := s.pos }) ∧ ((∀ b, i ≠ .push b) → t.pos = s.pos) := by
    rcases hi with ⟨c, rfl⟩ | ⟨c, rfl⟩ | ⟨c, rfl⟩ | ⟨b, rfl⟩ | ⟨b, rfl⟩
    · exact hcode ((doFirst_ends c s).delivered ht)
    · exact hcode ((doDict_ends c s).delivered ht)
    · exact hcode ((doKwkwk_ends c s).delivered ht)
    · exact hcode (execSbdata_delivered ht)
    · exact ⟨execPush_delivered ht, fun hother => absurd rfl (hother b)⟩
  exact ⟨hdel.config, hdel.host, hpos, hdel.changes_only_pixels hwf⟩

/-- Settles O43: the indices are those that the PUSH delivers. -/
theorem pushIsTheBlitOfItsIndices : Obligations.PushIsTheBlitOfItsIndices := by
  intro s t b ht
  obtain ⟨ix, hdel⟩ := execPush_delivered ht
  exact ⟨ix, hdel.idxTrace, hdel.pixcnt_toNat, hdel.cwTrace, hdel.canvas⟩

/-! #### A frame as drawn (R155) -/

/-- Where an index goes depends on the configuration only (R147, R148). -/
theorem SameConfig.indexAddr {s t : State} (h : SameConfig s t) (n : Nat) : t.indexAddr n = s.indexAddr n := by
  obtain ⟨hcw, -, hx, hy, hw, hh, hil, -⟩ := h
  simp only [State.indexAddr, State.pixelAddr, State.colOf, State.rowOf, hcw, hx, hy, hw, hh, hil]

theorem SameConfig.transparent {s t : State} (h : SameConfig s t) (v : Byte) : t.transparent v = s.transparent v := by
  obtain ⟨-, -, -, -, -, -, -, hen, hidx, -⟩ := h
  simp only [State.transparent, hen, hidx]

theorem SameConfig.drawsAt {s t : State} (h : SameConfig s t) (ix : List Byte) (a n : Nat) :
    t.drawsAt ix a n ↔ s.drawsAt ix a n := by
  simp only [State.drawsAt, h.indexAddr, h.transparent]

/-- Delivering indices keeps a frame as drawn: the new indices go to cells of their own (R150, R155). -/
theorem FrameDrawn.deliver {c0 : Memory} {t0 ix : List Byte} {s t : State} (hdrawn : FrameDrawn c0 t0 s)
    (hdel : Delivered ix s t) (hf : FrameOk s) (hwf : s.canvas.wf = true) : FrameDrawn c0 t0 t := by
  obtain ⟨jx, htrace, hlen, hcells, hothers⟩ := hdrawn
  have hroom : s.pixcnt.toNat + ix.length ≤ s.framePixels := by
    have := (hdel.frameOk hf).count
    rwa [hdel.config.framePixels, hdel.pixcnt_toNat] at this
  have hold {n : Nat} {v : Byte} (hv : jx[n]? = some v) : (jx ++ ix)[n]? = some v := by
    rw [List.getElem?_append_left (lt_length_of_getElem? hv), hv]
  have hnew {j : Nat} {v : Byte} (hv : ix[j]? = some v) : (jx ++ ix)[s.pixcnt.toNat + j]? = some v := by
    rw [← hlen, List.getElem?_append_right (Nat.le_add_right _ j), Nat.add_sub_cancel_left, hv]
  refine ⟨jx ++ ix, ?_, ?_, fun a n v hv ha htr => ?_, fun a ha => ?_⟩
  · rw [hdel.idxTrace, State.accept_idxTrace, htrace, List.append_assoc]
  · rw [List.length_append, hlen, hdel.pixcnt_toNat]
  · rw [hdel.config.indexAddr] at ha
    rw [hdel.config.transparent] at htr
    rw [hdel.canvas, ← ha]
    rcases lt_or_ge n jx.length with hn | hn
    · rw [List.getElem?_append_left hn] at hv
      rw [accept_read_earlier hf hroom hwf (hlen ▸ hn)]
      exact hcells _ n v hv rfl htr
    · rw [List.getElem?_append_right hn] at hv
      have hcell := accept_read_drawn hf hroom hwf hv htr
      rwa [← hlen, Nat.add_sub_cancel' hn] at hcell
  · simp only [hdel.config.drawsAt] at ha
    rw [hdel.canvas, accept_read_other hwf fun j v hv htr haddr => ha _ ⟨v, hnew hv, haddr, htr⟩]
    exact hothers a fun n ⟨v, hv, haddr, htr⟩ => ha n ⟨v, hold hv, haddr, htr⟩

/-- Only an accepted START of a frame leads from IDLE or DONE to BUSY, with nothing drawn (R94). -/
theorem execStart_frameDrawn {s t : State} (hready : s.runState = .idle ∨ s.runState = .done)
    (h : execStart s = .next t) (hbusy : t.runState = .busy) : FrameDrawn s.canvas s.idxTrace t := by
  rcases execStart_outcomes hready h with ⟨-, rfl⟩ | ⟨-, rfl⟩ | rfl
  · cases hbusy
  · cases hbusy
  · exact ⟨[], (List.append_nil _).symm, rfl, fun a n v hv => absurd hv (by simp), fun a _ => rfl⟩

/-- A PUSH makes a frame DONE by the terminator after END only, when the frame is full (R113, R129). -/
theorem execPush_done_full {b : Byte} {s t : State} (hinv : MachineInv s) (hbusy : s.runState = .busy)
    (h : execPush b s = .next t) (hdone : t.runState = .done) : t.pixcnt.toNat = t.framePixels := by
  rw [execPush_busy hbusy b] at h
  rcases runByte_ends b (countByte s) with ⟨ix, u, hu, -, hgoes⟩ | ⟨ix, u, hu, -⟩ | ⟨f, hf⟩
  · rw [hu] at h; cases h
    rcases hgoes.run with hsame | ⟨rfl, -, -, hended⟩
    · rw [hsame.1, countByte_runState, hbusy] at hdone
      cases hdone
    · exact frameFull_iff.mp (hinv.endedFull hbusy hended)
  · rw [hu] at h; cases h; cases hdone
  · rw [hf] at h; cases h

/-- Settles O49: START begins with nothing drawn, and a PUSH delivers indices of the frame. -/
theorem frameIsDrawnFromItsIndices : Obligations.FrameIsDrawnFromItsIndices := by
  refine ⟨fun s t hready ht hbusy => execStart_frameDrawn hready ht hbusy,
    fun c0 t0 s b t hinv hbusy hdrawn ht => ⟨?_, execPush_done_full hinv hbusy ht⟩⟩
  obtain ⟨ix, hdel⟩ := execPush_delivered ht
  have hkept : FrameDrawn c0 t0 { t with pos := s.pos } :=
    hdrawn.deliver hdel (hinv.busyFrame hbusy) hinv.canvasForm
  exact hkept

end Sys2Proof.Machine

/-! ### The bits of the stream (R55, R74, R115, R116) -/

namespace Sys2Proof.Machine

/-- A code's bits below WIDTH are the accumulator's (R74). -/
theorem nextCode_getLsbD {s : State} (h12 : s.width.toNat ≤ 12) {j : Nat} (hj : j < s.width.toNat) :
    (nextCode s).getLsbD j = s.acc.getLsbD j := by
  have hj12 : j < 12 := by omega
  rw [nextCode, BitVec.getLsbD_ofNat, Nat.testBit_mod_two_pow, BitVec.testBit_toNat, decide_eq_true hj,
    decide_eq_true hj12, Bool.true_and, Bool.true_and]

theorem nextCode_lt (s : State) : (nextCode s).toNat < 2 ^ s.width.toNat := by
  rw [nextCode, BitVec.toNat_ofNat]
  exact (Nat.mod_le _ _).trans_lt (Nat.mod_lt _ (Nat.two_pow_pos _))

theorem dropCode_nbits_toNat {s : State} (h : s.width.toNat ≤ s.nbits.toNat) :
    (dropCode s).nbits.toNat = s.nbits.toNat - s.width.toNat := by
  rw [dropCode_nbits, BitVec.toNat_sub, BitVec.toNat_setWidth]
  omega

/-- Settles O28: a fetch divides the bits waiting at WIDTH: the code takes those below, `dropCode` keeps the others. -/
theorem fetchTakesTheOldestBits : Obligations.FetchTakesTheOldestBits := by
  intro s h12 hle _
  have hsplit : s.waiting = codeBits s.width.toNat (nextCode s) ++ (dropCode s).waiting := by
    obtain ⟨r, hr⟩ := Nat.exists_eq_add_of_le hle
    have hdrop : (dropCode s).nbits.toNat = r := by rw [dropCode_nbits_toNat hle]; omega
    rw [State.waiting, State.waiting, codeBits, hdrop, hr, List.range_add, List.map_append, List.map_map]
    congr 1
    · exact List.map_congr_left fun j hj => (nextCode_getLsbD h12 (List.mem_range.mp hj)).symm
    · exact List.map_congr_left fun j _ => (BitVec.getLsbD_ushiftRight s.acc s.width.toNat j).symm
  have hlen : (codeBits s.width.toNat (nextCode s)).length = s.width.toNat := by
    rw [codeBits, List.length_map, List.length_range]
  refine ⟨?_, nextCode_lt s, ?_⟩
  · rw [hsplit, List.take_left' hlen]
  · rw [hsplit, List.drop_left' hlen]

/-- The accumulator's bits after a byte: the old ones, and the byte's above them (R115). -/
theorem addByte_getLsbD_low (b : Byte) {s : State} {j : Nat} (hj : j < s.nbits.toNat) :
    (addByte b s).acc.getLsbD j = s.acc.getLsbD j := by
  rw [addByte_acc, BitVec.getLsbD_or, BitVec.getLsbD_shiftLeft, decide_eq_true hj]
  simp

theorem addByte_getLsbD_high (b : Byte) {s : State} (hn : s.nbits.toNat ≤ 11) (ha : s.acc.toNat < 2 ^ s.nbits.toNat)
    {j : Nat} (hj : j < 8) : (addByte b s).acc.getLsbD (s.nbits.toNat + j) = b.getLsbD j := by
  have hold : s.acc.getLsbD (s.nbits.toNat + j) = false := by
    rw [← BitVec.testBit_toNat]
    exact Nat.testBit_lt_two_pow (ha.trans_le (Nat.pow_le_pow_right (by decide) (Nat.le_add_right _ j)))
  rw [addByte_acc, BitVec.getLsbD_or, hold, BitVec.getLsbD_shiftLeft, BitVec.getLsbD_setWidth, Nat.add_sub_cancel_left,
    decide_eq_true (show s.nbits.toNat + j < 19 by omega),
    decide_eq_false (show ¬ s.nbits.toNat + j < s.nbits.toNat by omega), decide_eq_true (show j < 19 by omega)]
  rfl

/-- Settles O27: `addByte` is what `feed` does before the fetch loop. -/
theorem feedAppendsTheBitsOfTheByte : Obligations.FeedAppendsTheBitsOfTheByte := by
  intro s b hn ha
  obtain ⟨hnbits, -, -⟩ := addByte_bits hn ha b
  refine ⟨addByte b s, rfl, hnbits, ?_, rfl⟩
  rw [State.waiting, State.waiting, byteBits, hnbits, List.range_add, List.map_append, List.map_map]
  congr 1
  · exact List.map_congr_left fun j hj => addByte_getLsbD_low b (List.mem_range.mp hj)
  · exact List.map_congr_left fun j hj => addByte_getLsbD_high b hn ha (List.mem_range.mp hj)

end Sys2Proof.Machine

/-! ### The row cursor (R152) -/

namespace Sys2Proof.Machine

/-- A row of the frame stops the search for a pass (R152). -/
theorem skipPasses_of_lt {h : Nat} {p : RowCursor} (hrow : p.row < h) (n : Nat) : skipPasses h n p = p := by
  cases n with
  | zero => rfl
  | succ n => exact if_neg fun hskip => hskip.1.not_gt hrow

/-- A frame that is not interlaced has no pass to go on to (R152). -/
theorem skipPasses_of_no_pass {h : Nat} {p : RowCursor} (hpass : p.pass = 0) (n : Nat) : skipPasses h n p = p := by
  cases n with
  | zero => rfl
  | succ n => exact if_neg fun hskip => by omega

/-! A row past the frame leads to the first row of the next pass (R152). -/
section
variable {h row : Nat} (hrow : h ≤ row) (col n : Nat)
include hrow

theorem skipPasses_pass_one : skipPasses h (n + 1) { col := col, pass := 1, row := row } =
    skipPasses h n { col := col, pass := 2, row := 4 } :=
  if_pos ⟨hrow, (by decide : 1 ≤ 1), (by decide : 1 < 4)⟩

theorem skipPasses_pass_two : skipPasses h (n + 1) { col := col, pass := 2, row := row } =
    skipPasses h n { col := col, pass := 3, row := 2 } :=
  if_pos ⟨hrow, (by decide : 1 ≤ 2), (by decide : 2 < 4)⟩

theorem skipPasses_pass_three : skipPasses h (n + 1) { col := col, pass := 3, row := row } =
    skipPasses h n { col := col, pass := 4, row := 1 } :=
  if_pos ⟨hrow, (by decide : 1 ≤ 3), (by decide : 3 < 4)⟩

end

/-- The pass and the row of each decoded row, by the number of rows of the passes before it (R150). -/
theorem ilrow_cases (k h : Nat) :
    (k < (h + 7) / 8 ∧ rowPass (ilrow k h) = 1 ∧ ilrow k h = 8 * k) ∨
      ((h + 7) / 8 ≤ k ∧ k < (h + 7) / 8 + (h + 3) / 8 ∧ rowPass (ilrow k h) = 2 ∧
        ilrow k h = 8 * (k - (h + 7) / 8) + 4) ∨
      ((h + 7) / 8 + (h + 3) / 8 ≤ k ∧ k < (h + 7) / 8 + (h + 3) / 8 + (h + 1) / 4 ∧ rowPass (ilrow k h) = 3 ∧
        ilrow k h = 4 * (k - (h + 7) / 8 - (h + 3) / 8) + 2) ∨
      ((h + 7) / 8 + (h + 3) / 8 + (h + 1) / 4 ≤ k ∧ rowPass (ilrow k h) = 4 ∧
        ilrow k h = 2 * (k - (h + 7) / 8 - (h + 3) / 8 - (h + 1) / 4) + 1) := by
  rw [rowPass_ilrow]
  simp only [ilrow]
  split_ifs <;> omega

/-- At the end of a row the cursor goes to the pass and the row of the next decoded row: on by the pass's step, or to the
first row of the next pass that has one (R150, R152). -/
theorem skipPasses_ilrow {k h : Nat} (hk : k + 1 < h) :
    skipPasses h 3 { col := 0, pass := rowPass (ilrow k h), row := ilrow k h + passStep (rowPass (ilrow k h)) } =
      { col := 0, pass := rowPass (ilrow (k + 1) h), row := ilrow (k + 1) h } := by
  have hnext := ilrow_cases (k + 1) h
  rcases ilrow_cases k h with ⟨hin, hpass, hrow⟩ | ⟨hlow, hin, hpass, hrow⟩ | ⟨hlow, hin, hpass, hrow⟩ |
      ⟨hlow, hpass, hrow⟩ <;>
    rw [hpass, hrow] <;> simp only [passStep]
  · by_cases hfits : 8 * k + 8 < h
    · rw [skipPasses_of_lt hfits, RowCursor.mk.injEq]
      omega
    rw [skipPasses_pass_one (not_lt.mp hfits)]
    by_cases h4 : 4 < h
    · rw [skipPasses_of_lt h4, RowCursor.mk.injEq]
      omega
    rw [skipPasses_pass_two (not_lt.mp h4)]
    by_cases h2 : 2 < h
    · rw [skipPasses_of_lt h2, RowCursor.mk.injEq]
      omega
    rw [skipPasses_pass_three (not_lt.mp h2), skipPasses, RowCursor.mk.injEq]
    omega
  · by_cases hfits : 8 * (k - (h + 7) / 8) + 4 + 8 < h
    · rw [skipPasses_of_lt hfits, RowCursor.mk.injEq]
      omega
    rw [skipPasses_pass_two (not_lt.mp hfits), skipPasses_of_lt (show 2 < h by omega),
      RowCursor.mk.injEq]
    omega
  · by_cases hfits : 4 * (k - (h + 7) / 8 - (h + 3) / 8) + 2 + 4 < h
    · rw [skipPasses_of_lt hfits, RowCursor.mk.injEq]
      omega
    rw [skipPasses_pass_three (not_lt.mp hfits), skipPasses_of_lt (show 1 < h by omega),
      RowCursor.mk.injEq]
    omega
  · rw [skipPasses_of_lt (show 2 * (k - (h + 7) / 8 - (h + 3) / 8 - (h + 1) / 4) + 1 + 2 < h by omega),
      RowCursor.mk.injEq]
    omega

/-- The cursor that the closed form of `position` (R147) gives for index number `n`, with the pass of its row. -/
def RowCursor.closed (w h : Nat) (interlace : Bool) (n : Nat) : RowCursor :=
  if interlace then { col := n % w, pass := rowPass (ilrow (n / w) h), row := ilrow (n / w) h }
  else { col := n % w, pass := 0, row := n / w }

theorem RowCursor.closed_zero {h : Nat} (hh : 0 < h) (w : Nat) (interlace : Bool) :
    RowCursor.closed w h interlace 0 = RowCursor.start interlace := by
  have hfirst := ilrow_cases 0 h
  cases interlace with
  | false => simp [RowCursor.closed, RowCursor.start]
  | true =>
    simp only [RowCursor.closed, RowCursor.start, if_true, Nat.zero_mod, Nat.zero_div]
    rw [RowCursor.mk.injEq]
    omega

/-- One index further the closed form moves as the incremental one does (R152). -/
theorem RowCursor.closed_succ {w h n : Nat} (hn : n + 1 < w * h) (interlace : Bool) :
    (RowCursor.closed w h interlace n).advance w h = RowCursor.closed w h interlace (n + 1) := by
  have hw : 0 < w := Nat.pos_of_mul_pos_right (Nat.zero_lt_of_lt hn)
  have hrow : (n + 1) / w < h := Nat.div_lt_of_lt_mul hn
  have hsplit : w * (n / w) + n % w = n := Nat.div_add_mod n w
  by_cases hend : n % w + 1 = w
  · obtain ⟨hdiv, hmod⟩ : (n + 1) / w = n / w + 1 ∧ (n + 1) % w = 0 :=
      (Nat.div_mod_unique hw).mpr ⟨by rw [Nat.mul_succ]; omega, hw⟩
    rw [hdiv] at hrow
    cases interlace with
    | false =>
      simp only [RowCursor.closed, RowCursor.advance, hend, hmod, hdiv, Bool.false_eq_true, if_false, if_true]
      rw [skipPasses_of_no_pass rfl]
      rfl
    | true =>
      simp only [RowCursor.closed, RowCursor.advance, hend, hmod, hdiv, if_true]
      exact skipPasses_ilrow hrow
  · obtain ⟨hdiv, hmod⟩ : (n + 1) / w = n / w ∧ (n + 1) % w = n % w + 1 :=
      (Nat.div_mod_unique hw).mpr ⟨by omega, by have := Nat.mod_lt n hw; omega⟩
    cases interlace with
    | false => simp only [RowCursor.closed, RowCursor.advance, hend, hmod, hdiv, Bool.false_eq_true, if_false]
    | true => simp only [RowCursor.closed, RowCursor.advance, hend, hmod, hdiv, if_true, if_false]

theorem RowCursor.after_eq_closed {w h n : Nat} (hn : n < w * h) (interlace : Bool) :
    RowCursor.after w h interlace n = RowCursor.closed w h interlace n := by
  induction n with
  | zero => exact (RowCursor.closed_zero (Nat.pos_of_mul_pos_left hn) w interlace).symm
  | succ n ih => rw [RowCursor.after, ih (Nat.lt_of_succ_lt hn), RowCursor.closed_succ hn]

/-- Settles O47: the two cursors are the same, index by index. -/
theorem incrementalCursorAgreesWithPosition : Obligations.IncrementalCursorAgreesWithPosition := by
  intro w h n interlace hn
  rw [RowCursor.after_eq_closed hn]
  cases interlace <;> exact ⟨rfl, rfl⟩

end Sys2Proof.Machine

/-! ### NEXT and WIDTH (R22, R75), and frames without a pixel (R151) -/

namespace Sys2Proof.Machine

/-! #### How far a code moves NEXT and WIDTH -/

/-- What is known of a flow that returns. -/
theorem EndsIn.of_go {s t : State} {P : List Byte → State → Prop} {x : Flow} (h : EndsIn s P x) (hx : x = .go t) :
    ∃ ix, P ix t := by
  rcases h with ⟨ix, u, hu, -, hp⟩ | ⟨ix, u, hu, -⟩ | ⟨f, hu⟩ <;> cases hu.symm.trans hx
  exact ⟨ix, hp⟩

/-- What a code that is not CLR and raises nothing does to NEXT and WIDTH: nothing, or what one insertion does. -/
theorem execCode_next_width {c : Code} {s t : State} (hclr : c.toNat ≠ s.clear) (h : execCode c s = .go t) :
    (t.next = s.next ∧ t.width = s.width) ∨ ∃ k, t.next = (insert k s).next ∧ t.width = (insert k s).width := by
  have hrow := codeRow_classify s.ctx c
  unfold execCode at h
  cases hk : classify s.ctx c with
  | clr => rw [hk] at hrow; exact absurd hrow hclr
  | endCode =>
    simp only [hk, doEnd] at h
    split at h <;> cases h
    exact .inl ⟨rfl, rfl⟩
  | firstCode =>
    simp only [hk] at h
    obtain ⟨ix, -, rfl⟩ := (doFirst_ends c s).of_go h
    exact .inl ⟨rfl, rfl⟩
  | dictCode =>
    simp only [hk] at h
    obtain ⟨ix, k, -, -, rfl⟩ := (doDict_ends c s).of_go h
    exact .inr ⟨k, rfl, rfl⟩
  | kwkwk =>
    simp only [hk] at h
    obtain ⟨ix, jx, k, -, -, -, rfl⟩ := (doKwkwk_ends c s).of_go h
    exact .inr ⟨k, rfl, rfl⟩
  | bad =>
    simp only [hk, doBad] at h
    cases h

/-- An insertion moves NEXT and WIDTH by at most one (R133, R134). -/
theorem insert_next_width (k : Byte) (s : State) :
    ((insert k s).width.toNat = s.width.toNat ∨ (insert k s).width.toNat = s.width.toNat + 1) ∧
      ((insert k s).next.toNat = s.next.toNat ∨ (insert k s).next.toNat = s.next.toNat + 1) := by
  by_cases hfull : 4095 < s.next.toNat
  · rw [insert_full hfull]
    exact ⟨.inl rfl, .inl rfl⟩
  · refine ⟨?_, .inr (insert_next (not_lt.mp hfull) k)⟩
    rw [insert_width (not_lt.mp hfull) k]
    split
    · next hgrows =>
      rw [BitVec.toNat_add]
      exact .inr (Nat.mod_eq_of_lt (by simp; omega))
    · exact .inl rfl

/-- Settles O44: by `execCode_next_width` it is enough to look at one insertion. -/
theorem widthGrowsByAtMostOne : Obligations.WidthGrowsByAtMostOne := by
  intro s t c _ hclr h
  rcases execCode_next_width hclr h with ⟨hnext, hwidth⟩ | ⟨k, hnext, hwidth⟩
  · rw [hnext, hwidth]
    exact ⟨.inl rfl, .inl rfl⟩
  · rw [hnext, hwidth]
    exact insert_next_width k s

/-! #### A zero-pixel frame -/

/-- A frame without a pixel has no room, so an emitting code raises with nothing accepted (R151). -/
theorem emit_bind_of_no_pixel {s u : State} {ix : List Byte} (hf : FrameOk s) (hu : Ran [] s u) (k : State → State)
    (hzero : s.framePixels = 0) (hne : ix ≠ []) :
    ∃ t, ((emit ix u).bind fun v => .go (k v)).outcome = .next t ∧ ErrorEntry .decodeError s t := by
  have hpos := List.length_pos_iff.mpr hne
  obtain ⟨t, ht, herr⟩ := emit_bind_of_excess (ix := ix) hf hu k (by omega)
  have hnone : s.fitting ix = [] := by rw [State.fitting, hzero, Nat.zero_sub, List.take_zero]
  rw [hnone, State.accept_nil] at herr
  exact ⟨t, ht, herr⟩

/-- Settles O56: each emitting code delivers at least one index, and no index has room; END finds the frame full. -/
theorem zeroPixelFrameTakesNoIndex : Obligations.ZeroPixelFrameTakesNoIndex := by
  intro s c hl hf hzero
  have hcount := hf.count
  refine ⟨fun hclass => ?_, execEnd_full (frameFull_iff.mpr (by omega))⟩
  rcases hclass with hk | hk | hk <;> rw [hk]
  · exact emit_bind_of_no_pixel hf (.refl s) (setFirstPrev c) hzero (List.cons_ne_nil _ _)
  · obtain ⟨hlt, hplain, -⟩ := classify_first_dict (.inr hk)
    obtain ⟨k, ix, hx, hfirst, -⟩ := expOf_spec hl hlt hplain
    obtain ⟨t, ht, herr⟩ := emit_bind_of_no_pixel hf (insert_ran k s) (setPrev c) hzero (List.cons_ne_nil k ix)
    exact ⟨t, (execDict_eq hx hfirst).trans ht, herr⟩
  · obtain ⟨-, -, hv⟩ := classify_kwkwk hk
    obtain ⟨hlt, hplain⟩ := hl.prevOk hv
    obtain ⟨k, ix, hx, hfirst, -⟩ := expOf_spec hl hlt hplain
    obtain ⟨t, ht, herr⟩ := emit_bind_of_no_pixel hf (insert_ran k s) (setPrev c) hzero
      (List.cons_ne_nil k (ix ++ [k]))
    exact ⟨t, (execKwkwk_eq hx hfirst c).trans ht, herr⟩

end Sys2Proof.Machine

/-! ### The words of the spec, the step, and the resets -/

namespace Sys2Proof.Machine

/-- Settles O1: the decoder is run on each word. -/
theorem specWordsDecode : Obligations.SpecWordsDecode := by
  unfold Obligations.SpecWordsDecode
  decide

/-- Settles O5: the head of the pending events is taken and run, or there is none. -/
theorem stepRunsTheDecodedEvent : Obligations.StepRunsTheDecodedEvent := fun _ =>
  ⟨fun _ _ => step_of_inputs, step_of_no_input⟩

/-- A code runs as the instruction it is classified to (R125). -/
theorem execCode_outcome (c : Code) (s : State) : (execCode c s).outcome = exec ((classify s.ctx c).toInstr c) s := by
  unfold execCode
  cases classify s.ctx c <;> rfl

/-- Settles O7: one round of the fetch loop, its end, and `execCode_outcome`. -/
theorem fetchLoopRunsTheClassifiedCode : Obligations.FetchLoopRunsTheClassifiedCode :=
  ⟨fun _ _ hended hbits => if_pos ⟨hended, hbits⟩, fun n _ hnone => fetchLoop_of_no_code hnone n, execCode_outcome⟩

/-- Settles O8: HardReset writes every register and empties the canvas and the table of entries. -/
theorem hardResetSetsEverything : Obligations.HardResetSetsEverything := fun s =>
  ⟨hardReset s, rfl, rfl, rfl, rfl, rfl, rfl, rfl, rfl, rfl, rfl, rfl, rfl, rfl, rfl, rfl, rfl, rfl, rfl, rfl, rfl, rfl,
    rfl, rfl, rfl, fun _ => rfl, fun _ => rfl⟩

/-- Settles O15: `raise` writes ERROR, STATE and the undefined registers, and `bind` goes no further. -/
theorem raiseEntersTheErrorState : Obligations.RaiseEntersTheErrorState := fun _ _ =>
  ⟨_, rfl, rfl, rfl, rfl, rfl, rfl, rfl, rfl, fun _ => rfl⟩

/-- WIDTH and NEXT after a legal MCS byte, as the values R111 writes. -/
theorem lzwInit_setMinCode_eq {b : Byte} (h2 : 2 ≤ b.toNat) (h8 : b.toNat ≤ 8) (s : State) :
    (lzwInit (setMinCode b s)).width = BitVec.ofNat 4 (b.toNat + 1) ∧
      (lzwInit (setMinCode b s)).next = BitVec.ofNat 13 (2 ^ b.toNat + 2) := by
  obtain ⟨hwidth, hnext⟩ := lzwInit_setMinCode_toNat h2 h8 s
  rw [← hwidth, ← hnext, BitVec.ofNat_toNat, BitVec.ofNat_toNat, BitVec.setWidth_eq, BitVec.setWidth_eq]
  exact ⟨rfl, rfl⟩

/-- Settles O26: PUSH counts the byte and runs the item of its class, whose next state is given by the item's lemma. -/
theorem pushCompletesEachItem : Obligations.PushCompletesEachItem := by
  intro s b hbusy
  refine ⟨fun hmcs h2 h8 => ?_, fun hlen hne => ?_, fun hlen hzero hended => ?_, fun hdata hended => ?_⟩
  · have hitem : exec (.push b) s = execMcs b (countByte s) := exec_push_of_class hbusy (k := .mcs) (by rw [hmcs]; rfl)
    obtain ⟨hwidth, hnext⟩ := lzwInit_setMinCode_eq h2 h8 (countByte s)
    rw [hitem, execMcs_legal h2 h8, ← hwidth, ← hnext]
    rfl
  · have hitem : exec (.push b) s = execSblen b (countByte s) :=
      exec_push_of_class hbusy (k := .sblen) (by rw [hlen]; exact if_neg hne)
    exact hitem
  · have hitem : exec (.push b) s = execSbterm (countByte s) :=
      exec_push_of_class hbusy (k := .sbterm) (by rw [hlen, hzero]; rfl)
    exact hitem.trans (execSbterm_ended hended)
  · have hitem : exec (.push b) s = execSbdata b (countByte s) :=
      exec_push_of_class hbusy (k := .sbdata) (by rw [hdata]; rfl)
    have hfstate := countData_fstate_data (s := countByte s) hdata
    rw [countByte_rem] at hfstate
    rw [hitem, execSbdata_ended (s := countByte s) hended, ← hfstate]
    rfl

/-! ### Register reads (R32, R33, R91) -/

/-- A read of a register whose value is defined returns it, and changes nothing else (R61, R91). -/
theorem exec_regRead_defined {s : State} {n : Nat} {r : RegSel} {v : Word} (hr : RegSel.ofNum n = r)
    (hfree : s.readsFree r = false) (hv : s.regWord r = v) :
    exec (decodeEvent (.regRead n)) s = .next { s with returned := s.returned ++ [.reg (RegSel.ofNum n) v] } := by
  subst hr hv
  exact if_neg (ne_true_of_eq_false hfree)

/-- A read of a register that reads as any value returns the free value of its width, and counts it (log 3). -/
theorem execRegread_free {s : State} {r : RegSel} (hfree : s.readsFree r = true) :
    execRegread r s = .next { s with
      returned := s.returned ++ [.reg r (s.freeRegWord r (Config.freeWord s.draws))], draws := s.draws + 1 } :=
  if_pos hfree

theorem lzwUnknown_iff {s : State} :
    s.lzwUnknown = true ↔ s.runState = .error ∨ s.runState = .busy ∧ s.fstate = .mcs := by
  simp only [State.lzwUnknown, Bool.or_eq_true, Bool.and_eq_true, decide_eq_true_eq]

theorem prevUnknown_iff {s : State} :
    s.prevUnknown = true ↔ s.runState = .error ∨ s.prevValid = false ∧ s.runState ≠ .idle := by
  simp only [State.prevUnknown, Bool.or_eq_true, Bool.and_eq_true, Bool.not_eq_true', decide_eq_true_eq,
    decide_eq_false_iff_not]

/-- FRAME_FLAGS as a number (R32). -/
theorem frameFlags_eq (s : State) : s.frameFlags = BitVec.ofNat 32 (s.interlace.toNat + 2 * s.transpEn.toNat) := by
  unfold State.frameFlags
  cases s.interlace <;> cases s.transpEn <;> rfl

/-- In IDLE the resets have left PREV at 0, and it reads so (R38, log 7). -/
theorem idle_prev {s : State} (hinv : MachineInv s) (hidle : s.runState = .idle) : s.prev = 0 := by
  rw [hinv.idleFresh hidle, clearRun_prev]

/-- Settles O16: one use of `exec_regRead_defined` for each register, by its number. -/
theorem registerReadsReturnTheRegister : Obligations.RegisterReadsReturnTheRegister := by
  intro s
  refine ⟨exec_regRead_defined rfl rfl rfl, exec_regRead_defined rfl rfl rfl,
    fun n hn => exec_regRead_defined (ofNum_of_above hn) rfl rfl,
    exec_regRead_defined rfl rfl rfl, exec_regRead_defined rfl rfl rfl, exec_regRead_defined rfl rfl rfl,
    exec_regRead_defined rfl rfl rfl, exec_regRead_defined rfl rfl rfl, exec_regRead_defined rfl rfl rfl,
    exec_regRead_defined rfl rfl rfl, exec_regRead_defined rfl rfl (frameFlags_eq s), exec_regRead_defined rfl rfl rfl,
    exec_regRead_defined rfl rfl rfl, exec_regRead_defined rfl rfl rfl, fun herr hmcs => ?_, fun herr hv => ?_,
    fun hinv hidle => ?_⟩
  · have hknown : s.lzwUnknown = false := eq_false_of_ne_true fun h => (lzwUnknown_iff.mp h).elim herr hmcs
    exact ⟨exec_regRead_defined rfl hknown rfl, exec_regRead_defined rfl hknown rfl,
      exec_regRead_defined rfl hknown rfl⟩
  · have hknown : s.prevUnknown = false := eq_false_of_ne_true fun h =>
      (prevUnknown_iff.mp h).elim herr fun hno => Bool.noConfusion (hno.1.symm.trans hv)
    exact exec_regRead_defined rfl hknown rfl
  · have hknown : s.prevUnknown = false := eq_false_of_ne_true fun h =>
      (prevUnknown_iff.mp h).elim (fun herr => RunState.noConfusion (hidle.symm.trans herr)) fun hno => hno.2 hidle
    exact exec_regRead_defined rfl hknown (congrArg (BitVec.setWidth 32) (idle_prev hinv hidle))

/-- The fields of STATUS where it is defined (R33). -/
theorem statusWord_fields (s : State) :
    s.statusWord.extractLsb' 0 2 = s.runState.num ∧ s.statusWord.extractLsb' 6 26 = 0 ∧
      s.statusWord.getLsbD 2 = s.ended ∧ s.statusWord.getLsbD 3 = s.prevValid ∧
      s.statusWord.extractLsb' 4 2 = s.fstate.num := by
  unfold State.statusWord
  cases s.runState <;> cases s.ended <;> cases s.prevValid <;> cases s.fstate <;> decide

/-- The fields of STATUS that are defined after an error (R33, U2). -/
theorem freeStatusWord_fields (s : State) (w : Word) :
    (freeStatusWord s w).extractLsb' 0 2 = s.runState.num ∧ (freeStatusWord s w).extractLsb' 6 26 = 0 := by
  unfold freeStatusWord
  constructor
  · ext i hi
    have hlow : (w.setWidth 4 ++ s.runState.num : BitVec 6).getLsbD i = s.runState.num.getLsbD i := by
      rw [BitVec.getLsbD_append, if_pos hi]
    rw [BitVec.getElem_extractLsb', Nat.zero_add, BitVec.getLsbD_setWidth, decide_eq_true (show i < 32 by omega),
      Bool.true_and, hlow, BitVec.getLsbD_eq_getElem hi]
  · ext i hi
    simp

/-- Settles O17: STATUS is read whole, or in ERROR with a free value in bits 5:2. -/
theorem statusShowsTheFlags : Obligations.StatusShowsTheFlags := by
  intro s
  by_cases herr : s.runState = .error
  · obtain ⟨hstate, hzero⟩ := freeStatusWord_fields s (Config.freeWord s.draws)
    exact ⟨_, _, execRegread_free (decide_eq_true herr), rfl, hstate, hzero, fun hok => absurd herr hok⟩
  · obtain ⟨hstate, hzero, hended, hprev, hfstate⟩ := statusWord_fields s
    exact ⟨_, _, exec_regRead_defined (n := 0x01) rfl (decide_eq_false herr) rfl, rfl, hstate, hzero,
      fun _ => ⟨rfl, hended, hprev, hfstate⟩⟩

/-- Settles O18: in these states the register reads free, and the free value is cut to its width. -/
theorem undefinedReadsGiveSomeValue : Obligations.UndefinedReadsGiveSomeValue := by
  intro s r w h
  have hcut (k : Nat) (hk : k < 32) (v : Word) : ((v.setWidth k).setWidth 32).toNat < 2 ^ k := by
    rw [BitVec.toNat_setWidth_of_le (by omega)]
    exact BitVec.isLt _
  rcases h with ⟨⟨rfl, rfl⟩ | ⟨rfl, rfl⟩ | ⟨rfl, rfl⟩, hwhen⟩ | ⟨rfl, rfl, hwhen⟩
  · exact ⟨_, hcut 4 (by decide) _, execRegread_free (lzwUnknown_iff.mpr hwhen)⟩
  · exact ⟨_, hcut 4 (by decide) _, execRegread_free (lzwUnknown_iff.mpr hwhen)⟩
  · exact ⟨_, hcut 13 (by decide) _, execRegread_free (lzwUnknown_iff.mpr hwhen)⟩
  · exact ⟨_, hcut 12 (by decide) _, execRegread_free (prevUnknown_iff.mpr hwhen)⟩

end Sys2Proof.Machine
